-- ==== Sys2Proof/Word.lean ====
section
/-! DEFINITION. The word types of sub015-CORE (00_scope.md rule R10). -/

namespace Sys2Proof

/-- One byte of a stream memory (20_memory.md R50). -/
abbrev Byte := BitVec 8

/-- A command word, `CW_BITS = 64` (R10, 30_encoding.md R70). -/
abbrev CommandWord := BitVec 64

/-- The data word of a response, `RW_BITS = 32` (R10, R73). -/
abbrev ResultWord := BitVec 32

/-- One element of a block, `ELEM_BITS = 32`, read as two's complement (R10, R36). -/
abbrev Element := BitVec 32

end Sys2Proof
end

