-- ==== Sys2Proof/Syntax.lean ====
section
/-! DEFINITION. The 26 commands of sub015-CORE (30_encoding.md rule R76), operands assembled as
rule R72 says: `n` and a signed `imm` are integers, an unsigned `imm` is a natural number, a byte
and a packed colour are bit patterns. -/

namespace Sys2Proof

/-- A command, one constructor for each row of the opcode map R76. -/
inductive Instr where
  /-- `NOP` (R100). -/
  | nop
  /-- `RESET` (R101). -/
  | reset
  /-- `ENC.INIT` (R112). -/
  | encInit
  /-- `ENC.BOOL b, p`: the boolean and the probability that it is false, out of 256 (R113). -/
  | encBool (b : Bool) (p : Int)
  /-- `ENC.FINISH` (R119). -/
  | encFinish
  /-- `ENC.LEN` (R123). -/
  | encLen
  /-- `ENC.RDB idx`: an unsigned byte index (R125). -/
  | encRdb (idx : Nat)
  /-- `DEC.CLR` (R131). -/
  | decClr
  /-- `DEC.WRB byte` (R132). -/
  | decWrb (byte : Byte)
  /-- `DEC.INIT` (R134). -/
  | decInit
  /-- `DEC.BOOL p` (R135). -/
  | decBool (p : Int)
  /-- `DEC.LDENC` (R133). -/
  | decLdenc
  /-- `LIT.PUTU n, v`: `numBits` and an unsigned value (R151). -/
  | litPutu (n : Int) (v : Nat)
  /-- `LIT.PUTS n, v`: `numBits` and a signed value (R152). -/
  | litPuts (n : Int) (v : Int)
  /-- `LIT.GETU n` (R153). -/
  | litGetu (n : Int)
  /-- `LIT.GETS n` (R154). -/
  | litGets (n : Int)
  /-- `BLK.WR n, v`: element index and signed value (R172). -/
  | blkWr (n : Int) (v : Int)
  /-- `BLK.RD n` (R173). -/
  | blkRd (n : Int)
  /-- `SCR.RD n` (R174). -/
  | scrRd (n : Int)
  /-- `XFM.WHT` (R178). -/
  | xfmWht
  /-- `XFM.IWHT` (R179). -/
  | xfmIwht
  /-- `XFM.DCT` (R181). -/
  | xfmDct
  /-- `XFM.IDCT` (R183). -/
  | xfmIdct
  /-- `XFM.DCT0` (R184). -/
  | xfmDct0
  /-- `CSC.RGB2YUV rgb`: a packed colour (R201, R202). -/
  | cscRgb2yuv (rgb : BitVec 32)
  /-- `CSC.YUV2RGB yuv`: a packed colour (R201, R203). -/
  | cscYuv2rgb (yuv : BitVec 32)
  deriving DecidableEq, Repr

/-- The rows of the opcode map R76 by name, without operands. -/
inductive Mnemonic where
  | nop | reset
  | encInit | encBool | encFinish | encLen | encRdb
  | decClr | decWrb | decInit | decBool | decLdenc
  | litPutu | litPuts | litGetu | litGets
  | blkWr | blkRd | scrRd | xfmWht | xfmIwht | xfmDct | xfmIdct | xfmDct0
  | cscRgb2yuv | cscYuv2rgb
  deriving DecidableEq, Repr

/-- The six command formats of R71. -/
inductive Format where
  /-- `op` only. -/
  | z
  /-- `op`, `imm`. -/
  | i
  /-- `op`, `b`, `imm`. -/
  | bi
  /-- `op`, `imm[7:0]`. -/
  | y
  /-- `op`, `nf`. -/
  | n
  /-- `op`, `nf`, `imm`. -/
  | ni
  deriving DecidableEq, Repr

/-- Why a command word is no command: the three cases of R77. Each is answered
`(ERR_ILLEGAL, 0)`; the name is the model's, the hardware does not report it. -/
inductive DecodeReject where
  /-- R77 (a): the `op` byte is not in the opcode map. -/
  | unassignedOpcode
  /-- R77 (b): a bit of `rsv` is set. -/
  | reservedBitsSet
  /-- R77 (c): a bit is set in a field the command's format does not use. -/
  | unusedFieldSet
  deriving DecidableEq, Repr

end Sys2Proof
end

