-- ==== Sys2Proof/WellFormed.lean ====
section
/-! DEFINITION. When an instruction's operands fit the fields of the command word
(30_encoding.md rules R70 and R72). A value the command itself refuses (a probability of 256, 33
bits, element 16) is well formed: the word exists, and the command answers an error. -/

namespace Sys2Proof

/-- `v` is the value of a two's complement number of `w` bits (`sext_w`, 00_scope.md R13). -/
def fitsSigned (w : Nat) (v : Int) : Bool := -(2 ^ (w - 1)) ≤ v && v < 2 ^ (w - 1)

/-- `v` is the value of an unsigned number of `w` bits (`zext_w`, R13). -/
def fitsUnsigned (w : Nat) (v : Nat) : Bool := v < 2 ^ w

/-- R72: `n` is a signed 8-bit number, a signed `imm` a signed 32-bit number, an unsigned `imm` an
unsigned 32-bit number. -/
def Instr.wellFormed : Instr → Bool
  | .nop => true
  | .reset => true
  | .encInit => true
  | .encBool _ p => fitsSigned 32 p
  | .encFinish => true
  | .encLen => true
  | .encRdb idx => fitsUnsigned 32 idx
  | .decClr => true
  | .decWrb _ => true
  | .decInit => true
  | .decBool p => fitsSigned 32 p
  | .decLdenc => true
  | .litPutu n v => fitsSigned 8 n && fitsUnsigned 32 v
  | .litPuts n v => fitsSigned 8 n && fitsSigned 32 v
  | .litGetu n => fitsSigned 8 n
  | .litGets n => fitsSigned 8 n
  | .blkWr n v => fitsSigned 8 n && fitsSigned 32 v
  | .blkRd n => fitsSigned 8 n
  | .scrRd n => fitsSigned 8 n
  | .xfmWht => true
  | .xfmIwht => true
  | .xfmDct => true
  | .xfmIdct => true
  | .xfmDct0 => true
  | .cscRgb2yuv _ => true
  | .cscYuv2rgb _ => true

end Sys2Proof
end

