-- ==== Sys2Proof/Decode.lean ====
section
/-! DEFINITION. The command word (30_encoding.md rules R70 to R78): its fields, the opcode map, the
decoder, total on all `2^64` words, and the encoder. -/

namespace Sys2Proof

/-- The five fields of a command word (R70). -/
structure CommandFields where
  /-- Bits 63:56, the opcode. -/
  op : BitVec 8
  /-- Bits 55:48, `numBits` or an element index. -/
  nf : BitVec 8
  /-- Bits 47:33, reserved. -/
  rsv : BitVec 15
  /-- Bit 32, the boolean of `ENC.BOOL`. -/
  b : BitVec 1
  /-- Bits 31:0, the immediate. -/
  imm : BitVec 32
  deriving DecidableEq, Repr

/-- R70: the fields of a command word. -/
def unpack (cw : CommandWord) : CommandFields where
  op := cw.extractLsb' 56 8
  nf := cw.extractLsb' 48 8
  rsv := cw.extractLsb' 33 15
  b := cw.extractLsb' 32 1
  imm := cw.extractLsb' 0 32

/-- R70: the command word with the given fields. -/
def pack (f : CommandFields) : CommandWord := f.op ++ (f.nf ++ (f.rsv ++ (f.b ++ f.imm)))

/-- The rows of R76, in the table's order. -/
def Mnemonic.all : List Mnemonic :=
  [.nop, .reset,
   .encInit, .encBool, .encFinish, .encLen, .encRdb,
   .decClr, .decWrb, .decInit, .decBool, .decLdenc,
   .litPutu, .litPuts, .litGetu, .litGets,
   .blkWr, .blkRd, .scrRd, .xfmWht, .xfmIwht, .xfmDct, .xfmIdct, .xfmDct0,
   .cscRgb2yuv, .cscYuv2rgb]

/-- R76, column `op`. -/
def Mnemonic.op : Mnemonic → BitVec 8
  | .nop => 0x00
  | .reset => 0x01
  | .encInit => 0x10
  | .encBool => 0x11
  | .encFinish => 0x12
  | .encLen => 0x13
  | .encRdb => 0x14
  | .decClr => 0x20
  | .decWrb => 0x21
  | .decInit => 0x22
  | .decBool => 0x23
  | .decLdenc => 0x24
  | .litPutu => 0x30
  | .litPuts => 0x31
  | .litGetu => 0x32
  | .litGets => 0x33
  | .blkWr => 0x40
  | .blkRd => 0x41
  | .scrRd => 0x42
  | .xfmWht => 0x43
  | .xfmIwht => 0x44
  | .xfmDct => 0x45
  | .xfmIdct => 0x46
  | .xfmDct0 => 0x47
  | .cscRgb2yuv => 0x50
  | .cscYuv2rgb => 0x51

/-- R76, column `format`. -/
def Mnemonic.format : Mnemonic → Format
  | .nop => .z
  | .reset => .z
  | .encInit => .z
  | .encBool => .bi
  | .encFinish => .z
  | .encLen => .z
  | .encRdb => .i
  | .decClr => .z
  | .decWrb => .y
  | .decInit => .z
  | .decBool => .i
  | .decLdenc => .z
  | .litPutu => .ni
  | .litPuts => .ni
  | .litGetu => .n
  | .litGets => .n
  | .blkWr => .ni
  | .blkRd => .n
  | .scrRd => .n
  | .xfmWht => .z
  | .xfmIwht => .z
  | .xfmDct => .z
  | .xfmIdct => .z
  | .xfmDct0 => .z
  | .cscRgb2yuv => .i
  | .cscYuv2rgb => .i

/-- R71, column `mask`. -/
def Format.mask : Format → CommandWord
  | .z => 0xFFFFFFFFFFFFFFFF
  | .i => 0xFFFFFFFF00000000
  | .bi => 0xFFFFFFFE00000000
  | .y => 0xFFFFFFFFFFFFFF00
  | .n => 0xFF00FFFFFFFFFFFF
  | .ni => 0xFF00FFFF00000000

/-- R76, column `match`: the opcode with every other bit zero. -/
def Mnemonic.matchWord (m : Mnemonic) : CommandWord := m.op ++ (0 : BitVec 56)

/-- R75: the test `(cw & mask) == match` of one row. -/
def Mnemonic.rowMatches (m : Mnemonic) (cw : CommandWord) : Bool :=
  cw &&& m.format.mask == m.matchWord

/-- R71, column "bits that must be zero", for the fields other than `rsv`. -/
def Format.unusedZero : Format → CommandFields → Bool
  | .z, f => f.nf == 0 && f.b == 0 && f.imm == 0
  | .i, f => f.nf == 0 && f.b == 0
  | .bi, f => f.nf == 0
  | .y, f => f.nf == 0 && f.b == 0 && f.imm.extractLsb' 8 24 == 0
  | .n, f => f.b == 0 && f.imm == 0
  | .ni, f => f.b == 0

/-- The row of the opcode map with the given `op` byte (R76; the `op` bytes differ, R75). -/
def Mnemonic.ofOp (op : BitVec 8) : Option Mnemonic := Mnemonic.all.find? fun m => m.op == op

/-- R72: the operands of a command, assembled from the fields. -/
def Mnemonic.assemble (m : Mnemonic) (f : CommandFields) : Instr :=
  match m with
  | .nop => .nop
  | .reset => .reset
  | .encInit => .encInit
  | .encBool => .encBool (f.b == 1) f.imm.toInt
  | .encFinish => .encFinish
  | .encLen => .encLen
  | .encRdb => .encRdb f.imm.toNat
  | .decClr => .decClr
  | .decWrb => .decWrb (f.imm.extractLsb' 0 8)
  | .decInit => .decInit
  | .decBool => .decBool f.imm.toInt
  | .decLdenc => .decLdenc
  | .litPutu => .litPutu f.nf.toInt f.imm.toNat
  | .litPuts => .litPuts f.nf.toInt f.imm.toInt
  | .litGetu => .litGetu f.nf.toInt
  | .litGets => .litGets f.nf.toInt
  | .blkWr => .blkWr f.nf.toInt f.imm.toInt
  | .blkRd => .blkRd f.nf.toInt
  | .scrRd => .scrRd f.nf.toInt
  | .xfmWht => .xfmWht
  | .xfmIwht => .xfmIwht
  | .xfmDct => .xfmDct
  | .xfmIdct => .xfmIdct
  | .xfmDct0 => .xfmDct0
  | .cscRgb2yuv => .cscRgb2yuv f.imm
  | .cscYuv2rgb => .cscYuv2rgb f.imm

/-- R75 and R77: the command a word stands for, or why it is none. -/
def decode (cw : CommandWord) : Except DecodeReject Instr :=
  match Mnemonic.ofOp (unpack cw).op with
  | none => .error .unassignedOpcode
  | some m =>
    if (unpack cw).rsv ≠ 0 then .error .reservedBitsSet
    else if m.format.unusedZero (unpack cw) then .ok (m.assemble (unpack cw))
    else .error .unusedFieldSet

/-- The row of the opcode map a command belongs to. -/
def Instr.mnemonic : Instr → Mnemonic
  | .nop => .nop
  | .reset => .reset
  | .encInit => .encInit
  | .encBool _ _ => .encBool
  | .encFinish => .encFinish
  | .encLen => .encLen
  | .encRdb _ => .encRdb
  | .decClr => .decClr
  | .decWrb _ => .decWrb
  | .decInit => .decInit
  | .decBool _ => .decBool
  | .decLdenc => .decLdenc
  | .litPutu _ _ => .litPutu
  | .litPuts _ _ => .litPuts
  | .litGetu _ => .litGetu
  | .litGets _ => .litGets
  | .blkWr _ _ => .blkWr
  | .blkRd _ => .blkRd
  | .scrRd _ => .scrRd
  | .xfmWht => .xfmWht
  | .xfmIwht => .xfmIwht
  | .xfmDct => .xfmDct
  | .xfmIdct => .xfmIdct
  | .xfmDct0 => .xfmDct0
  | .cscRgb2yuv _ => .cscRgb2yuv
  | .cscYuv2rgb _ => .cscYuv2rgb

/-- The `nf` field of a command's word (R70, R79): the low 8 bits of `n`. -/
def Instr.nfField : Instr → BitVec 8
  | .litPutu n _ => BitVec.ofInt 8 n
  | .litPuts n _ => BitVec.ofInt 8 n
  | .litGetu n => BitVec.ofInt 8 n
  | .litGets n => BitVec.ofInt 8 n
  | .blkWr n _ => BitVec.ofInt 8 n
  | .blkRd n => BitVec.ofInt 8 n
  | .scrRd n => BitVec.ofInt 8 n
  | _ => 0

/-- The `b` field of a command's word (R70, R79). -/
def Instr.bField : Instr → BitVec 1
  | .encBool b _ => BitVec.ofBool b
  | _ => 0

/-- The `imm` field of a command's word (R70, R79): a negative number in two's complement. -/
def Instr.immField : Instr → BitVec 32
  | .encBool _ p => BitVec.ofInt 32 p
  | .encRdb idx => BitVec.ofNat 32 idx
  | .decWrb byte => byte.setWidth 32
  | .decBool p => BitVec.ofInt 32 p
  | .litPutu _ v => BitVec.ofNat 32 v
  | .litPuts _ v => BitVec.ofInt 32 v
  | .blkWr _ v => BitVec.ofInt 32 v
  | .cscRgb2yuv rgb => rgb
  | .cscYuv2rgb yuv => yuv
  | _ => 0

/-- The fields of a command's word: `rsv` and every field the format does not use are zero (R77). -/
def Instr.fields (i : Instr) : CommandFields where
  op := i.mnemonic.op
  nf := i.nfField
  rsv := 0
  b := i.bField
  imm := i.immField

/-- The one 64-bit word of a well-formed command (R70, R78). -/
def encode (i : Instr) : CommandWord := pack i.fields

/-- The command word whose low `nbits` bits are those of `w` and whose other bits are zero. The word
is presented whole on the command port, so no byte order enters (R54). -/
def tableWord (nbits w : Nat) : CommandWord := BitVec.ofNat 64 (w % 2 ^ nbits)

/-- What the decoder reads from the table word. -/
def decodeTableWord (nbits w : Nat) : Option Instr :=
  match decode (tableWord nbits w) with
  | .ok i => some i
  | .error _ => none

end Sys2Proof
end

