-- ==== Sys2Proof/Config.lean ====
section
/-! DEFINITION. What an instance of sub015-CORE fixes: the one open parameter `CAP`
(00_scope.md rule R11, decision D8). The specification leaves no value free
(93_implementation_defined.md: nothing is non-deterministic), so there is no opaque constant here. -/

namespace Sys2Proof.Config

/-- R11: the capacity in bytes of EBUF and of DBUF satisfies `2 <= CAP < 2^32`. -/
def capLegal (cap : Nat) : Bool := 2 ≤ cap && cap < 2 ^ 32

/-- R11: the default capacity, `2^24` bytes. -/
def defaultCap : Nat := 16777216

end Sys2Proof.Config
end

