-- ==== Sys2Proof/Machine/State.lean ====
section
/-! DEFINITION. The state of one sub015-CORE instance (10_state.md rule R20), what the host has put
on and taken from its ports, the reasons a step can stop, and the state after reset (R42, R241). -/

namespace Sys2Proof.Machine

/-- A stream memory (20_memory.md R50) as its listed cells, addresses strictly rising, no cell
holding the byte that an unlisted address reads as (`Memory.wf`). -/
abbrev Memory := List Host.Cell

/-- `E.phase` (R27): code 0 is `ACTIVE`, code 1 is `FINISHED`. -/
inductive EncPhase where
  | active
  | finished
  deriving DecidableEq, Repr

/-- `D.phase` (R33): code 0 is `LOADING`, code 1 is `DECODING`. -/
inductive DecPhase where
  | loading
  | decoding
  deriving DecidableEq, Repr

/-- The encoder context BENC (R23 to R27) with its stream memory EBUF (R50). -/
structure EncContext where
  /-- `E.range` (R23). -/
  range : BitVec 8
  /-- `E.low` (R24). -/
  low : BitVec 16
  /-- `E.cnt` (R25). -/
  cnt : BitVec 3
  /-- `E.len` (R26): an integer in `[0, CAP]`. -/
  len : Nat
  /-- `E.phase` (R27). -/
  phase : EncPhase
  /-- `EBUF` (R50). -/
  buf : Memory
  deriving DecidableEq, Repr

/-- The decoder context BDEC (R28 to R33) with its stream memory DBUF (R50). -/
structure DecContext where
  /-- `D.range` (R28). -/
  range : BitVec 8
  /-- `D.value` (R29). -/
  value : BitVec 16
  /-- `D.bc` (R30). -/
  bc : BitVec 3
  /-- `D.pos` (R31): an integer in `[0, D.len]`. -/
  pos : Nat
  /-- `D.len` (R32): an integer in `[0, CAP]`. -/
  len : Nat
  /-- `D.phase` (R33). -/
  phase : DecPhase
  /-- `DBUF` (R50). -/
  buf : Memory
  deriving DecidableEq, Repr

/-- Four like things: a row or a column of the 4x4 grid (44_block_transforms.md R171). -/
structure Quad (α : Type) where
  x0 : α
  x1 : α
  x2 : α
  x3 : α
  deriving DecidableEq, Repr

/-- The 16 elements of `BLK` or `SCR` as the four rows of the 4x4 grid (R36, R37, R171). -/
abbrev Block := Quad (Quad Element)

/-- The five error kinds of R211, in the order of their codes. -/
inductive Err where
  /-- `ERR_ILLEGAL`, code 1 (R213). -/
  | illegal
  /-- `ERR_ARG`, code 2 (R214). -/
  | arg
  /-- `ERR_STATE`, code 3 (R216). -/
  | state
  /-- `ERR_RANGE`, code 4 (R217). -/
  | range
  /-- `ERR_OVERFLOW`, code 5 (R218). -/
  | overflow
  deriving DecidableEq, Repr

/-- The status of a response (R73): codes 6 and 7 are never produced, so six values suffice. -/
inductive Status where
  /-- `OK`, code 0. -/
  | ok
  /-- One of the five errors. -/
  | err (e : Err)
  deriving DecidableEq, Repr

/-- The response to one command, `(st, rw)` (R73). -/
structure Response where
  st : Status
  rw : ResultWord
  deriving DecidableEq, Repr

/-- What the host does at the block's ports (70_reset_and_hazards.md R249). -/
inductive PortEvent where
  /-- The host presents a command word (R70, R74). -/
  | command (cw : CommandWord)
  /-- The host asserts the reset input (R240); `inProgress` is the command it cuts short, if any:
  that command is abandoned without a response. -/
  | reset (inProgress : Option CommandWord)
  deriving DecidableEq, Repr

/-- Why the machine stops with a fault. Each names a point at which the rules' pseudocode has no
meaning; the invariants R120 and R140 and the register ranges of R20 rule all of them out, so none
is raised in a state that a run from reset reaches. All are safe: the model stops in states the
hardware does not have. -/
inductive Fault where
  /-- Raised by the one-byte accesses to EBUF and DBUF for an index at or above `CAP`, where no
  byte exists (R50, R52). Needs a length above `CAP`. Safe. -/
  | outsideStreamMemory
  /-- Raised by `EncBool` and `DecBool` when the interval size is 0: `Split` is not defined there
  (R111) and the renormalisation loop would not end (R117, R138). Safe. -/
  | emptyInterval
  /-- Raised by `EncBool` and `ENC.FINISH` when a value does not fit its 16 bits, which
  R102 says cannot happen. Needs `E.low >= 2^(8 + E.cnt)`. Safe. -/
  | lowOverflow
  /-- Raised by `AddCarry` when every byte of the stream is 0xFF or the stream is empty (R116 says
  that the index never goes below 0). Safe. -/
  | carryPastFirstByte
  deriving DecidableEq, Repr

/-- Why the machine refuses an instruction. -/
inductive Refusal where
  /-- Raised by an arm of `exec` whose instruction has no meaning yet. No arm raises it: every
  instruction is modelled. Safe. -/
  | notModelled (mnemonic : String)
  deriving DecidableEq, Repr

/-- What ends the pseudocode of a command before its `return` (00_scope.md R15): a `raise`, which
is answered by an error response, or a point where the rules have no meaning. -/
inductive Stop where
  | raise (e : Err)
  | fault (f : Fault)
  deriving DecidableEq, Repr

/-- The state of one instance. The first four fields are the state `S` of R20. `cap` is the
configuration `CAP` (R11), which no step changes. `port` and `responses` are the command stream and
the response stream (R16, R74), which are the instance's input and output. -/
structure State where
  /-- The encoder context and EBUF. -/
  enc : EncContext
  /-- The decoder context and DBUF. -/
  dec : DecContext
  /-- `BLK[0 .. 15]` (R36). -/
  blk : Block
  /-- `SCR[0 .. 15]` (R37). -/
  scr : Block
  /-- `CAP` (R11). -/
  cap : Nat
  /-- What the host does next at the ports, first event first (R58, R74, R249). -/
  port : List PortEvent
  /-- The responses delivered so far, oldest first (R74). -/
  responses : List Response
  deriving DecidableEq, Repr

/-- A 4x4 grid of zeros (R42). -/
def Block.zero : Block := ⟨⟨0, 0, 0, 0⟩, ⟨0, 0, 0, 0⟩, ⟨0, 0, 0, 0⟩, ⟨0, 0, 0, 0⟩⟩

/-- The state `S0` of R241 (values: R42) of an instance with capacity `cap`. -/
def State.resetWith (cap : Nat) : State where
  enc := { range := 255, low := 0, cnt := 0, len := 0, phase := .active, buf := [] }
  dec := { range := 255, value := 0, bc := 0, pos := 0, len := 0, phase := .loading, buf := [] }
  blk := Block.zero
  scr := Block.zero
  cap := cap
  port := []
  responses := []

/-- The state right after reset, with the default capacity of R11. -/
def State.reset : State := State.resetWith Config.defaultCap

end Sys2Proof.Machine
end

