-- ==== Sys2Proof/Machine/Flags.lean ====
section
/-! DEFINITION. The only status flags are the two phases (10_state.md R34): their codes, the checks
of 60_exceptions.md R216, and the codes of a response's status (30_encoding.md R73). -/

namespace Sys2Proof.Machine

/-- R27: `ACTIVE = 0`, `FINISHED = 1`. -/
def EncPhase.code : EncPhase → BitVec 1
  | .active => 0
  | .finished => 1

/-- R33: `LOADING = 0`, `DECODING = 1`. -/
def DecPhase.code : DecPhase → BitVec 1
  | .loading => 0
  | .decoding => 1

/-- R73, R211: the 3-bit status code. -/
def Status.code : Status → BitVec 3
  | .ok => 0
  | .err .illegal => 1
  | .err .arg => 2
  | .err .state => 3
  | .err .range => 4
  | .err .overflow => 5

/-- R216: a decision is encoded only in phase `ACTIVE`. -/
def checkActive (e : EncContext) : Except Stop Unit :=
  match e.phase with
  | .active => .ok ()
  | .finished => .error (.raise .state)

/-- R216: a byte is loaded only in phase `LOADING`. -/
def checkLoading (d : DecContext) : Except Stop Unit :=
  match d.phase with
  | .loading => .ok ()
  | .decoding => .error (.raise .state)

/-- R216: a decision is decoded only in phase `DECODING`. -/
def checkDecoding (d : DecContext) : Except Stop Unit :=
  match d.phase with
  | .loading => .error (.raise .state)
  | .decoding => .ok ()

end Sys2Proof.Machine
end

