-- ==== Sys2Proof/Machine/Operands.lean ====
section
/-! DEFINITION. Reading operands and writing results: the arithmetic notation of 00_scope.md R13,
the argument checks of 30_encoding.md R81, packed colours (45_color_converter.md R201), and the
elements of a block (44_block_transforms.md R171). -/

namespace Sys2Proof.Machine

/-- R13: `u32(a)`, how a result is placed in the 32-bit response word. -/
def u32 (a : Int) : ResultWord := BitVec.ofInt 32 a

/-- R13: `wrap32(a)`, as the 32-bit two's complement pattern that is stored. -/
def wrap32 (a : Int) : Element := BitVec.ofInt 32 a

/-- R13: `a >> n`, floor division by `2^n`, also for negative `a`. -/
def asr (a : Int) (n : Nat) : Int := a / 2 ^ n

/-- R13: `clamp8(a)`. -/
def clamp8 (a : Int) : Int := if a < 0 then 0 else if a > 255 then 255 else a

/-- R13: `v[15:8]` of a non-negative number, as a byte. -/
def highByte (v : Nat) : Byte := BitVec.ofNat 8 (v / 256)

/-- R13: `v[7:0]` of a non-negative number, as a byte. -/
def lowByte (v : Nat) : Byte := BitVec.ofNat 8 (v % 256)

/-- R214: a probability outside `[0, 255]` is `ERR_ARG`. -/
def checkProbability (p : Int) : Except Stop Unit :=
  if p < 0 ∨ p > 255 then .error (.raise .arg) else .ok ()

/-- R155: a width `n` outside `[1, 32]` is `ERR_ARG`. -/
def checkNumBits (n : Int) : Except Stop Unit :=
  if n < 1 ∨ n > 32 then .error (.raise .arg) else .ok ()

/-- R217: an element index outside `[0, 15]` is `ERR_RANGE`. -/
def checkElement (n : Int) : Except Stop Unit :=
  if n < 0 ∨ n > 15 then .error (.raise .range) else .ok ()

/-- R201: the channel `imm[23:16]`. -/
def channel2 (imm : BitVec 32) : Int := (imm.extractLsb' 16 8).toNat

/-- R201: the channel `imm[15:8]`. -/
def channel1 (imm : BitVec 32) : Int := (imm.extractLsb' 8 8).toNat

/-- R201: the channel `imm[7:0]`. -/
def channel0 (imm : BitVec 32) : Int := (imm.extractLsb' 0 8).toNat

/-- R202, R203: `(a << 16) | (b << 8) | c` of three channels, each in `[0, 255]`, so that the
union of the bits is the sum. -/
def packChannels (a b c : Int) : Int := a * 65536 + b * 256 + c

/-- Member `i` of four (`i` in `[0, 3]`). -/
def Quad.get {α : Type} (q : Quad α) (i : Nat) : α :=
  match i with
  | 0 => q.x0
  | 1 => q.x1
  | 2 => q.x2
  | _ => q.x3

/-- Four with member `i` replaced (`i` in `[0, 3]`). -/
def Quad.set {α : Type} (q : Quad α) (i : Nat) (a : α) : Quad α :=
  match i with
  | 0 => { q with x0 := a }
  | 1 => { q with x1 := a }
  | 2 => { q with x2 := a }
  | _ => { q with x3 := a }

/-- A function applied to each of four. -/
def Quad.map {α β : Type} (f : α → β) (q : Quad α) : Quad β := ⟨f q.x0, f q.x1, f q.x2, f q.x3⟩

/-- Rows become columns. -/
def Quad.transpose {α : Type} (g : Quad (Quad α)) : Quad (Quad α) :=
  ⟨g.map Quad.x0, g.map Quad.x1, g.map Quad.x2, g.map Quad.x3⟩

/-- R36, R171: element `i` (in `[0, 15]`) is row `i >> 2`, column `i & 3`. -/
def Block.get (b : Block) (i : Nat) : Element := (Quad.get b (i / 4)).get (i % 4)

/-- A block with element `i` (in `[0, 15]`) replaced. -/
def Block.set (b : Block) (i : Nat) (v : Element) : Block :=
  Quad.set b (i / 4) ((Quad.get b (i / 4)).set (i % 4) v)

end Sys2Proof.Machine
end

