-- ==== Sys2Proof/Machine/Ops.lean ====
section
/-! DEFINITION. The named operations over the stream memories and the registers, the answer to a
command, and the reset event.

What other machines call taking an exception is here the error response: one shared operation,
`complete`, written from 00_scope.md R15 and 60_exceptions.md R210, R212 and R222 (nothing is saved,
no mode changes, nothing is entered). There is no return from one (R223). -/

namespace Sys2Proof.Machine

/-- What an address of a stream memory that no cell lists reads as. DESIGN CHOICE (log entry 2):
the specification gives the bytes no value and lets no command read them (10_state.md R41). -/
def unlistedByte : Byte := 0

/-- The byte at an address. -/
def Memory.read : Memory → Nat → Byte
  | [], _ => unlistedByte
  | (b, w) :: m, a => if a = b then w else Memory.read m a

/-- The memory with one byte replaced, in canonical form again. -/
def Memory.write : Memory → Nat → Byte → Memory
  | [], a, v => if v = unlistedByte then [] else [(a, v)]
  | (b, w) :: m, a, v =>
    if a < b then (if v = unlistedByte then (b, w) :: m else (a, v) :: (b, w) :: m)
    else if a = b then (if v = unlistedByte then m else (a, v) :: m)
    else (b, w) :: Memory.write m a v

/-- The cells' addresses rise strictly from `lo` on and no cell holds the unlisted byte. -/
def Memory.risingFrom : Nat → Memory → Bool
  | _, [] => true
  | lo, (a, v) :: m => lo ≤ a && v != unlistedByte && Memory.risingFrom (a + 1) m

/-- The canonical form of a stream memory. -/
def Memory.wf (m : Memory) : Bool := m.risingFrom 0

/-- Every listed address lies below `cap`, the size of the memory (R50). -/
def Memory.below (cap : Nat) (m : Memory) : Bool := m.all fun c => c.1 < cap

/-- One-byte read of a stream memory of `cap` bytes (20_memory.md R50, R55). -/
def load (cap : Nat) (m : Memory) (a : Nat) : Except Stop Byte :=
  if a < cap then .ok (m.read a) else .error (.fault .outsideStreamMemory)

/-- One-byte write of a stream memory of `cap` bytes (R50, R55). -/
def store (cap : Nat) (m : Memory) (a : Nat) (v : Byte) : Except Stop Memory :=
  if a < cap then .ok (m.write a v) else .error (.fault .outsideStreamMemory)

/-- The bytes `0 .. n-1` of `src` copied to the same indexes of `dst`, in rising order (the loop of
42_bool_decoder.md R133). -/
def copyBytes (cap : Nat) (src dst : Memory) : Nat → Except Stop Memory
  | 0 => .ok dst
  | n + 1 => do
    let m ← copyBytes cap src dst n
    let v ← load cap src n
    store cap m n v

/-- The state with another encoder context. -/
def State.setEnc (s : State) (e : EncContext) : State := { s with enc := e }

/-- The state with another decoder context. -/
def State.setDec (s : State) (d : DecContext) : State := { s with dec := d }

/-- The state with another block `BLK`. -/
def State.setBlk (s : State) (b : Block) : State := { s with blk := b }

/-- The state with another scratch buffer `SCR`. -/
def State.setScr (s : State) (b : Block) : State := { s with scr := b }

/-- The state after the first port event is taken. -/
def State.setPort (s : State) (events : List PortEvent) : State := { s with port := events }

/-- One response is delivered (R73, R74). -/
def State.respond (s : State) (st : Status) (rw : ResultWord) : State :=
  { s with responses := s.responses ++ [⟨st, rw⟩] }

/-- R15, R212: how a command ends. `return v` answers `(OK, u32(v))` from the state the command
made; `raise` answers `(ERR, 0)` from the state exactly as it was before the command. -/
def complete (s : State) : Except Stop (State × Int) → Host.Outcome State Fault Refusal
  | .ok (s', v) => .next (s'.respond .ok (u32 v))
  | .error (.raise e) => .next (s.respond (.err e) 0)
  | .error (.fault f) => .fault f

/-- The encoder registers of a fresh session (R101, 41_bool_encoder.md R112); the bytes of EBUF are
not erased (20_memory.md R51). -/
def EncContext.fresh (e : EncContext) : EncContext :=
  { e with range := 255, low := 0, cnt := 0, len := 0, phase := .active }

/-- The decoder registers with `len` bytes loaded and nothing decoded (R101, R131, R133); the bytes
of DBUF are not erased (R51). -/
def DecContext.loaded (d : DecContext) (len : Nat) : DecContext :=
  { d with range := 255, value := 0, bc := 0, pos := 0, len := len, phase := .loading }

/-- R101, R240, R241: every state element at its reset value. -/
def State.restart (s : State) : State :=
  { s with enc := s.enc.fresh, dec := s.dec.loaded 0, blk := Block.zero, scr := Block.zero }

/-- R213: a word that is no command is answered `(ERR_ILLEGAL, 0)` and changes nothing. -/
def illegalWord (s : State) : Host.Outcome State Fault Refusal := complete s (.error (.raise .illegal))

/-- R240: the reset event. It has no response; the command it cuts short, if any, has none either
and none of its effect. -/
def resetEvent (s : State) : Host.Outcome State Fault Refusal := .next s.restart

/-- R251, R234: with no command at the port the block waits and holds its state. -/
def waitForCommand (s : State) : Host.Outcome State Fault Refusal := .next s

end Sys2Proof.Machine
end

