-- ==== Sys2Proof/Machine/Colour.lean ====
section
/-! DEFINITION. The colour-space converter CSC (45_color_converter.md): a command reads only its
word and writes only its response (R200). -/

namespace Sys2Proof.Machine

/-- R202: the packed YUV word of the channels `r`, `g`, `b`. -/
def rgbToYuv (r g b : Int) : Int :=
  packChannels (clamp8 (asr (77 * r + 150 * g + 29 * b + 128) 8))
    (clamp8 (asr (-43 * r - 85 * g + 128 * b + 128) 8 + 128))
    (clamp8 (asr (128 * r - 107 * g - 21 * b + 128) 8 + 128))

/-- R203: the packed RGB word of the channels `y`, `u`, `v`. The green term is floored first and
then subtracted. -/
def yuvToRgb (y u v : Int) : Int :=
  let d := u - 128
  let e := v - 128
  packChannels (clamp8 (y + asr (359 * e + 128) 8))
    (clamp8 (y - asr (88 * d + 183 * e + 128) 8))
    (clamp8 (y + asr (454 * d + 128) 8))

/-- `CSC.RGB2YUV rgb` (R202). -/
def execCscRgb2yuv (rgb : BitVec 32) (s : State) : Host.Outcome State Fault Refusal :=
  complete s (.ok (s, rgbToYuv (channel2 rgb) (channel1 rgb) (channel0 rgb)))

/-- `CSC.YUV2RGB yuv` (R203). -/
def execCscYuv2rgb (yuv : BitVec 32) (s : State) : Host.Outcome State Fault Refusal :=
  complete s (.ok (s, yuvToRgb (channel2 yuv) (channel1 yuv) (channel0 yuv)))

end Sys2Proof.Machine
end

