-- ==== Sys2Proof/Machine/CoderOps.lean ====
section
/-! DEFINITION. The helpers of the boolean coder that the BENC, BDEC and LIT commands share:
`Split`, `AddCarry`, `EncBool` (41_bool_encoder.md R111 to R118), `NextByte`, `Renorm`, `DecBool`
(42_bool_decoder.md R136 to R138). Intermediates are exact natural numbers, narrowed to the
register when they are stored (R13). -/

namespace Sys2Proof.Machine

/-- R111: `1 + (((range - 1) * p) >> 8)`, for `range >= 1`. -/
def splitAt (range p : Nat) : Nat := 1 + (range - 1) * p / 256

/-- R116, with the index counted from the length: `AddCarry` on the bytes `0 .. n-1`. -/
def addCarry (cap : Nat) (m : Memory) : Nat → Except Stop Memory
  | 0 => .error (.fault .carryPastFirstByte)
  | i + 1 => do
    let v ← load cap m i
    if v = 0xFF then
      let m' ← store cap m i 0x00
      addCarry cap m' i
    else store cap m i (v + 1)

/-- A value of `E.low` narrowed to its 16 bits; it always fits (R102, R120). -/
def narrowLow (v : Nat) : Except Stop (BitVec 16) :=
  if v < 2 ^ 16 then .ok (BitVec.ofNat 16 v) else .error (.fault .lowOverflow)

/-- R115: the interval update, with the carry out of the working part applied to EBUF at once. -/
def encUpdate (cap : Nat) (bit : Bool) (p : Nat) (e : EncContext) : Except Stop EncContext :=
  let sp := splitAt e.range.toNat p
  if bit then do
    let top := 2 ^ (8 + e.cnt.toNat)
    let sum := e.low.toNat + sp
    let range := BitVec.ofNat 8 (e.range.toNat - sp)
    if sum ≥ top then
      let low ← narrowLow (sum - top)
      let buf ← addCarry cap e.buf e.len
      .ok { e with range := range, low := low, buf := buf }
    else
      let low ← narrowLow sum
      .ok { e with range := range, low := low }
  else .ok { e with range := BitVec.ofNat 8 sp }

/-- R117, R118: one turn of the renormalisation loop. `E.cnt` counts to 8 when it holds 7: then a
byte is emitted, if it fits. -/
def encShift (cap : Nat) (e : EncContext) : Except Stop EncContext := do
  let low ← narrowLow (e.low.toNat * 2)
  let range := BitVec.ofNat 8 (e.range.toNat * 2)
  if e.cnt = 7 then
    if e.len = cap then .error (.raise .overflow)
    else
      let buf ← store cap e.buf e.len (highByte low.toNat)
      .ok { e with range := range, low := BitVec.ofNat 16 (low.toNat % 256), cnt := 0,
                   len := e.len + 1, buf := buf }
  else .ok { e with range := range, low := low, cnt := e.cnt + 1 }

/-- R117: the renormalisation loop. Seven turns bring every `E.range >= 1` to 128 or more. -/
def encRenorm (cap : Nat) : Nat → EncContext → Except Stop EncContext
  | 0, e => if e.range.toNat < 128 then .error (.fault .emptyInterval) else .ok e
  | n + 1, e =>
    if e.range.toNat < 128 then do
      let e' ← encShift cap e
      encRenorm cap n e'
    else .ok e

/-- R114: `EncBool(bit, p)`, for `0 <= p <= 255` and phase `ACTIVE`. -/
def encodeBool (cap : Nat) (bit : Bool) (p : Nat) (e : EncContext) : Except Stop EncContext :=
  if e.range = 0 then .error (.fault .emptyInterval)
  else do
    let e' ← encUpdate cap bit p e
    encRenorm cap 7 e'

/-- R136: `NextByte()`. Past the end it is the byte 0 and the cursor stays. -/
def nextByte (cap : Nat) (d : DecContext) : Except Stop (Byte × DecContext) :=
  if d.pos < d.len then do
    let v ← load cap d.buf d.pos
    .ok (v, { d with pos := d.pos + 1 })
  else .ok (0, d)

/-- R138: one turn of the decoder's renormalisation loop. The doubling keeps 16 bits; after the
eighth shift the next byte is fetched into the low byte. -/
def decShift (cap : Nat) (d : DecContext) : Except Stop DecContext :=
  let range := BitVec.ofNat 8 (d.range.toNat * 2)
  let value := BitVec.ofNat 16 (d.value.toNat * 2)
  if d.bc = 7 then do
    let (v, d') ← nextByte cap d
    .ok { d' with range := range, bc := 0, value := value ||| v.setWidth 16 }
  else .ok { d with range := range, value := value, bc := d.bc + 1 }

/-- R138: `Renorm()`. Seven turns bring every `D.range >= 1` to 128 or more. -/
def decRenorm (cap : Nat) : Nat → DecContext → Except Stop DecContext
  | 0, d => if d.range.toNat < 128 then .error (.fault .emptyInterval) else .ok d
  | n + 1, d =>
    if d.range.toNat < 128 then do
      let d' ← decShift cap d
      decRenorm cap n d'
    else .ok d

/-- R137, first half: the decoded bit and the interval update. -/
def decUpdate (p : Nat) (d : DecContext) : Bool × DecContext :=
  let sp := splitAt d.range.toNat p
  let big := sp * 256
  if d.value.toNat < big then (false, { d with range := BitVec.ofNat 8 sp })
  else (true, { d with range := BitVec.ofNat 8 (d.range.toNat - sp),
                       value := BitVec.ofNat 16 (d.value.toNat - big) })

/-- R137: `DecBool(p)`, for `0 <= p <= 255` and phase `DECODING`. -/
def decodeBool (cap : Nat) (p : Nat) (d : DecContext) : Except Stop (Bool × DecContext) :=
  if d.range = 0 then .error (.fault .emptyInterval)
  else do
    let d' ← decRenorm cap 7 (decUpdate p d).2
    .ok ((decUpdate p d).1, d')

/-- R151, R152: `EncBool(v[i], 128)` for `i` from `n-1` down to 0. -/
def putBits (cap : Nat) (v : Nat) : Nat → EncContext → Except Stop EncContext
  | 0, e => .ok e
  | i + 1, e => do
    let e' ← encodeBool cap (v.testBit i) 128 e
    putBits cap v i e'

/-- R153, R154: `v <- v * 2 + DecBool(128)`, `n` times, starting from `v`. -/
def getBits (cap : Nat) : Nat → Nat → DecContext → Except Stop (Nat × DecContext)
  | 0, v, d => .ok (v, d)
  | n + 1, v, d => do
    let (bit, d') ← decodeBool cap 128 d
    getBits cap n (v * 2 + bit.toNat) d'

end Sys2Proof.Machine
end

