-- ==== Sys2Proof/Machine/Decoder.lean ====
section
/-! DEFINITION. The commands of the boolean arithmetic decoder BDEC (42_bool_decoder.md). -/

namespace Sys2Proof.Machine

/-- `DEC.CLR` (R131). -/
def execDecClr (s : State) : Host.Outcome State Fault Refusal :=
  complete s (.ok (s.setDec (s.dec.loaded 0), 0))

/-- `DEC.WRB byte` (R132). -/
def execDecWrb (byte : Byte) (s : State) : Host.Outcome State Fault Refusal :=
  complete s do
    checkLoading s.dec
    if s.dec.len = s.cap then .error (.raise .overflow)
    else
      let buf ← store s.cap s.dec.buf s.dec.len byte
      .ok (s.setDec { s.dec with buf := buf, len := s.dec.len + 1 }, 0)

/-- `DEC.LDENC` (R133). -/
def execDecLdenc (s : State) : Host.Outcome State Fault Refusal :=
  complete s do
    let buf ← copyBytes s.cap s.enc.buf s.dec.buf s.enc.len
    .ok (s.setDec (DecContext.loaded { s.dec with buf := buf } s.enc.len), s.enc.len)

/-- R134: the window is loaded with the first two stream bytes. -/
def decStart (cap : Nat) (d : DecContext) : Except Stop DecContext := do
  let (hi, d1) ← nextByte cap { d with pos := 0, range := 255 }
  let (lo, d2) ← nextByte cap d1
  .ok { d2 with value := hi ++ lo, bc := 0, phase := .decoding }

/-- `DEC.INIT` (R134). -/
def execDecInit (s : State) : Host.Outcome State Fault Refusal :=
  complete s do
    let d ← decStart s.cap s.dec
    .ok (s.setDec d, 0)

/-- `DEC.BOOL p` (R135). -/
def execDecBool (p : Int) (s : State) : Host.Outcome State Fault Refusal :=
  complete s do
    checkProbability p
    checkDecoding s.dec
    let (bit, d) ← decodeBool s.cap p.toNat s.dec
    .ok (s.setDec d, bit.toNat)

end Sys2Proof.Machine
end

