-- ==== Sys2Proof/Machine/Encoder.lean ====
section
/-! DEFINITION. The commands of the boolean arithmetic encoder BENC (41_bool_encoder.md). -/

namespace Sys2Proof.Machine

/-- `ENC.INIT` (R112). -/
def execEncInit (s : State) : Host.Outcome State Fault Refusal :=
  complete s (.ok (s.setEnc s.enc.fresh, 0))

/-- `ENC.BOOL b, p` (R113). -/
def execEncBool (b : Bool) (p : Int) (s : State) : Host.Outcome State Fault Refusal :=
  complete s do
    checkProbability p
    checkActive s.enc
    let e ← encodeBool s.cap b p.toNat s.enc
    .ok (s.setEnc e, 0)

/-- R119: the flush of the working part, `8 + E.cnt` significant bits and then zero bits up to a
whole byte. Room for all the bytes is checked before any is written. -/
def encFlush (cap : Nat) (e : EncContext) : Except Stop EncContext :=
  if e.cnt = 0 then
    if e.len + 1 > cap then .error (.raise .overflow)
    else do
      let buf ← store cap e.buf e.len (lowByte e.low.toNat)
      .ok { e with buf := buf, len := e.len + 1, phase := .finished }
  else
    if e.len + 2 > cap then .error (.raise .overflow)
    else do
      let v ← narrowLow (e.low.toNat * 2 ^ (8 - e.cnt.toNat))
      let buf ← store cap e.buf e.len (highByte v.toNat)
      let buf' ← store cap buf (e.len + 1) (lowByte v.toNat)
      .ok { e with buf := buf', len := e.len + 2, phase := .finished }

/-- `ENC.FINISH` (R119). -/
def execEncFinish (s : State) : Host.Outcome State Fault Refusal :=
  complete s <|
    match s.enc.phase with
    | .finished => .ok (s, s.enc.len)
    | .active => do
      let e ← encFlush s.cap s.enc
      .ok (s.setEnc e, e.len)

/-- `ENC.LEN` (R123). -/
def execEncLen (s : State) : Host.Outcome State Fault Refusal := complete s (.ok (s, s.enc.len))

/-- `ENC.RDB idx` (R125). -/
def execEncRdb (idx : Nat) (s : State) : Host.Outcome State Fault Refusal :=
  complete s <|
    if idx ≥ s.enc.len then .error (.raise .range)
    else do
      let v ← load s.cap s.enc.buf idx
      .ok (s, v.toNat)

end Sys2Proof.Machine
end

