-- ==== Sys2Proof/Machine/Literal.lean ====
section
/-! DEFINITION. The literal integer codec LIT (43_literal_codec.md): every decision is made at
probability 128 (R150), and a command performs all its decisions or none (R156). -/

namespace Sys2Proof.Machine

/-- `LIT.PUTU n, v` (R151). -/
def execLitPutu (n : Int) (v : Nat) (s : State) : Host.Outcome State Fault Refusal :=
  complete s do
    checkNumBits n
    checkActive s.enc
    let e ← putBits s.cap v n.toNat s.enc
    .ok (s.setEnc e, 0)

/-- `LIT.PUTS n, v` (R152): the sign first, then `n-1` bits of the exact absolute value. -/
def execLitPuts (n : Int) (v : Int) (s : State) : Host.Outcome State Fault Refusal :=
  complete s do
    checkNumBits n
    checkActive s.enc
    let e ← encodeBool s.cap (decide (v < 0)) 128 s.enc
    let e' ← putBits s.cap v.natAbs (n.toNat - 1) e
    .ok (s.setEnc e', 0)

/-- `LIT.GETU n` (R153). -/
def execLitGetu (n : Int) (s : State) : Host.Outcome State Fault Refusal :=
  complete s do
    checkNumBits n
    checkDecoding s.dec
    let (v, d) ← getBits s.cap n.toNat 0 s.dec
    .ok (s.setDec d, v)

/-- `LIT.GETS n` (R154); a negative zero is 0 (R157). -/
def execLitGets (n : Int) (s : State) : Host.Outcome State Fault Refusal :=
  complete s do
    checkNumBits n
    checkDecoding s.dec
    let (neg, d) ← decodeBool s.cap 128 s.dec
    let (m, d') ← getBits s.cap (n.toNat - 1) 0 d
    .ok (s.setDec d', if neg then -(m : Int) else m)

end Sys2Proof.Machine
end

