-- ==== Sys2Proof/Machine/Sys.lean ====
section
/-! DEFINITION. The system commands NOP and RESET (40_sys.md). -/

namespace Sys2Proof.Machine

/-- `NOP` (R100). -/
def execNop (s : State) : Host.Outcome State Fault Refusal := complete s (.ok (s, 0))

/-- `RESET` (R101). -/
def execReset (s : State) : Host.Outcome State Fault Refusal := complete s (.ok (s.restart, 0))

end Sys2Proof.Machine
end

