-- ==== Sys2Proof/Machine/Transform.lean ====
section
/-! DEFINITION. The block commands and the transforms XFM (44_block_transforms.md). Inside a pass
everything is exact; every stored value is reduced by `wrap32` (R175). -/

namespace Sys2Proof.Machine

/-- `BLK.WR n, v` (R172). -/
def execBlkWr (n : Int) (v : Int) (s : State) : Host.Outcome State Fault Refusal :=
  complete s do
    checkElement n
    .ok (s.setBlk (s.blk.set n.toNat (wrap32 v)), 0)

/-- `BLK.RD n` (R173). -/
def execBlkRd (n : Int) (s : State) : Host.Outcome State Fault Refusal :=
  complete s do
    checkElement n
    .ok (s, (s.blk.get n.toNat).toInt)

/-- `SCR.RD n` (R174). -/
def execScrRd (n : Int) (s : State) : Host.Outcome State Fault Refusal :=
  complete s do
    checkElement n
    .ok (s, (s.scr.get n.toNat).toInt)

/-- R176: `Had4`. -/
def had4 (x : Quad Int) : Quad Int :=
  let a := x.x0 + x.x3
  let b := x.x1 + x.x2
  let c := x.x1 - x.x2
  let d := x.x0 - x.x3
  ⟨a + b, c + d, a - b, d - c⟩

/-- R180: `FdctRow`. -/
def fdctRow (x : Quad Int) : Quad Int :=
  let a := (x.x0 + x.x3) * 8
  let b := (x.x1 + x.x2) * 8
  let c := (x.x1 - x.x2) * 8
  let d := (x.x0 - x.x3) * 8
  ⟨a + b, asr (c * 2217 + d * 5352 + 2048) 12, a - b, asr (d * 2217 - c * 5352 + 2048) 12⟩

/-- R180: `FdctCol`. -/
def fdctCol (x : Quad Int) : Quad Int :=
  let a := x.x0 + x.x3
  let b := x.x1 + x.x2
  let c := x.x1 - x.x2
  let d := x.x0 - x.x3
  ⟨asr (a + b + 8) 4, asr (c * 2217 + d * 5352 + 32768) 16,
   asr (a - b + 8) 4, asr (d * 2217 - c * 5352 + 32768) 16⟩

/-- R182: `Idct4`; each of the four products is shifted separately. -/
def idct4 (i : Quad Int) : Quad Int :=
  let a := i.x0 + i.x2
  let b := i.x0 - i.x2
  let c := asr (i.x1 * 35468) 16 - (i.x3 + asr (i.x3 * 20091) 16)
  let d := (i.x1 + asr (i.x1 * 20091) 16) + asr (i.x3 * 35468) 16
  ⟨a + d, b + c, b - c, a - d⟩

/-- R177, pass 1: `f` on every row, each result reduced by `wrap32`. -/
def rowPass (f : Quad Int → Quad Int) (b : Block) : Block :=
  Quad.map (fun row => (f (row.map BitVec.toInt)).map wrap32) b

/-- R177, pass 2: `f` on every column, each result scaled by `q` and reduced by `wrap32`. -/
def columnPass (f : Quad Int → Quad Int) (q : Int → Int) (b : Block) : Block :=
  Quad.transpose
    (Quad.map (fun col => (f (col.map BitVec.toInt)).map fun t => wrap32 (q t)) (Quad.transpose b))

/-- R177: `TwoPass(F1, F2, Q)`: rows from `BLK` to `SCR`, then columns from `SCR` to `BLK`. -/
def twoPass (f1 f2 : Quad Int → Quad Int) (q : Int → Int) (s : State) : State :=
  (s.setScr (rowPass f1 s.blk)).setBlk (columnPass f2 q (rowPass f1 s.blk))

/-- `XFM.WHT` (R178). -/
def execXfmWht (s : State) : Host.Outcome State Fault Refusal :=
  complete s (.ok (twoPass had4 had4 (fun t => asr (t + 1) 1) s, 0))

/-- `XFM.IWHT` (R179). -/
def execXfmIwht (s : State) : Host.Outcome State Fault Refusal :=
  complete s (.ok (twoPass had4 had4 (fun t => asr (t + 4) 3) s, 0))

/-- `XFM.DCT` (R181). -/
def execXfmDct (s : State) : Host.Outcome State Fault Refusal :=
  complete s (.ok (twoPass fdctRow fdctCol (fun t => t) s, 0))

/-- `XFM.IDCT` (R183). -/
def execXfmIdct (s : State) : Host.Outcome State Fault Refusal :=
  complete s (.ok (twoPass idct4 idct4 (fun t => asr (t + 4) 3) s, 0))

/-- The sum of four. -/
def Quad.sum (q : Quad Int) : Int := q.x0 + q.x1 + q.x2 + q.x3

/-- R184: the exact sum of the 16 elements of a block. -/
def blockSum (b : Block) : Int := (Quad.map (fun row => (row.map BitVec.toInt).sum) b).sum

/-- `XFM.DCT0` (R184). -/
def execXfmDct0 (s : State) : Host.Outcome State Fault Refusal :=
  complete s (.ok (s, (wrap32 (asr (blockSum s.blk + 1) 1)).toInt))

end Sys2Proof.Machine
end

