-- ==== Sys2Proof/Machine/Dispatch.lean ====
section
/-! DEFINITION. One arm for each command of the opcode map (30_encoding.md R76). -/

namespace Sys2Proof.Machine

def exec (i : Instr) (s : State) : Host.Outcome State Fault Refusal :=
  match i with
  | .nop => Sys2Proof.Machine.execNop s
  | .reset => Sys2Proof.Machine.execReset s
  | .encInit => Sys2Proof.Machine.execEncInit s
  | .encBool b p => Sys2Proof.Machine.execEncBool b p s
  | .encFinish => Sys2Proof.Machine.execEncFinish s
  | .encLen => Sys2Proof.Machine.execEncLen s
  | .encRdb idx => Sys2Proof.Machine.execEncRdb idx s
  | .decClr => Sys2Proof.Machine.execDecClr s
  | .decWrb byte => Sys2Proof.Machine.execDecWrb byte s
  | .decInit => Sys2Proof.Machine.execDecInit s
  | .decBool p => Sys2Proof.Machine.execDecBool p s
  | .decLdenc => Sys2Proof.Machine.execDecLdenc s
  | .litPutu n v => Sys2Proof.Machine.execLitPutu n v s
  | .litPuts n v => Sys2Proof.Machine.execLitPuts n v s
  | .litGetu n => Sys2Proof.Machine.execLitGetu n s
  | .litGets n => Sys2Proof.Machine.execLitGets n s
  | .blkWr n v => Sys2Proof.Machine.execBlkWr n v s
  | .blkRd n => Sys2Proof.Machine.execBlkRd n s
  | .scrRd n => Sys2Proof.Machine.execScrRd n s
  | .xfmWht => Sys2Proof.Machine.execXfmWht s
  | .xfmIwht => Sys2Proof.Machine.execXfmIwht s
  | .xfmDct => Sys2Proof.Machine.execXfmDct s
  | .xfmIdct => Sys2Proof.Machine.execXfmIdct s
  | .xfmDct0 => Sys2Proof.Machine.execXfmDct0 s
  | .cscRgb2yuv rgb => Sys2Proof.Machine.execCscRgb2yuv rgb s
  | .cscYuv2rgb yuv => Sys2Proof.Machine.execCscYuv2rgb yuv s

end Sys2Proof.Machine
end

