-- ==== Sys2Proof/Machine/Step.lean ====
section
/-! DEFINITION. One step: the next port event is taken and served to completion (20_memory.md R58,
30_encoding.md R74 and R75, 70_reset_and_hazards.md R240 and R251). -/

namespace Sys2Proof.Machine

/-- R75: one command word is executed, or answered `(ERR_ILLEGAL, 0)`. -/
def execWord (cw : CommandWord) (s : State) : Host.Outcome State Fault Refusal :=
  match decode cw with
  | .ok i => exec i s
  | .error _ => illegalWord s

/-- One step of the block. -/
def step (s : State) : Host.Outcome State Fault Refusal :=
  match s.port with
  | [] => waitForCommand s
  | .command cw :: rest => execWord cw (s.setPort rest)
  | .reset _ :: rest => resetEvent (s.setPort rest)

/-- The host presents the table word `w` next: the command port is where `step` takes its next
instruction from. -/
def State.withFetchWord (s : State) (nbits w : Nat) : State :=
  s.setPort (.command (tableWord nbits w) :: s.port)

end Sys2Proof.Machine
end

