-- ==== Sys2Proof/Safety.lean ====
section
/-! DEFINITION. The invariants the specification gives the state between commands
(41_bool_encoder.md R120, 42_bool_decoder.md R140, the ranges of 10_state.md R20), what it means for a
run not to stop, and when two states differ only in bytes that no command can read (R41). -/

namespace Sys2Proof.Machine

/-- `EBUFNUM` (10_state.md R24): the bytes `0 .. n-1` as one big-endian number. -/
def streamNumber (m : Memory) : Nat → Nat
  | 0 => 0
  | n + 1 => streamNumber m n * 256 + (m.read n).toNat

/-- `LOWFULL` (R24): the unbounded accumulator. -/
def EncContext.lowFull (e : EncContext) : Nat :=
  streamNumber e.buf e.len * 2 ^ (8 + e.cnt.toNat) + e.low.toNat

/-- `K` (R120): the renormalisation shifts of the session so far. -/
def EncContext.shifts (e : EncContext) : Nat := 8 * e.len + e.cnt.toNat

/-- A stream memory is in canonical form and lists only addresses that exist. -/
abbrev Memory.Ok (cap : Nat) (m : Memory) : Prop := m.wf = true ∧ m.below cap = true

/-- R120, items 1, 3, 4 (in phase `ACTIVE`) and 5; item 2 is the width of `cnt`. Items 1 and 3 hold
in phase `FINISHED` too, since ENC.FINISH keeps the registers. -/
abbrev EncContext.Inv (cap : Nat) (e : EncContext) : Prop :=
  128 ≤ e.range.toNat ∧ e.low.toNat < 2 ^ (8 + e.cnt.toNat) ∧
  (e.phase = .active → e.lowFull + e.range.toNat ≤ 255 * 2 ^ e.shifts) ∧
  e.len ≤ cap ∧ e.buf.Ok cap

/-- R140, first sentence, and R31, R32; it holds in phase `LOADING` too, where `D.value` is 0. -/
abbrev DecContext.Inv (cap : Nat) (d : DecContext) : Prop :=
  128 ≤ d.range.toNat ∧ d.value.toNat % 2 ^ d.bc.toNat = 0 ∧
  d.pos ≤ d.len ∧ d.len ≤ cap ∧ d.buf.Ok cap

/-- The invariant of the whole state: a legal capacity (R11) and the two contexts' invariants. -/
abbrev State.Inv (s : State) : Prop :=
  Config.capLegal s.cap = true ∧ s.enc.Inv s.cap ∧ s.dec.Inv s.cap

/-- R140, second sentence: with a first byte other than 0xFF, or no byte, the window lies in the
interval. -/
abbrev DecContext.WindowInv (d : DecContext) : Prop :=
  d.phase = .decoding → (d.buf.read 0 ≠ 0xFF ∨ d.len = 0) → d.value.toNat < d.range.toNat * 256

/-- A run that no fault and no refusal ends, however long it goes on. -/
def State.RunsForever (s : State) : Prop := ∀ k, ∃ t, Host.Core.run core k s = .next t

/-- Two memories hold the same bytes at the indexes below `n`. -/
def Memory.AgreeBelow (n : Nat) (m m' : Memory) : Prop := ∀ a, a < n → m.read a = m'.read a

/-- R41: the states differ at most in the bytes of EBUF at or above `E.len` and of DBUF at or above
`D.len`. -/
def State.SameLive (s t : State) : Prop :=
  t = { s with enc := { s.enc with buf := t.enc.buf }, dec := { s.dec with buf := t.dec.buf } } ∧
  s.enc.buf.AgreeBelow s.enc.len t.enc.buf ∧ s.dec.buf.AgreeBelow s.dec.len t.dec.buf

end Sys2Proof.Machine
end

