-- ==== Sys2Proof/Machine/Reference.lean ====
section
/-! DEFINITION. The second forms in which the specification states what the block does, against
which statements compare the machine: the source's unbounded encoder (30_encoding.md R85 to R87), the
bit-serial decoder (42_bool_decoder.md R143), sessions of commands (70_reset_and_hazards.md R243, R244)
and the table of statuses (60_exceptions.md R221). No step uses this file. -/

namespace Sys2Proof.Machine

/-- The number of doublings that bring an interval size of 1 to 255 to 128 or more (R117). -/
def doublings (range : Nat) : Nat := 7 - Nat.log2 range

/-- The interval size after the update of R115, before the doublings. -/
def intervalAfter (range p : Nat) (bit : Bool) : Nat :=
  if bit then range - (1 + (range - 1) * p / 256) else 1 + (range - 1) * p / 256

/-- What R115 adds to the accumulator. -/
def addedToLow (range p : Nat) (bit : Bool) : Nat :=
  if bit then 1 + (range - 1) * p / 256 else 0

/-- The unbounded coder of R85: `range`, `low` and the shift count `K`. -/
structure UnboundedCoder where
  range : Nat
  low : Nat
  shifts : Nat
  deriving DecidableEq, Repr

/-- R85: the start of a session. -/
def UnboundedCoder.start : UnboundedCoder := ⟨255, 0, 0⟩

/-- R85: `while range < 128` double `range` and `low`; seven turns are enough for `range >= 1`. -/
def UnboundedCoder.renorm : Nat → UnboundedCoder → UnboundedCoder
  | 0, u => u
  | n + 1, u => if u.range < 128 then renorm n ⟨u.range * 2, u.low * 2, u.shifts + 1⟩ else u

/-- R85: one decision. -/
def UnboundedCoder.decide (u : UnboundedCoder) (d : Bool × Nat) : UnboundedCoder :=
  let sp := 1 + (u.range - 1) * d.2 / 256
  if d.1 then renorm 7 ⟨u.range - sp, u.low + sp, u.shifts⟩ else renorm 7 ⟨sp, u.low, u.shifts⟩

/-- R85: the coder after a session's decisions. -/
def UnboundedCoder.session (ds : List (Bool × Nat)) : UnboundedCoder :=
  ds.foldl UnboundedCoder.decide UnboundedCoder.start

/-- R85, R87: the length of the stream, `ceil((8 + K) / 8)`. -/
def UnboundedCoder.streamLength (u : UnboundedCoder) : Nat := (8 + u.shifts + 7) / 8

/-- R85: byte `i` of the stream, the number `low * 2^((8 - K mod 8) mod 8)` written in
`ceil((8 + K) / 8)` bytes, most significant byte first. -/
def UnboundedCoder.streamByte (u : UnboundedCoder) (i : Nat) : Byte :=
  BitVec.ofNat 8
    (u.low * 2 ^ ((8 - u.shifts % 8) % 8) / 256 ^ (u.streamLength - 1 - i) % 256)

/-- R143: bit `j` of the loaded stream, zero past its end. -/
def streamBit (d : DecContext) (j : Nat) : Nat :=
  if j / 8 < d.len then (d.buf.read (j / 8)).toNat / 2 ^ (7 - j % 8) % 2 else 0

/-- R143: the bit-serial decoder, an 8-bit window and a stream bit index beside the interval size. -/
structure SerialDecoder where
  range : Nat
  window : Nat
  index : Nat
  deriving DecidableEq, Repr

/-- R143: the bit-serial decoder at DEC.INIT: the window is the stream bits 0 to 7. -/
def SerialDecoder.start (d : DecContext) : SerialDecoder :=
  ⟨255, (List.range 8).foldl (fun w j => w * 2 + streamBit d j) 0, 8⟩

/-- R143: the shifts of one decision. -/
def SerialDecoder.renorm (d : DecContext) : Nat → SerialDecoder → SerialDecoder
  | 0, u => u
  | n + 1, u =>
    if u.range < 128 then
      renorm d n ⟨u.range * 2, u.window * 2 % 256 + streamBit d u.index, u.index + 1⟩
    else u

/-- R143: one decision. -/
def SerialDecoder.decode (d : DecContext) (u : SerialDecoder) (p : Nat) : Bool × SerialDecoder :=
  let sp := 1 + (u.range - 1) * p / 256
  if u.window < sp then (false, renorm d 7 ⟨sp, u.window, u.index⟩)
  else (true, renorm d 7 ⟨u.range - sp, u.window - sp, u.index⟩)

/-- R143: the bits decoded under a list of probabilities, and the decoder after them. -/
def SerialDecoder.decodeAll (d : DecContext) (u : SerialDecoder) : List Nat → List Bool × SerialDecoder
  | [] => ([], u)
  | p :: ps =>
    let r := u.decode d p
    let rest := SerialDecoder.decodeAll d r.2 ps
    (r.1 :: rest.1, rest.2)

/-- The state after the commands, each of which must answer `OK`. -/
def execOk : List Instr → State → Option State
  | [], s => some s
  | i :: is, s =>
    match exec i s with
    | .next t =>
      match t.responses.getLast? with
      | some ⟨.ok, _⟩ => execOk is t
      | _ => none
    | .fault _ => none
    | .refused _ => none

/-- R42: every state element of R20 at its reset value; the bytes of the stream memories are not
observable then. -/
abbrev State.AtResetValues (s : State) : Prop :=
  s.enc.range = 255 ∧ s.enc.low = 0 ∧ s.enc.cnt = 0 ∧ s.enc.len = 0 ∧ s.enc.phase = .active ∧
  s.dec.range = 255 ∧ s.dec.value = 0 ∧ s.dec.bc = 0 ∧ s.dec.pos = 0 ∧ s.dec.len = 0 ∧
  s.dec.phase = .loading ∧ ∀ i, i < 16 → s.blk.get i = 0 ∧ s.scr.get i = 0

/-- A response `(OK, bit)`. -/
def bitResponse (bit : Bool) : Response := ⟨.ok, if bit then 1 else 0⟩

/-- The bits `v[n-1], ..., v[0]` (43_literal_codec.md R151). -/
def bitsDown (v : Nat) : Nat → List Bool
  | 0 => []
  | n + 1 => v.testBit n :: bitsDown v n

/-- R159: the shifts of an `n`-bit literal whose first bit is `first`: one a bit, but for a first
bit `false` in a fresh context. -/
def literalShifts (range : Nat) (first : Bool) (n : Nat) : Nat :=
  if range = 255 ∧ first = false then n - 1 else n

/-- One entry of a schema with the value coded under it (R247): a decision, an unsigned literal or a
signed literal. -/
inductive Item where
  | decision (bit : Bool) (p : Nat)
  | unsigned (n : Nat) (v : Nat)
  | signed (n : Nat) (v : Int)
  deriving DecidableEq, Repr

/-- R158: the values that round-trip. -/
def Item.legal : Item → Bool
  | .decision _ p => p ≤ 255
  | .unsigned n v => 1 ≤ n && n ≤ 32 && v < 2 ^ n
  | .signed n v => 1 ≤ n && n ≤ 32 && -(2 ^ (n - 1) - 1) ≤ v && v ≤ 2 ^ (n - 1) - 1

/-- The command that encodes an item. -/
def Item.put : Item → Instr
  | .decision bit p => .encBool bit p
  | .unsigned n v => .litPutu n v
  | .signed n v => .litPuts n v

/-- R247: the matching decoder command. -/
def Item.get : Item → Instr
  | .decision _ p => .decBool p
  | .unsigned n _ => .litGetu n
  | .signed n _ => .litGets n

/-- The response that returns an item's value. -/
def Item.answer : Item → Response
  | .decision bit _ => bitResponse bit
  | .unsigned _ v => ⟨.ok, BitVec.ofNat 32 v⟩
  | .signed _ v => ⟨.ok, BitVec.ofInt 32 v⟩

/-- R221: the errors that a command of each row can answer. -/
def mayAnswer : Mnemonic → List Err
  | .nop => []
  | .reset => []
  | .encInit => []
  | .encBool => [.arg, .state, .overflow]
  | .encFinish => [.overflow]
  | .encLen => []
  | .encRdb => [.range]
  | .decClr => []
  | .decWrb => [.state, .overflow]
  | .decInit => []
  | .decBool => [.arg, .state]
  | .decLdenc => []
  | .litPutu => [.arg, .state, .overflow]
  | .litPuts => [.arg, .state, .overflow]
  | .litGetu => [.arg, .state]
  | .litGets => [.arg, .state]
  | .blkWr => [.range]
  | .blkRd => [.range]
  | .scrRd => [.range]
  | .xfmWht => []
  | .xfmIwht => []
  | .xfmDct => []
  | .xfmIdct => []
  | .xfmDct0 => []
  | .cscRgb2yuv => []
  | .cscYuv2rgb => []

/-- Four expressions in four elements. -/
abbrev Stage := Int → Int → Int → Int → Int

/-- R177, pass 1: `out[4r + j]` is `wrap32` of expression `j` of the row `r` of `b`. -/
def IsRowPass (y0 y1 y2 y3 : Stage) (b out : Block) : Prop :=
  ∀ r, r < 4 →
    let at0 := (b.get (4 * r)).toInt
    let at1 := (b.get (4 * r + 1)).toInt
    let at2 := (b.get (4 * r + 2)).toInt
    let at3 := (b.get (4 * r + 3)).toInt
    out.get (4 * r) = BitVec.ofInt 32 (y0 at0 at1 at2 at3) ∧
    out.get (4 * r + 1) = BitVec.ofInt 32 (y1 at0 at1 at2 at3) ∧
    out.get (4 * r + 2) = BitVec.ofInt 32 (y2 at0 at1 at2 at3) ∧
    out.get (4 * r + 3) = BitVec.ofInt 32 (y3 at0 at1 at2 at3)

/-- R177, pass 2: `out[4j + c]` is `wrap32` of expression `j` of the column `c` of `b`. -/
def IsColumnPass (y0 y1 y2 y3 : Stage) (b out : Block) : Prop :=
  ∀ c, c < 4 →
    let at0 := (b.get c).toInt
    let at1 := (b.get (4 + c)).toInt
    let at2 := (b.get (8 + c)).toInt
    let at3 := (b.get (12 + c)).toInt
    out.get c = BitVec.ofInt 32 (y0 at0 at1 at2 at3) ∧
    out.get (4 + c) = BitVec.ofInt 32 (y1 at0 at1 at2 at3) ∧
    out.get (8 + c) = BitVec.ofInt 32 (y2 at0 at1 at2 at3) ∧
    out.get (12 + c) = BitVec.ofInt 32 (y3 at0 at1 at2 at3)

/-- The sum of the 16 elements (R184). -/
def elementSum (b : Block) : Int := ((List.range 16).map fun i => (b.get i).toInt).sum

/-- The sum of row `r` (R184). -/
def rowSum (b : Block) (r : Nat) : Int := ((List.range 4).map fun j => (b.get (4 * r + j)).toInt).sum

/-- Every element lies in `[-bound, bound]`. -/
def Block.Within (b : Block) (bound : Int) : Prop :=
  ∀ i, i < 16 → -bound ≤ (b.get i).toInt ∧ (b.get i).toInt ≤ bound

/-- R204: `back` is what CSC.YUV2RGB answers to the answer of CSC.RGB2YUV to `rgb`. -/
def ColourRoundTrip (s : State) (rgb back : ResultWord) : Prop :=
  ∃ t u yuv, exec (.cscRgb2yuv rgb) s = .next t ∧ t.responses = s.responses ++ [⟨.ok, yuv⟩] ∧
    exec (.cscYuv2rgb yuv) t = .next u ∧ u.responses = t.responses ++ [⟨.ok, back⟩]

/-- R204: by how much two packed colours differ in the channel whose lowest bit has weight `n`. -/
def channelError (a b : ResultWord) (n : Nat) : Nat :=
  ((b.toNat / n % 256 : Int) - (a.toNat / n % 256 : Int)).natAbs

end Sys2Proof.Machine
end

