-- ==== Sys2Proof/Certificates/Slice0/Obligations.lean ====
section
/-! DEFINITION. The statements about the machine that the provers are asked to settle. Each docstring
names the rule or the section of spec/ that it states. -/

open Sys2Proof
open Sys2Proof.Machine

/-! ### Decoding and stepping -/

/-- R70: `unpack` reads the five fields at their bit positions, and `pack` puts them there. -/
def Obligations.FieldsStandAtTheirBits : Prop :=
  (∀ cw : CommandWord,
    (unpack cw).op.toNat = cw.toNat / 2 ^ 56 ∧
    (unpack cw).nf.toNat = cw.toNat / 2 ^ 48 % 2 ^ 8 ∧
    (unpack cw).rsv.toNat = cw.toNat / 2 ^ 33 % 2 ^ 15 ∧
    (unpack cw).b.toNat = cw.toNat / 2 ^ 32 % 2 ∧
    (unpack cw).imm.toNat = cw.toNat % 2 ^ 32) ∧
  ∀ f : CommandFields,
    (pack f).toNat = f.op.toNat * 2 ^ 56 + f.nf.toNat * 2 ^ 48 + f.rsv.toNat * 2 ^ 33 +
      f.b.toNat * 2 ^ 32 + f.imm.toNat

/-- R76: the opcode map as printed: row, `op`, format, `match`, `mask`. -/
def Obligations.OpcodeMapAsPrinted : Prop :=
  Mnemonic.all.map (fun m => (m, m.op, m.format, m.matchWord, m.format.mask)) =
    [(.nop, 0x00, .z, 0x0000000000000000, 0xFFFFFFFFFFFFFFFF),
     (.reset, 0x01, .z, 0x0100000000000000, 0xFFFFFFFFFFFFFFFF),
     (.encInit, 0x10, .z, 0x1000000000000000, 0xFFFFFFFFFFFFFFFF),
     (.encBool, 0x11, .bi, 0x1100000000000000, 0xFFFFFFFE00000000),
     (.encFinish, 0x12, .z, 0x1200000000000000, 0xFFFFFFFFFFFFFFFF),
     (.encLen, 0x13, .z, 0x1300000000000000, 0xFFFFFFFFFFFFFFFF),
     (.encRdb, 0x14, .i, 0x1400000000000000, 0xFFFFFFFF00000000),
     (.decClr, 0x20, .z, 0x2000000000000000, 0xFFFFFFFFFFFFFFFF),
     (.decWrb, 0x21, .y, 0x2100000000000000, 0xFFFFFFFFFFFFFF00),
     (.decInit, 0x22, .z, 0x2200000000000000, 0xFFFFFFFFFFFFFFFF),
     (.decBool, 0x23, .i, 0x2300000000000000, 0xFFFFFFFF00000000),
     (.decLdenc, 0x24, .z, 0x2400000000000000, 0xFFFFFFFFFFFFFFFF),
     (.litPutu, 0x30, .ni, 0x3000000000000000, 0xFF00FFFF00000000),
     (.litPuts, 0x31, .ni, 0x3100000000000000, 0xFF00FFFF00000000),
     (.litGetu, 0x32, .n, 0x3200000000000000, 0xFF00FFFFFFFFFFFF),
     (.litGets, 0x33, .n, 0x3300000000000000, 0xFF00FFFFFFFFFFFF),
     (.blkWr, 0x40, .ni, 0x4000000000000000, 0xFF00FFFF00000000),
     (.blkRd, 0x41, .n, 0x4100000000000000, 0xFF00FFFFFFFFFFFF),
     (.scrRd, 0x42, .n, 0x4200000000000000, 0xFF00FFFFFFFFFFFF),
     (.xfmWht, 0x43, .z, 0x4300000000000000, 0xFFFFFFFFFFFFFFFF),
     (.xfmIwht, 0x44, .z, 0x4400000000000000, 0xFFFFFFFFFFFFFFFF),
     (.xfmDct, 0x45, .z, 0x4500000000000000, 0xFFFFFFFFFFFFFFFF),
     (.xfmIdct, 0x46, .z, 0x4600000000000000, 0xFFFFFFFFFFFFFFFF),
     (.xfmDct0, 0x47, .z, 0x4700000000000000, 0xFFFFFFFFFFFFFFFF),
     (.cscRgb2yuv, 0x50, .i, 0x5000000000000000, 0xFFFFFFFF00000000),
     (.cscYuv2rgb, 0x51, .i, 0x5100000000000000, 0xFFFFFFFF00000000)]

/-- The example words of R79, one of each format, and one word of each remaining unit. -/
def Obligations.ExampleWordsDecode : Prop :=
  decode 0x1200000000000000 = .ok .encFinish ∧
  decode 0x23000000000000F5 = .ok (.decBool 245) ∧
  decode 0x110000010000000A = .ok (.encBool true 10) ∧
  decode 0x3305000000000000 = .ok (.litGets 5) ∧
  decode 0x31050000FFFFFFF9 = .ok (.litPuts 5 (-7)) ∧
  decode 0x21000000000000AB = .ok (.decWrb 0xAB) ∧
  decode 0x40030000FFFFFC18 = .ok (.blkWr 3 (-1000)) ∧
  decode 0x50000000FF123456 = .ok (.cscRgb2yuv 0xFF123456) ∧
  decode 0x0100000000000000 = .ok .reset

/-- R75, with R76's rows: a word decodes to a command of row `m` exactly when
`(cw & mask) == match` holds for `m`. -/
def Obligations.DecodeFollowsMaskAndMatch : Prop :=
  ∀ (cw : CommandWord) (m : Mnemonic),
    cw &&& m.format.mask = m.matchWord ↔ ∃ i, decode cw = .ok i ∧ i.mnemonic = m

/-- Decode and encode agree (R70 to R78): the word of every well-formed command decodes to that
command, with every operand. -/
def Obligations.DecodeOfEncode : Prop :=
  ∀ i : Instr, i.wellFormed = true → decode (encode i) = .ok i

/-- R75, R77, R78: every word that decodes is the word of the command it decodes to, and that command
is well formed; so no two words stand for one command. -/
def Obligations.EncodeOfDecode : Prop :=
  ∀ (cw : CommandWord) (i : Instr), decode cw = .ok i → i.wellFormed = true ∧ encode i = cw

/-- R75, R58: with a command word at the port that decodes to `i`, the step takes the word from the
port and executes `i`; nothing else surrounds it. -/
def Obligations.StepRunsDecodedCommand : Prop :=
  ∀ (s : State) (cw : CommandWord) (rest : List PortEvent) (i : Instr),
    s.port = .command cw :: rest → decode cw = .ok i → step s = exec i { s with port := rest }

/-- R213, R77: a word that matches no row is answered `(ERR_ILLEGAL, 0)` in every state, and no state
changes. -/
def Obligations.IllegalWordIsRefused : Prop :=
  ∀ (s : State) (cw : CommandWord) (rest : List PortEvent),
    s.port = .command cw :: rest →
    (∀ m : Mnemonic, cw &&& m.format.mask ≠ m.matchWord) →
    step s = .next { s with port := rest, responses := s.responses ++ [⟨.err .illegal, 0⟩] }

/-- R240: the reset event puts every state element at its reset value, has no response, and no
command it cuts short has one. R251, R234: with nothing at the port the block waits and holds its
state. -/
def Obligations.ResetEventAndWaiting : Prop :=
  (∀ (s : State) (c : Option CommandWord) (rest : List PortEvent),
    s.port = .reset c :: rest →
    ∃ t, step s = .next t ∧ t.AtResetValues ∧
      t.responses = s.responses ∧ t.port = rest ∧ t.cap = s.cap) ∧
  ∀ s : State, s.port = [] → step s = .next s

/-- R73, R211: the status codes. -/
def Obligations.StatusCodes : Prop :=
  Status.ok.code = 0 ∧ (Status.err .illegal).code = 1 ∧ (Status.err .arg).code = 2 ∧
  (Status.err .state).code = 3 ∧ (Status.err .range).code = 4 ∧ (Status.err .overflow).code = 5 ∧
  ∀ st : Status, st.code ≠ 6 ∧ st.code ≠ 7

/-! ### Reset and invariants -/

/-- R42, R241: the state after reset, its capacity the default of R11, no live byte, nothing at the
ports. -/
def Obligations.ResetValues : Prop :=
  State.reset.AtResetValues ∧ State.reset.cap = 16777216 ∧
  State.reset.port = [] ∧ State.reset.responses = []

/-- The invariants R120 and R140 hold at reset, for every legal capacity (R11). -/
def Obligations.InvariantsHoldAtReset : Prop :=
  State.reset.Inv ∧ State.reset.dec.WindowInv ∧
  ∀ cap, Config.capLegal cap = true →
    (State.resetWith cap).Inv ∧ (State.resetWith cap).dec.WindowInv

/-- R120, R140 (first sentence): every step from every state that meets the invariants, whatever the
host does at the port, leads to a state that meets them. Among them: the interval sizes stay in
[128, 255], `LOWFULL + E.range <= 255 * 2^K`, and both memories keep their canonical form. -/
def Obligations.StepKeepsInvariant : Prop :=
  ∀ s t : State, s.Inv → step s = .next t → t.Inv

/-- R140 (second sentence): unless the loaded stream begins with 0xFF, the decoder's window stays
inside its interval in every step. -/
def Obligations.StepKeepsWindowInvariant : Prop :=
  ∀ s t : State, s.Inv → s.dec.WindowInv → step s = .next t → t.dec.WindowInv

/-- R16, R251: the block never halts: from every state that meets the invariant, whatever command
words and reset events the host presents, no run ends in a fault or a refusal. -/
def Obligations.NoRunStops : Prop := ∀ s : State, s.Inv → s.RunsForever

/-- R210, R74: every command delivers exactly one response, and touches neither the commands still to
come nor the configuration. -/
def Obligations.OneResponsePerCommand : Prop :=
  ∀ (i : Instr) (s t : State), exec i s = .next t →
    (∃ r, t.responses = s.responses ++ [r]) ∧ t.port = s.port ∧ t.cap = s.cap

/-- R74, R16: a run of `n` command words, legal or not, ends with `n` more responses and none of the
words left. -/
def Obligations.RunAnswersEveryWord : Prop :=
  ∀ (s : State) (cws : List CommandWord), s.Inv → s.port = cws.map .command →
    ∃ t, Host.Core.run Sys2Proof.core cws.length s = .next t ∧ t.port = [] ∧
      ∃ rs, t.responses = s.responses ++ rs ∧ rs.length = cws.length

/-- R212, R15: a command word that is answered with an error is answered `rw = 0` and leaves every state
element as it was. -/
def Obligations.ErrorsLeaveNoTrace : Prop :=
  ∀ (s t : State) (cw : CommandWord) (rest : List PortEvent) (e : Err) (rw : ResultWord),
    s.port = .command cw :: rest → step s = .next t →
    t.responses = s.responses ++ [⟨.err e, rw⟩] →
    rw = 0 ∧ t = { s with port := rest, responses := s.responses ++ [⟨.err e, 0⟩] }

/-- R221: which command can give which status: no other error than the table's in any state, and each
status of the table in some state that meets the invariant, by a command word that exists. -/
def Obligations.StatusTable : Prop :=
  (∀ (i : Instr) (s t : State) (e : Err) (rw : ResultWord), exec i s = .next t →
    t.responses = s.responses ++ [⟨.err e, rw⟩] → e ∈ mayAnswer i.mnemonic) ∧
  (∀ m : Mnemonic, ∃ (i : Instr) (s t : State) (rw : ResultWord), i.mnemonic = m ∧
    i.wellFormed = true ∧ s.Inv ∧ exec i s = .next t ∧ t.responses = s.responses ++ [⟨.ok, rw⟩]) ∧
  ∀ (m : Mnemonic) (e : Err), e ∈ mayAnswer m → ∃ (i : Instr) (s t : State), i.mnemonic = m ∧
    i.wellFormed = true ∧ s.Inv ∧ exec i s = .next t ∧ t.responses = s.responses ++ [⟨.err e, 0⟩]

/-- R214, R219: an invalid argument is answered ERR_ARG in every phase, with no state change. -/
def Obligations.InvalidArgumentsAreRefused : Prop :=
  (∀ (s : State) (p : Int), p < 0 ∨ p > 255 →
    (∀ b, exec (.encBool b p) s = .next { s with responses := s.responses ++ [⟨.err .arg, 0⟩] }) ∧
    exec (.decBool p) s = .next { s with responses := s.responses ++ [⟨.err .arg, 0⟩] }) ∧
  ∀ (s : State) (n : Int), n < 1 ∨ n > 32 →
    (∀ v, exec (.litPutu n v) s =
      .next { s with responses := s.responses ++ [⟨.err .arg, 0⟩] }) ∧
    (∀ v, exec (.litPuts n v) s =
      .next { s with responses := s.responses ++ [⟨.err .arg, 0⟩] }) ∧
    exec (.litGetu n) s = .next { s with responses := s.responses ++ [⟨.err .arg, 0⟩] } ∧
    exec (.litGets n) s = .next { s with responses := s.responses ++ [⟨.err .arg, 0⟩] }

/-- R216, R219: with a legal argument, a coder command in the phase that cannot serve it is answered
ERR_STATE, before any overflow is looked for; every other command never answers ERR_STATE. -/
def Obligations.WrongPhaseIsRefused : Prop :=
  (∀ s : State, s.enc.phase = .finished →
    (∀ (b : Bool) (p : Int), 0 ≤ p → p ≤ 255 → exec (.encBool b p) s =
      .next { s with responses := s.responses ++ [⟨.err .state, 0⟩] }) ∧
    ∀ n : Int, 1 ≤ n → n ≤ 32 →
      (∀ v, exec (.litPutu n v) s =
        .next { s with responses := s.responses ++ [⟨.err .state, 0⟩] }) ∧
      ∀ v, exec (.litPuts n v) s =
        .next { s with responses := s.responses ++ [⟨.err .state, 0⟩] }) ∧
  (∀ s : State, s.dec.phase = .decoding → ∀ byte, exec (.decWrb byte) s =
    .next { s with responses := s.responses ++ [⟨.err .state, 0⟩] }) ∧
  (∀ s : State, s.dec.phase = .loading →
    (∀ p : Int, 0 ≤ p → p ≤ 255 → exec (.decBool p) s =
      .next { s with responses := s.responses ++ [⟨.err .state, 0⟩] }) ∧
    ∀ n : Int, 1 ≤ n → n ≤ 32 →
      exec (.litGetu n) s = .next { s with responses := s.responses ++ [⟨.err .state, 0⟩] } ∧
      exec (.litGets n) s = .next { s with responses := s.responses ++ [⟨.err .state, 0⟩] }) ∧
  ∀ (i : Instr) (s t : State) (rw : ResultWord), exec i s = .next t →
    t.responses = s.responses ++ [⟨.err .state, rw⟩] →
    i.mnemonic ∈ [Mnemonic.encBool, .litPutu, .litPuts, .decWrb, .decBool, .litGetu, .litGets]

/-! ### System commands -/

/-- R100: `NOP` is the all-zero word and changes nothing; every other word with `op = 0x00` is answered
ERR_ILLEGAL. -/
def Obligations.NopChangesNothing : Prop :=
  decode 0x0000000000000000 = .ok .nop ∧
  (∀ cw : CommandWord, cw.toNat / 2 ^ 56 = 0 → cw ≠ 0 →
    ∀ (s : State) (rest : List PortEvent), s.port = .command cw :: rest →
      step s = .next { s with port := rest, responses := s.responses ++ [⟨.err .illegal, 0⟩] }) ∧
  ∀ s : State, exec .nop s = .next { s with responses := s.responses ++ [⟨.ok, 0⟩] }

/-- R101: `RESET` puts every state element at its reset value, in every phase; its state equals that
of the reset event. -/
def Obligations.ResetCommandRestoresS0 : Prop :=
  decode 0x0100000000000000 = .ok .reset ∧
  ∀ s : State, ∃ t, exec .reset s = .next t ∧ t.AtResetValues ∧
    t.responses = s.responses ++ [⟨.ok, 0⟩] ∧ t.port = s.port ∧ t.cap = s.cap ∧
    ∀ c, step { s with port := .reset c :: s.port } = .next { t with responses := s.responses }

/-! ### The encoder -/

/-- R111: `Split`. R122: its bounds, those of the interval size after the update, and its particular
values. -/
def Obligations.SplitBounds : Prop :=
  (∀ range p : Nat, 1 ≤ range → range ≤ 255 → p ≤ 255 →
    splitAt range p = 1 + ((range - 1) * p) / 2 ^ 8 ∧ (range - 1) * p ≤ 64770) ∧
  (∀ range p : Nat, 2 ≤ range → range ≤ 255 → p ≤ 255 →
    1 ≤ splitAt range p ∧ splitAt range p ≤ range - 1 ∧
    ∀ bit, 1 ≤ intervalAfter range p bit ∧ intervalAfter range p bit ≤ 254) ∧
  (∀ range, splitAt range 0 = 1) ∧ splitAt 255 255 = 254 ∧ splitAt 255 128 = 128 ∧
  splitAt 128 128 = 64 ∧ ∀ range, splitAt range 128 = 1 + (range - 1) / 2

/-- R116: `AddCarry` adds one to the big-endian number held in the first `n` bytes, whenever the sum
still fits them, and touches no other byte. -/
def Obligations.AddCarryAddsOne : Prop :=
  ∀ (cap : Nat) (m : Memory) (n : Nat), m.wf = true → n ≤ cap →
    streamNumber m n + 1 < 256 ^ n →
    ∃ m', addCarry cap m n = .ok m' ∧ streamNumber m' n = streamNumber m n + 1 ∧
      (∀ a, n ≤ a → m'.read a = m.read a) ∧ m'.wf = true

/-- R112: `ENC.INIT` starts a new session in every phase; no byte of EBUF is erased and the decoder
is not touched. -/
def Obligations.EncInitStartsSession : Prop :=
  decode 0x1000000000000000 = .ok .encInit ∧
  ∀ s : State, ∃ e, exec .encInit s =
      .next { s with enc := e, responses := s.responses ++ [⟨.ok, 0⟩] } ∧
    e.range = 255 ∧ e.low = 0 ∧ e.cnt = 0 ∧ e.len = 0 ∧ e.phase = .active ∧
    ∀ a, e.buf.read a = s.enc.buf.read a

/-- R113 with R114, R115, R117 and R118: `ENC.BOOL`. The interval becomes the part the bit selects,
`split` is added to the unbounded accumulator for `true`, and both are doubled until the interval
size is 128 or more; the byte that 8 shifts complete is appended, or the command answers
ERR_OVERFLOW when EBUF is full. -/
def Obligations.EncBoolEffect : Prop :=
  (∀ (b : Bool) (imm : BitVec 32),
    decode (pack ⟨0x11, 0, 0, BitVec.ofBool b, imm⟩) = .ok (.encBool b imm.toInt)) ∧
  ∀ (s : State) (b : Bool) (p : Int), s.Inv → 0 ≤ p → p ≤ 255 → s.enc.phase = .active →
    let r := intervalAfter s.enc.range.toNat p.toNat b
    let k := doublings r
    (s.enc.len + (s.enc.cnt.toNat + k) / 8 ≤ s.cap →
      ∃ e, exec (.encBool b p) s =
          .next { s with enc := e, responses := s.responses ++ [⟨.ok, 0⟩] } ∧
        e.phase = .active ∧ e.range.toNat = r * 2 ^ k ∧ e.shifts = s.enc.shifts + k ∧
        e.lowFull = (s.enc.lowFull + addedToLow s.enc.range.toNat p.toNat b) * 2 ^ k ∧
        e.low.toNat < 2 ^ (8 + e.cnt.toNat) ∧
        ∀ a, e.len ≤ a → e.buf.read a = s.enc.buf.read a) ∧
    (s.cap < s.enc.len + (s.enc.cnt.toNat + k) / 8 →
      exec (.encBool b p) s = .next { s with responses := s.responses ++ [⟨.err .overflow, 0⟩] })

/-- R119: `ENC.FINISH` writes the `8 + E.cnt` significant bits of the working part, most significant
first, and zero bits up to a whole byte; it is idempotent; it answers ERR_OVERFLOW when the bytes do
not all fit. -/
def Obligations.EncFinishEffect : Prop :=
  decode 0x1200000000000000 = .ok .encFinish ∧
  (∀ s : State, s.enc.phase = .finished → exec .encFinish s =
    .next { s with responses := s.responses ++ [⟨.ok, BitVec.ofNat 32 s.enc.len⟩] }) ∧
  ∀ s : State, s.Inv → s.enc.phase = .active →
    let count := if s.enc.cnt = 0 then 1 else 2
    let v := s.enc.low.toNat * 2 ^ (8 - s.enc.cnt.toNat)
    (s.enc.len + count ≤ s.cap →
      ∃ buf, exec .encFinish s = .next { s with
          enc := { s.enc with buf := buf, len := s.enc.len + count, phase := .finished },
          responses := s.responses ++ [⟨.ok, BitVec.ofNat 32 (s.enc.len + count)⟩] } ∧
        (s.enc.cnt = 0 → (buf.read s.enc.len).toNat = s.enc.low.toNat % 256) ∧
        (s.enc.cnt ≠ 0 → (buf.read s.enc.len).toNat = v / 256 ∧
          (buf.read (s.enc.len + 1)).toNat = v % 256) ∧
        ∀ a, a < s.enc.len ∨ s.enc.len + count ≤ a → buf.read a = s.enc.buf.read a) ∧
    (s.cap < s.enc.len + count →
      exec .encFinish s = .next { s with responses := s.responses ++ [⟨.err .overflow, 0⟩] })

/-- R123: `ENC.LEN` returns `E.len`. R125, R217: `ENC.RDB` returns one byte of the live stream,
zero-extended, and refuses every other index. Neither writes anything. -/
def Obligations.EncoderReads : Prop :=
  decode 0x1300000000000000 = .ok .encLen ∧
  (∀ s : State, exec .encLen s =
    .next { s with responses := s.responses ++ [⟨.ok, BitVec.ofNat 32 s.enc.len⟩] }) ∧
  (∀ imm : BitVec 32, decode (pack ⟨0x14, 0, 0, 0, imm⟩) = .ok (.encRdb imm.toNat)) ∧
  (∀ (s : State) (idx : Nat), s.enc.len ≤ idx → exec (.encRdb idx) s =
    .next { s with responses := s.responses ++ [⟨.err .range, 0⟩] }) ∧
  ∀ (s : State) (idx : Nat), s.Inv → idx < s.enc.len → exec (.encRdb idx) s =
    .next { s with responses := s.responses ++ [⟨.ok, (s.enc.buf.read idx).setWidth 32⟩] }

/-- R57: after ENC.FINISH nothing in the encoder changes until ENC.INIT or RESET. -/
def Obligations.FinishedStreamIsFinal : Prop :=
  ∀ (i : Instr) (s t : State), exec i s = .next t → s.enc.phase = .finished →
    i ≠ .encInit → i ≠ .reset → t.enc = s.enc

/-- R57, R120: while the encoder is ACTIVE, one command other than ENC.INIT and RESET leaves the
number in the bytes already emitted as it is or adds one to it. -/
def Obligations.EmittedBytesChangeByOneCarry : Prop :=
  ∀ (i : Instr) (s t : State), s.Inv → s.enc.phase = .active → exec i s = .next t →
    i ≠ .encInit → i ≠ .reset →
    s.enc.len ≤ t.enc.len ∧
    (streamNumber t.enc.buf s.enc.len = streamNumber s.enc.buf s.enc.len ∨
     streamNumber t.enc.buf s.enc.len = streamNumber s.enc.buf s.enc.len + 1)

/-- R121 with R85 and R87: after any decisions from a fresh session, the registers are those of the
source's unbounded algorithm, and ENC.FINISH leaves exactly the stream that R85 defines. -/
def Obligations.EncoderEqualsUnboundedCoder : Prop :=
  ∀ (s t : State) (ds : List (Bool × Nat)), s.Inv → (∀ d ∈ ds, d.2 ≤ 255) →
    execOk (.encInit :: ds.map fun d => .encBool d.1 d.2) s = some t →
    let u := UnboundedCoder.session ds
    t.enc.range.toNat = u.range ∧ t.enc.lowFull = u.low ∧ t.enc.shifts = u.shifts ∧
    ∀ w, execOk [.encFinish] t = some w →
      w.enc.len = u.streamLength ∧ ∀ a, a < w.enc.len → w.enc.buf.read a = u.streamByte a

/-! ### The decoder -/

/-- R131: `DEC.CLR` empties the input buffer in every phase; no byte of DBUF is erased. -/
def Obligations.DecClrEmptiesBuffer : Prop :=
  decode 0x2000000000000000 = .ok .decClr ∧
  ∀ s : State, ∃ d, exec .decClr s =
      .next { s with dec := d, responses := s.responses ++ [⟨.ok, 0⟩] } ∧
    d.len = 0 ∧ d.pos = 0 ∧ d.range = 255 ∧ d.value = 0 ∧ d.bc = 0 ∧ d.phase = .loading ∧
    ∀ a, d.buf.read a = s.dec.buf.read a

/-- R132: `DEC.WRB` appends one byte in phase LOADING, refuses in phase DECODING and when DBUF is
full, in this order. -/
def Obligations.DecWrbAppendsByte : Prop :=
  (∀ byte : Byte, decode (pack ⟨0x21, 0, 0, 0, byte.setWidth 32⟩) = .ok (.decWrb byte)) ∧
  (∀ (s : State) (byte : Byte), s.dec.phase = .decoding → exec (.decWrb byte) s =
    .next { s with responses := s.responses ++ [⟨.err .state, 0⟩] }) ∧
  (∀ (s : State) (byte : Byte), s.dec.phase = .loading → s.dec.len = s.cap →
    exec (.decWrb byte) s = .next { s with responses := s.responses ++ [⟨.err .overflow, 0⟩] }) ∧
  ∀ (s : State) (byte : Byte), s.Inv → s.dec.phase = .loading → s.dec.len < s.cap →
    ∃ buf, exec (.decWrb byte) s = .next { s with
        dec := { s.dec with buf := buf, len := s.dec.len + 1 },
        responses := s.responses ++ [⟨.ok, 0⟩] } ∧
      buf.read s.dec.len = byte ∧ ∀ a, a ≠ s.dec.len → buf.read a = s.dec.buf.read a

/-- R133: `DEC.LDENC` copies the live stream, and equals DEC.CLR followed by one DEC.WRB for each
stream byte. -/
def Obligations.DecLdencCopiesStream : Prop :=
  decode 0x2400000000000000 = .ok .decLdenc ∧
  ∀ s : State, s.Inv →
    ∃ d, exec .decLdenc s = .next { s with
        dec := d, responses := s.responses ++ [⟨.ok, BitVec.ofNat 32 s.enc.len⟩] } ∧
      d.len = s.enc.len ∧ d.pos = 0 ∧ d.range = 255 ∧ d.value = 0 ∧ d.bc = 0 ∧
      d.phase = .loading ∧ (∀ a, a < s.enc.len → d.buf.read a = s.enc.buf.read a) ∧
      (∀ a, s.enc.len ≤ a → d.buf.read a = s.dec.buf.read a) ∧
      ∃ u, execOk (.decClr :: (List.range s.enc.len).map fun a => .decWrb (s.enc.buf.read a)) s =
        some u ∧ u.dec = d

/-- R134: `DEC.INIT` starts decoding from the first byte, in every phase; a byte past the end is 0. -/
def Obligations.DecInitLoadsWindow : Prop :=
  decode 0x2200000000000000 = .ok .decInit ∧
  ∀ s : State, s.Inv →
    ∃ d, exec .decInit s = .next { s with dec := d, responses := s.responses ++ [⟨.ok, 0⟩] } ∧
      d.range = 255 ∧ d.bc = 0 ∧ d.phase = .decoding ∧ d.len = s.dec.len ∧ d.buf = s.dec.buf ∧
      d.pos = min 2 s.dec.len ∧
      d.value.toNat = (if 0 < s.dec.len then (s.dec.buf.read 0).toNat else 0) * 256 +
        (if 1 < s.dec.len then (s.dec.buf.read 1).toNat else 0)

/-- R135 with R136, R137 and R138: `DEC.BOOL`. The bit is the comparison of the window with
`split * 256`; the interval and the window are updated and doubled until the interval size is 128 or
more, the window keeping 16 bits; the eighth shift fetches the next byte, 0 past the end. -/
def Obligations.DecBoolEffect : Prop :=
  (∀ imm : BitVec 32, decode (pack ⟨0x23, 0, 0, 0, imm⟩) = .ok (.decBool imm.toInt)) ∧
  ∀ (s : State) (p : Int), s.Inv → 0 ≤ p → p ≤ 255 → s.dec.phase = .decoding →
    let big := (1 + (s.dec.range.toNat - 1) * p.toNat / 256) * 256
    let bit := decide (big ≤ s.dec.value.toNat)
    let r := intervalAfter s.dec.range.toNat p.toNat bit
    let k := doublings r
    let left := s.dec.value.toNat - (if bit then big else 0)
    let fetched := if s.dec.pos < s.dec.len then (s.dec.buf.read s.dec.pos).toNat else 0
    let turn := s.dec.bc.toNat + k
    ∃ d, exec (.decBool p) s =
        .next { s with dec := d, responses := s.responses ++ [bitResponse bit] } ∧
      d.phase = .decoding ∧ d.len = s.dec.len ∧ d.buf = s.dec.buf ∧
      d.range.toNat = r * 2 ^ k ∧ d.bc.toNat = turn % 8 ∧
      d.pos = (if 8 ≤ turn ∧ s.dec.pos < s.dec.len then s.dec.pos + 1 else s.dec.pos) ∧
      d.value.toNat =
        (left * 2 ^ k + (if 8 ≤ turn then fetched * 2 ^ (turn - 8) else 0)) % 2 ^ 16

/-- R143: the bit-serial decoder returns the same bits as the register form, for every loaded stream
and every list of probabilities, and its window, interval size and shift count are those of the
registers throughout. -/
def Obligations.DecoderEqualsBitSerialForm : Prop :=
  ∀ (s t : State) (ps : List Nat), s.Inv → (∀ p ∈ ps, p ≤ 255) →
    execOk (.decInit :: ps.map fun p => .decBool p) s = some t →
    let serial := SerialDecoder.decodeAll s.dec (SerialDecoder.start s.dec) ps
    t.responses = s.responses ++ ⟨.ok, 0⟩ :: serial.1.map bitResponse ∧
    serial.2.window = t.dec.value.toNat / 256 ∧ serial.2.range = t.dec.range.toNat ∧
    t.dec.bc.toNat = (serial.2.index - 8) % 8

/-- R141: the mirror property. Decisions encoded from a fresh context, finished, copied and decoded
under the same probabilities come back, and at each decision `D.range` is what `E.range` was. -/
def Obligations.MirrorRoundTrip : Prop :=
  ∀ (s t : State) (ds : List (Bool × Nat)), s.Inv → (∀ d ∈ ds, d.2 ≤ 255) →
    execOk ((.encInit :: ds.map fun d => .encBool d.1 d.2) ++ [.encFinish, .decLdenc, .decInit]) s =
      some t →
    (∃ u, execOk (ds.map fun d => .decBool d.2) t = some u ∧
      u.responses = t.responses ++ ds.map fun d => bitResponse d.1) ∧
    ∀ n, n ≤ ds.length → ∀ a b : State,
      execOk (.encInit :: (ds.take n).map fun d => .encBool d.1 d.2) s = some a →
      execOk ((ds.take n).map fun d => .decBool d.2) t = some b → b.dec.range = a.enc.range

/-- R252, R119: bytes after the end of a finished stream, and missing bytes that were 0x00, do not
disturb the encoded decisions: any loaded buffer that reads like the stream at the stream's indexes
decodes to them. -/
def Obligations.TrailingBytesAreHarmless : Prop :=
  ∀ (s t u : State) (ds : List (Bool × Nat)), s.Inv → u.Inv → (∀ d ∈ ds, d.2 ≤ 255) →
    execOk ((.encInit :: ds.map fun d => .encBool d.1 d.2) ++ [.encFinish]) s = some t →
    (∀ a, a < t.enc.len →
      (if a < u.dec.len then u.dec.buf.read a else 0) = t.enc.buf.read a) →
    ∃ w, execOk (.decInit :: ds.map fun d => .decBool d.2) u = some w ∧
      w.responses = u.responses ++ ⟨.ok, 0⟩ :: ds.map fun d => bitResponse d.1

/-! ### The literal codec -/

/-- R151 with R150, R156 and R159: `LIT.PUTU n, v` leaves the encoder as the `n` decisions
`v[n-1], ..., v[0]` at probability 128 do, or, when their bytes do not fit, answers ERR_OVERFLOW with
none of them made. -/
def Obligations.LitPutuEffect : Prop :=
  (∀ (nf : BitVec 8) (imm : BitVec 32),
    decode (pack ⟨0x30, nf, 0, 0, imm⟩) = .ok (.litPutu nf.toInt imm.toNat)) ∧
  ∀ (s : State) (n : Int) (v : Nat), s.Inv → 1 ≤ n → n ≤ 32 → s.enc.phase = .active →
    let k := literalShifts s.enc.range.toNat (v.testBit (n.toNat - 1)) n.toNat
    (s.enc.len + (s.enc.cnt.toNat + k) / 8 ≤ s.cap →
      ∃ e t, exec (.litPutu n v) s =
          .next { s with enc := e, responses := s.responses ++ [⟨.ok, 0⟩] } ∧
        e.shifts = s.enc.shifts + k ∧
        execOk ((bitsDown v n.toNat).map fun b => .encBool b 128) s = some t ∧ t.enc = e) ∧
    (s.cap < s.enc.len + (s.enc.cnt.toNat + k) / 8 → exec (.litPutu n v) s =
      .next { s with responses := s.responses ++ [⟨.err .overflow, 0⟩] })

/-- R152 with R150, R156 and R159: `LIT.PUTS n, v` codes the sign, then the low `n-1` bits of the
exact absolute value, or, when their bytes do not fit, answers ERR_OVERFLOW with no decision made. -/
def Obligations.LitPutsEffect : Prop :=
  (∀ (nf : BitVec 8) (imm : BitVec 32),
    decode (pack ⟨0x31, nf, 0, 0, imm⟩) = .ok (.litPuts nf.toInt imm.toInt)) ∧
  ∀ (s : State) (n : Int) (v : Int), s.Inv → 1 ≤ n → n ≤ 32 → s.enc.phase = .active →
    let k := literalShifts s.enc.range.toNat (decide (v < 0)) n.toNat
    (s.enc.len + (s.enc.cnt.toNat + k) / 8 ≤ s.cap →
      ∃ e t, exec (.litPuts n v) s =
          .next { s with enc := e, responses := s.responses ++ [⟨.ok, 0⟩] } ∧
        e.shifts = s.enc.shifts + k ∧
        execOk ((decide (v < 0) :: bitsDown v.natAbs (n.toNat - 1)).map fun b => .encBool b 128) s =
          some t ∧ t.enc = e) ∧
    (s.cap < s.enc.len + (s.enc.cnt.toNat + k) / 8 → exec (.litPuts n v) s =
      .next { s with responses := s.responses ++ [⟨.err .overflow, 0⟩] })

/-- R153: `LIT.GETU n` returns the `n` bits that `n` times DEC.BOOL 128 would return, most
significant first, and leaves the decoder as they do. -/
def Obligations.LitGetuEffect : Prop :=
  (∀ nf : BitVec 8, decode (pack ⟨0x32, nf, 0, 0, 0⟩) = .ok (.litGetu nf.toInt)) ∧
  ∀ (s : State) (n : Int), s.Inv → 1 ≤ n → n ≤ 32 → s.dec.phase = .decoding →
    ∃ d v t, exec (.litGetu n) s = .next { s with
        dec := d, responses := s.responses ++ [⟨.ok, BitVec.ofNat 32 v⟩] } ∧
      v < 2 ^ n.toNat ∧
      execOk (List.replicate n.toNat (.decBool 128)) s = some t ∧ t.dec = d ∧
      t.responses = s.responses ++ (bitsDown v n.toNat).map bitResponse

/-- R154 and R157: `LIT.GETS n` returns the value whose sign is the first of `n` decisions at
probability 128 and whose magnitude is the others; a magnitude of 0 is 0 whatever the sign. -/
def Obligations.LitGetsEffect : Prop :=
  (∀ nf : BitVec 8, decode (pack ⟨0x33, nf, 0, 0, 0⟩) = .ok (.litGets nf.toInt)) ∧
  ∀ (s : State) (n : Int), s.Inv → 1 ≤ n → n ≤ 32 → s.dec.phase = .decoding →
    ∃ d neg m t rw, exec (.litGets n) s = .next { s with
        dec := d, responses := s.responses ++ [⟨.ok, rw⟩] } ∧
      m < 2 ^ (n.toNat - 1) ∧ rw = BitVec.ofInt 32 (if neg then -(m : Int) else m) ∧
      (m = 0 → rw = 0) ∧
      execOk (List.replicate n.toNat (.decBool 128)) s = some t ∧ t.dec = d ∧
      t.responses = s.responses ++ (neg :: bitsDown m (n.toNat - 1)).map bitResponse

/-- R158, in sessions that mix decisions and literals (R150): every item coded comes back where the
decoder replays the schema. -/
def Obligations.SchemaRoundTrip : Prop :=
  ∀ (s t : State) (items : List Item), s.Inv → (∀ x ∈ items, x.legal = true) →
    execOk ((.encInit :: items.map Item.put) ++ [.encFinish, .decLdenc, .decInit]) s = some t →
    ∃ u, execOk (items.map Item.get) t = some u ∧
      u.responses = t.responses ++ items.map Item.answer

/-! ### The block transforms -/

/-- R172, R217: `BLK.WR` writes one element and refuses an index outside 0 to 15. -/
def Obligations.BlkWrWritesOneElement : Prop :=
  (∀ (nf : BitVec 8) (imm : BitVec 32),
    decode (pack ⟨0x40, nf, 0, 0, imm⟩) = .ok (.blkWr nf.toInt imm.toInt)) ∧
  (∀ (s : State) (n v : Int), n < 0 ∨ n > 15 → exec (.blkWr n v) s =
    .next { s with responses := s.responses ++ [⟨.err .range, 0⟩] }) ∧
  ∀ (s : State) (n v : Int), 0 ≤ n → n ≤ 15 →
    ∃ blk, exec (.blkWr n v) s =
        .next { s with blk := blk, responses := s.responses ++ [⟨.ok, 0⟩] } ∧
      blk.get n.toNat = BitVec.ofInt 32 v ∧
      ∀ j, j < 16 → j ≠ n.toNat → blk.get j = s.blk.get j

/-- R173, R174, R217: `BLK.RD` and `SCR.RD` return one element, write nothing, and refuse an index
outside 0 to 15. -/
def Obligations.ElementReads : Prop :=
  (∀ nf : BitVec 8, decode (pack ⟨0x41, nf, 0, 0, 0⟩) = .ok (.blkRd nf.toInt)) ∧
  (∀ nf : BitVec 8, decode (pack ⟨0x42, nf, 0, 0, 0⟩) = .ok (.scrRd nf.toInt)) ∧
  (∀ (s : State) (n : Int), n < 0 ∨ n > 15 →
    exec (.blkRd n) s = .next { s with responses := s.responses ++ [⟨.err .range, 0⟩] } ∧
    exec (.scrRd n) s = .next { s with responses := s.responses ++ [⟨.err .range, 0⟩] }) ∧
  ∀ (s : State) (n : Int), 0 ≤ n → n ≤ 15 →
    exec (.blkRd n) s =
      .next { s with responses := s.responses ++ [⟨.ok, s.blk.get n.toNat⟩] } ∧
    exec (.scrRd n) s =
      .next { s with responses := s.responses ++ [⟨.ok, s.scr.get n.toNat⟩] }

/-- R178, R179 with R176 and R177: the Walsh-Hadamard transforms, element by element; nothing but
`BLK` and `SCR` changes. -/
def Obligations.WalshHadamardEffect : Prop :=
  decode 0x4300000000000000 = .ok .xfmWht ∧ decode 0x4400000000000000 = .ok .xfmIwht ∧
  ∀ s : State,
    (∃ blk scr, exec .xfmWht s =
        .next { s with blk := blk, scr := scr, responses := s.responses ++ [⟨.ok, 0⟩] } ∧
      IsRowPass (fun a b c d => a + b + c + d) (fun a b c d => a + b - c - d)
        (fun a b c d => a - b - c + d) (fun a b c d => a - b + c - d) s.blk scr ∧
      IsColumnPass (fun a b c d => (a + b + c + d + 1) / 2) (fun a b c d => (a + b - c - d + 1) / 2)
        (fun a b c d => (a - b - c + d + 1) / 2) (fun a b c d => (a - b + c - d + 1) / 2) scr blk) ∧
    ∃ blk scr, exec .xfmIwht s =
        .next { s with blk := blk, scr := scr, responses := s.responses ++ [⟨.ok, 0⟩] } ∧
      IsRowPass (fun a b c d => a + b + c + d) (fun a b c d => a + b - c - d)
        (fun a b c d => a - b - c + d) (fun a b c d => a - b + c - d) s.blk scr ∧
      IsColumnPass (fun a b c d => (a + b + c + d + 4) / 8) (fun a b c d => (a + b - c - d + 4) / 8)
        (fun a b c d => (a - b - c + d + 4) / 8) (fun a b c d => (a - b + c - d + 4) / 8) scr blk

/-- R181 with R177 and R180: the forward cosine transform, element by element. -/
def Obligations.DctEffect : Prop :=
  decode 0x4500000000000000 = .ok .xfmDct ∧
  ∀ s : State, ∃ blk scr, exec .xfmDct s =
      .next { s with blk := blk, scr := scr, responses := s.responses ++ [⟨.ok, 0⟩] } ∧
    IsRowPass (fun a b c d => 8 * (a + b + c + d))
      (fun a b c d => (8 * (b - c) * 2217 + 8 * (a - d) * 5352 + 2048) / 4096)
      (fun a b c d => 8 * (a - b - c + d))
      (fun a b c d => (8 * (a - d) * 2217 - 8 * (b - c) * 5352 + 2048) / 4096) s.blk scr ∧
    IsColumnPass (fun a b c d => (a + b + c + d + 8) / 16)
      (fun a b c d => ((b - c) * 2217 + (a - d) * 5352 + 32768) / 65536)
      (fun a b c d => (a - b - c + d + 8) / 16)
      (fun a b c d => ((a - d) * 2217 - (b - c) * 5352 + 32768) / 65536) scr blk

/-- The two odd terms of `Idct4` (R182), each product shifted separately. -/
def Obligations.IdctEffect : Prop :=
  let odd1 : Int → Int → Int := fun b d => b * 35468 / 65536 - (d + d * 20091 / 65536)
  let odd2 : Int → Int → Int := fun b d => b + b * 20091 / 65536 + d * 35468 / 65536
  decode 0x4600000000000000 = .ok .xfmIdct ∧
  ∀ s : State, ∃ blk scr, exec .xfmIdct s =
      .next { s with blk := blk, scr := scr, responses := s.responses ++ [⟨.ok, 0⟩] } ∧
    IsRowPass (fun a b c d => a + c + odd2 b d) (fun a b c d => a - c + odd1 b d)
      (fun a b c d => a - c - odd1 b d) (fun a b c d => a + c - odd2 b d) s.blk scr ∧
    IsColumnPass (fun a b c d => (a + c + odd2 b d + 4) / 8) (fun a b c d => (a - c + odd1 b d + 4) / 8)
      (fun a b c d => (a - c - odd1 b d + 4) / 8) (fun a b c d => (a + c - odd2 b d + 4) / 8) scr blk

/-- R184: `XFM.DCT0` returns `(S + 1) >> 1`, reduced to 32 bits, and writes neither `BLK` nor `SCR`;
where no row sum wraps when XFM.DCT stores it, it is exactly what XFM.DCT leaves in `BLK[0]`. -/
def Obligations.Dct0IsTheDcCoefficient : Prop :=
  decode 0x4700000000000000 = .ok .xfmDct0 ∧
  (∀ s : State, exec .xfmDct0 s = .next { s with
    responses := s.responses ++ [⟨.ok, BitVec.ofInt 32 ((elementSum s.blk + 1) / 2)⟩] }) ∧
  ∀ s t : State, (∀ r, r < 4 → -2 ^ 31 ≤ 8 * rowSum s.blk r ∧ 8 * rowSum s.blk r < 2 ^ 31) →
    exec .xfmDct s = .next t → exec .xfmDct0 s = .next { s with responses := s.responses ++ [⟨.ok, t.blk.get 0⟩] }

/-- R185 (the WHT pair): the round trip is exact in positions 1 to 15, and in position 0 it is exact
for an even sum and one too high for an odd sum. -/
def Obligations.WhtRoundTripExact : Prop :=
  ∀ s t u : State, s.blk.Within (2 ^ 20) → exec .xfmWht s = .next t → exec .xfmIwht t = .next u →
    (∀ i, 1 ≤ i → i < 16 → u.blk.get i = s.blk.get i) ∧
    (u.blk.get 0).toInt = (s.blk.get 0).toInt + elementSum s.blk % 2

/-- R185 (the DCT pair): for elements in [-1000, 1000] the round trip is within 2 in every
position. -/
def Obligations.DctRoundTripWithinTwo : Prop :=
  ∀ s t u : State, s.blk.Within 1000 → exec .xfmDct s = .next t → exec .xfmIdct t = .next u →
    ∀ i, i < 16 → -2 ≤ (u.blk.get i).toInt - (s.blk.get i).toInt ∧
      (u.blk.get i).toInt - (s.blk.get i).toInt ≤ 2

/-- R177, R248, R37: the old contents of `SCR` influence nothing but what SCR.RD returns: every other
command does the same from a state with another `SCR`, and the four full transforms leave the same
`SCR`. -/
def Obligations.ScratchNeverMatters : Prop :=
  ∀ (i : Instr) (s t : State) (scr : Block), exec i s = .next t → (∀ n, i ≠ .scrRd n) →
    ∃ t', exec i { s with scr := scr } = .next t' ∧ { t' with scr := t.scr } = t ∧
      (i ∈ [.xfmWht, .xfmIwht, .xfmDct, .xfmIdct] → t' = t)

/-! ### The colour converter -/

/-- R202 with R201: `CSC.RGB2YUV`. -/
def Obligations.Rgb2YuvEffect : Prop :=
  (∀ imm : BitVec 32, decode (pack ⟨0x50, 0, 0, 0, imm⟩) = .ok (.cscRgb2yuv imm)) ∧
  ∀ (s : State) (imm : BitVec 32),
    let r : Int := imm.toNat / 65536 % 256
    let g : Int := imm.toNat / 256 % 256
    let b : Int := imm.toNat % 256
    let y := max 0 (min 255 ((77 * r + 150 * g + 29 * b + 128) / 256))
    let u := max 0 (min 255 ((-43 * r - 85 * g + 128 * b + 128) / 256 + 128))
    let v := max 0 (min 255 ((128 * r - 107 * g - 21 * b + 128) / 256 + 128))
    exec (.cscRgb2yuv imm) s = .next { s with
      responses := s.responses ++ [⟨.ok, BitVec.ofInt 32 (y * 65536 + u * 256 + v)⟩] }

/-- R203 with R201: `CSC.YUV2RGB`. -/
def Obligations.Yuv2RgbEffect : Prop :=
  (∀ imm : BitVec 32, decode (pack ⟨0x51, 0, 0, 0, imm⟩) = .ok (.cscYuv2rgb imm)) ∧
  ∀ (s : State) (imm : BitVec 32),
    let y : Int := imm.toNat / 65536 % 256
    let d : Int := imm.toNat / 256 % 256 - 128
    let e : Int := imm.toNat % 256 - 128
    let r := max 0 (min 255 (y + (359 * e + 128) / 256))
    let g := max 0 (min 255 (y - (88 * d + 183 * e + 128) / 256))
    let b := max 0 (min 255 (y + (454 * d + 128) / 256))
    exec (.cscYuv2rgb imm) s = .next { s with
      responses := s.responses ++ [⟨.ok, BitVec.ofInt 32 (r * 65536 + g * 256 + b)⟩] }

/-- R204: RGB to YUV and back differs by at most 2 (R), 1 (G) and 2 (B), so by at most 4, and each of
the three is reached. -/
def Obligations.ColourRoundTripBound : Prop :=
  (∀ (s : State) (rgb back : ResultWord), ColourRoundTrip s rgb back →
    channelError rgb back 65536 ≤ 2 ∧ channelError rgb back 256 ≤ 1 ∧ channelError rgb back 1 ≤ 2) ∧
  ∀ s : State, ∃ a a' b b' c c' : ResultWord,
    ColourRoundTrip s a a' ∧ channelError a a' 65536 = 2 ∧
    ColourRoundTrip s b b' ∧ channelError b b' 256 = 1 ∧
    ColourRoundTrip s c c' ∧ channelError c c' 1 = 2

/-! ### Independence -/

/-- R232, R38, R200: the units do not interact. What an encoder command (LIT.PUTU and LIT.PUTS among
them) does is the same whatever the decoder and the block registers hold, and leaves them as they are;
likewise the decoder's commands but for DEC.LDENC, the block commands, and the commands of CSC and
NOP against everything. -/
def Obligations.UnitsAreIndependent : Prop :=
  ∀ (i : Instr) (s t : State), exec i s = .next t →
    (i.mnemonic ∈ [Mnemonic.encInit, .encBool, .encFinish, .encLen, .encRdb, .litPutu, .litPuts] →
      t.dec = s.dec ∧ t.blk = s.blk ∧ t.scr = s.scr ∧
      ∀ d b c, exec i { s with dec := d, blk := b, scr := c } =
        .next { t with dec := d, blk := b, scr := c }) ∧
    (i.mnemonic ∈ [Mnemonic.decClr, .decWrb, .decInit, .decBool, .litGetu, .litGets] →
      t.enc = s.enc ∧ t.blk = s.blk ∧ t.scr = s.scr ∧
      ∀ e b c, exec i { s with enc := e, blk := b, scr := c } =
        .next { t with enc := e, blk := b, scr := c }) ∧
    (i.mnemonic ∈ [Mnemonic.blkWr, .blkRd, .scrRd, .xfmWht, .xfmIwht, .xfmDct, .xfmIdct, .xfmDct0] →
      t.enc = s.enc ∧ t.dec = s.dec ∧
      ∀ e d, exec i { s with enc := e, dec := d } = .next { t with enc := e, dec := d }) ∧
    (i.mnemonic ∈ [Mnemonic.nop, .cscRgb2yuv, .cscYuv2rgb] →
      t.enc = s.enc ∧ t.dec = s.dec ∧ t.blk = s.blk ∧ t.scr = s.scr ∧
      ∀ e d b c, exec i { s with enc := e, dec := d, blk := b, scr := c } =
        .next { t with enc := e, dec := d, blk := b, scr := c })

/-- R41: bytes at or above the live lengths influence nothing: from two states that differ only there,
every step leads to two such states, with the same responses. -/
def Obligations.DeadBytesAreUnobservable : Prop :=
  ∀ s t s' : State, s.Inv → t.Inv → s.SameLive t → step s = .next s' →
    ∃ t', step t = .next t' ∧ s'.SameLive t' ∧ t'.responses = s'.responses
end

