-- ==== Sys2Proof/Laws/State.lean ====
section
/-! SUPPORT. One lemma for each field of each update of the state, true by unfolding the record, and the
lemmas of the operations that only replace one field. -/

namespace Sys2Proof.Machine

@[simp] theorem State.setEnc_enc (s : State) (e : EncContext) : (s.setEnc e).enc = e := rfl
@[simp] theorem State.setEnc_dec (s : State) (e : EncContext) : (s.setEnc e).dec = s.dec := rfl
@[simp] theorem State.setEnc_blk (s : State) (e : EncContext) : (s.setEnc e).blk = s.blk := rfl
@[simp] theorem State.setEnc_scr (s : State) (e : EncContext) : (s.setEnc e).scr = s.scr := rfl
@[simp] theorem State.setEnc_cap (s : State) (e : EncContext) : (s.setEnc e).cap = s.cap := rfl
@[simp] theorem State.setEnc_port (s : State) (e : EncContext) : (s.setEnc e).port = s.port := rfl
@[simp] theorem State.setEnc_responses (s : State) (e : EncContext) : (s.setEnc e).responses = s.responses := rfl

@[simp] theorem State.setDec_enc (s : State) (d : DecContext) : (s.setDec d).enc = s.enc := rfl
@[simp] theorem State.setDec_dec (s : State) (d : DecContext) : (s.setDec d).dec = d := rfl
@[simp] theorem State.setDec_blk (s : State) (d : DecContext) : (s.setDec d).blk = s.blk := rfl
@[simp] theorem State.setDec_scr (s : State) (d : DecContext) : (s.setDec d).scr = s.scr := rfl
@[simp] theorem State.setDec_cap (s : State) (d : DecContext) : (s.setDec d).cap = s.cap := rfl
@[simp] theorem State.setDec_port (s : State) (d : DecContext) : (s.setDec d).port = s.port := rfl
@[simp] theorem State.setDec_responses (s : State) (d : DecContext) : (s.setDec d).responses = s.responses := rfl

@[simp] theorem State.setBlk_enc (s : State) (b : Block) : (s.setBlk b).enc = s.enc := rfl
@[simp] theorem State.setBlk_dec (s : State) (b : Block) : (s.setBlk b).dec = s.dec := rfl
@[simp] theorem State.setBlk_blk (s : State) (b : Block) : (s.setBlk b).blk = b := rfl
@[simp] theorem State.setBlk_scr (s : State) (b : Block) : (s.setBlk b).scr = s.scr := rfl
@[simp] theorem State.setBlk_cap (s : State) (b : Block) : (s.setBlk b).cap = s.cap := rfl
@[simp] theorem State.setBlk_port (s : State) (b : Block) : (s.setBlk b).port = s.port := rfl
@[simp] theorem State.setBlk_responses (s : State) (b : Block) : (s.setBlk b).responses = s.responses := rfl

@[simp] theorem State.setScr_enc (s : State) (b : Block) : (s.setScr b).enc = s.enc := rfl
@[simp] theorem State.setScr_dec (s : State) (b : Block) : (s.setScr b).dec = s.dec := rfl
@[simp] theorem State.setScr_blk (s : State) (b : Block) : (s.setScr b).blk = s.blk := rfl
@[simp] theorem State.setScr_scr (s : State) (b : Block) : (s.setScr b).scr = b := rfl
@[simp] theorem State.setScr_cap (s : State) (b : Block) : (s.setScr b).cap = s.cap := rfl
@[simp] theorem State.setScr_port (s : State) (b : Block) : (s.setScr b).port = s.port := rfl
@[simp] theorem State.setScr_responses (s : State) (b : Block) : (s.setScr b).responses = s.responses := rfl

@[simp] theorem State.setPort_enc (s : State) (p : List PortEvent) : (s.setPort p).enc = s.enc := rfl
@[simp] theorem State.setPort_dec (s : State) (p : List PortEvent) : (s.setPort p).dec = s.dec := rfl
@[simp] theorem State.setPort_blk (s : State) (p : List PortEvent) : (s.setPort p).blk = s.blk := rfl
@[simp] theorem State.setPort_scr (s : State) (p : List PortEvent) : (s.setPort p).scr = s.scr := rfl
@[simp] theorem State.setPort_cap (s : State) (p : List PortEvent) : (s.setPort p).cap = s.cap := rfl
@[simp] theorem State.setPort_port (s : State) (p : List PortEvent) : (s.setPort p).port = p := rfl
@[simp] theorem State.setPort_responses (s : State) (p : List PortEvent) : (s.setPort p).responses = s.responses := rfl

@[simp] theorem State.respond_enc (s : State) (st : Status) (rw : ResultWord) :
    (s.respond st rw).enc = s.enc := rfl
@[simp] theorem State.respond_dec (s : State) (st : Status) (rw : ResultWord) :
    (s.respond st rw).dec = s.dec := rfl
@[simp] theorem State.respond_blk (s : State) (st : Status) (rw : ResultWord) :
    (s.respond st rw).blk = s.blk := rfl
@[simp] theorem State.respond_scr (s : State) (st : Status) (rw : ResultWord) :
    (s.respond st rw).scr = s.scr := rfl
@[simp] theorem State.respond_cap (s : State) (st : Status) (rw : ResultWord) :
    (s.respond st rw).cap = s.cap := rfl
@[simp] theorem State.respond_port (s : State) (st : Status) (rw : ResultWord) :
    (s.respond st rw).port = s.port := rfl
@[simp] theorem State.respond_responses (s : State) (st : Status) (rw : ResultWord) :
    (s.respond st rw).responses = s.responses ++ [⟨st, rw⟩] := rfl

@[simp] theorem State.restart_enc (s : State) : s.restart.enc = s.enc.fresh := rfl
@[simp] theorem State.restart_dec (s : State) : s.restart.dec = s.dec.loaded 0 := rfl
@[simp] theorem State.restart_blk (s : State) : s.restart.blk = Block.zero := rfl
@[simp] theorem State.restart_scr (s : State) : s.restart.scr = Block.zero := rfl
@[simp] theorem State.restart_cap (s : State) : s.restart.cap = s.cap := rfl
@[simp] theorem State.restart_port (s : State) : s.restart.port = s.port := rfl
@[simp] theorem State.restart_responses (s : State) : s.restart.responses = s.responses := rfl

@[simp] theorem EncContext.fresh_range (e : EncContext) : e.fresh.range = 255 := rfl
@[simp] theorem EncContext.fresh_low (e : EncContext) : e.fresh.low = 0 := rfl
@[simp] theorem EncContext.fresh_cnt (e : EncContext) : e.fresh.cnt = 0 := rfl
@[simp] theorem EncContext.fresh_len (e : EncContext) : e.fresh.len = 0 := rfl
@[simp] theorem EncContext.fresh_phase (e : EncContext) : e.fresh.phase = .active := rfl
@[simp] theorem EncContext.fresh_buf (e : EncContext) : e.fresh.buf = e.buf := rfl

@[simp] theorem DecContext.loaded_range (d : DecContext) (n : Nat) : (d.loaded n).range = 255 := rfl
@[simp] theorem DecContext.loaded_value (d : DecContext) (n : Nat) : (d.loaded n).value = 0 := rfl
@[simp] theorem DecContext.loaded_bc (d : DecContext) (n : Nat) : (d.loaded n).bc = 0 := rfl
@[simp] theorem DecContext.loaded_pos (d : DecContext) (n : Nat) : (d.loaded n).pos = 0 := rfl
@[simp] theorem DecContext.loaded_len (d : DecContext) (n : Nat) : (d.loaded n).len = n := rfl
@[simp] theorem DecContext.loaded_phase (d : DecContext) (n : Nat) : (d.loaded n).phase = .loading := rfl
@[simp] theorem DecContext.loaded_buf (d : DecContext) (n : Nat) : (d.loaded n).buf = d.buf := rfl

@[simp] theorem twoPass_enc (f1 f2 : Quad Int → Quad Int) (q : Int → Int) (s : State) :
    (twoPass f1 f2 q s).enc = s.enc := rfl
@[simp] theorem twoPass_dec (f1 f2 : Quad Int → Quad Int) (q : Int → Int) (s : State) :
    (twoPass f1 f2 q s).dec = s.dec := rfl
@[simp] theorem twoPass_blk (f1 f2 : Quad Int → Quad Int) (q : Int → Int) (s : State) :
    (twoPass f1 f2 q s).blk = columnPass f2 q (rowPass f1 s.blk) := rfl
@[simp] theorem twoPass_scr (f1 f2 : Quad Int → Quad Int) (q : Int → Int) (s : State) :
    (twoPass f1 f2 q s).scr = rowPass f1 s.blk := rfl
@[simp] theorem twoPass_cap (f1 f2 : Quad Int → Quad Int) (q : Int → Int) (s : State) :
    (twoPass f1 f2 q s).cap = s.cap := rfl
@[simp] theorem twoPass_port (f1 f2 : Quad Int → Quad Int) (q : Int → Int) (s : State) :
    (twoPass f1 f2 q s).port = s.port := rfl
@[simp] theorem twoPass_responses (f1 f2 : Quad Int → Quad Int) (q : Int → Int) (s : State) :
    (twoPass f1 f2 q s).responses = s.responses := rfl

/-- R241: the state after reset is `S0` with the default capacity. -/
theorem reset_eq : State.reset = State.resetWith Config.defaultCap := rfl

/-- The stream memories of the state after reset are in canonical form, for every capacity. -/
theorem resetWith_buffers_ok (cap : Nat) :
    (State.resetWith cap).enc.buf.Ok cap ∧ (State.resetWith cap).dec.buf.Ok cap :=
  ⟨⟨rfl, rfl⟩, rfl, rfl⟩

end Sys2Proof.Machine
end

