-- ==== Sys2Proof/Laws/Memory.lean ====
section
/-! SUPPORT. The stream memories: read after write, a write leaves every other byte alone, every
operation keeps the canonical form, and what the one-byte accesses and the copy can do. -/

namespace Sys2Proof.Machine

@[simp] theorem Memory.read_nil (a : Nat) : Memory.read [] a = unlistedByte := rfl

theorem Memory.read_cons (b a : Nat) (w : Byte) (m : Memory) :
    Memory.read ((b, w) :: m) a = if a = b then w else Memory.read m a := rfl

theorem Memory.risingFrom_cons (lo a : Nat) (v : Byte) (m : Memory) :
    Memory.risingFrom lo ((a, v) :: m) = true ↔
      lo ≤ a ∧ v ≠ unlistedByte ∧ Memory.risingFrom (a + 1) m = true := by
  simp [Memory.risingFrom, and_assoc]

theorem Memory.risingFrom_mono {lo lo' : Nat} {m : Memory} (h : lo' ≤ lo)
    (hm : m.risingFrom lo = true) : m.risingFrom lo' = true := by
  cases m with
  | nil => rfl
  | cons c m =>
    obtain ⟨a, v⟩ := c
    rw [risingFrom_cons] at hm ⊢
    exact ⟨by omega, hm.2⟩

/-- An address below the lowest listed one reads as an unlisted address. -/
theorem Memory.read_of_lt {m : Memory} : ∀ {lo a : Nat}, m.risingFrom lo = true → a < lo →
    m.read a = unlistedByte := by
  induction m with
  | nil => intros; rfl
  | cons c m ih =>
    obtain ⟨b, w⟩ := c
    intro lo a hm ha
    rw [risingFrom_cons] at hm
    rw [read_cons, if_neg (by omega)]
    exact ih hm.2.2 (by omega)

/-- A write leaves every other byte alone. -/
theorem Memory.read_write_ne {m : Memory} {a b : Nat} (v : Byte) (h : b ≠ a) :
    (m.write a v).read b = m.read b := by
  induction m with
  | nil => unfold write; split <;> simp [read_cons, h]
  | cons c m ih =>
    obtain ⟨d, w⟩ := c
    unfold write
    split
    · split <;> simp [read_cons, h]
    · split
      · subst_vars
        split <;> simp [read_cons, h]
      · rw [read_cons, read_cons, ih]

/-- A read after a write to the same address gives the byte written. -/
theorem Memory.read_write_same_from {m : Memory} (a : Nat) (v : Byte) :
    ∀ {lo : Nat}, m.risingFrom lo = true → (m.write a v).read a = v := by
  induction m with
  | nil => intro lo _; unfold write; split <;> simp_all [read_cons]
  | cons c m ih =>
    obtain ⟨d, w⟩ := c
    intro lo hm
    have hm' := (risingFrom_cons _ _ _ _).1 hm
    unfold write
    split
    · split
      · subst_vars
        rw [read_cons, if_neg (by omega)]
        exact read_of_lt hm'.2.2 (by omega)
      · simp [read_cons]
    · split
      · subst_vars
        split
        · subst_vars
          exact read_of_lt hm'.2.2 (by omega)
        · simp [read_cons]
      · rw [read_cons, if_neg (by omega)]
        exact ih hm'.2.2

theorem Memory.read_write_same {m : Memory} (hm : m.wf = true) (a : Nat) (v : Byte) :
    (m.write a v).read a = v := read_write_same_from a v hm

theorem Memory.read_write {m : Memory} (hm : m.wf = true) (a b : Nat) (v : Byte) :
    (m.write a v).read b = if b = a then v else m.read b := by
  split
  · subst_vars; exact read_write_same hm _ v
  · exact read_write_ne v ‹_›

theorem Memory.write_risingFrom {m : Memory} (a : Nat) (v : Byte) :
    ∀ {lo : Nat}, m.risingFrom lo = true → lo ≤ a → (m.write a v).risingFrom lo = true := by
  induction m with
  | nil =>
    intro lo _ ha
    unfold write
    split
    · rfl
    · rw [risingFrom_cons]; exact ⟨ha, ‹_›, rfl⟩
  | cons c m ih =>
    obtain ⟨d, w⟩ := c
    intro lo hm ha
    have hm' := (risingFrom_cons _ _ _ _).1 hm
    unfold write
    split
    · split
      · exact hm
      · rw [risingFrom_cons, risingFrom_cons]
        exact ⟨ha, ‹_›, by omega, hm'.2⟩
    · split
      · subst_vars
        split
        · exact risingFrom_mono (by omega) hm'.2.2
        · rw [risingFrom_cons]; exact ⟨ha, ‹_›, hm'.2.2⟩
      · rw [risingFrom_cons]
        exact ⟨hm'.1, hm'.2.1, ih hm'.2.2 (by omega)⟩

/-- A write keeps the canonical form. -/
theorem Memory.write_wf {m : Memory} (hm : m.wf = true) (a : Nat) (v : Byte) :
    (m.write a v).wf = true := write_risingFrom a v hm (Nat.zero_le a)

theorem Memory.below_cons (cap a : Nat) (v : Byte) (m : Memory) :
    Memory.below cap ((a, v) :: m) = true ↔ a < cap ∧ Memory.below cap m = true := by
  simp [Memory.below]

/-- A write below `cap` keeps every listed address below `cap`. -/
theorem Memory.write_below {cap : Nat} {m : Memory} (hm : m.below cap = true) {a : Nat}
    (ha : a < cap) (v : Byte) : (m.write a v).below cap = true := by
  induction m with
  | nil =>
    unfold write
    split
    · rfl
    · exact (below_cons _ _ _ _).2 ⟨ha, rfl⟩
  | cons c m ih =>
    obtain ⟨d, w⟩ := c
    have hm' := (below_cons _ _ _ _).1 hm
    unfold write
    split
    · split
      · exact hm
      · exact (below_cons _ _ _ _).2 ⟨ha, hm⟩
    · split
      · split
        · exact hm'.2
        · exact (below_cons _ _ _ _).2 ⟨ha, hm'.2⟩
      · exact (below_cons _ _ _ _).2 ⟨hm'.1, ih hm'.2⟩

theorem Memory.write_ok {cap : Nat} {m : Memory} (hm : m.Ok cap) {a : Nat} (ha : a < cap) (v : Byte) :
    (m.write a v).Ok cap := ⟨write_wf hm.1 a v, write_below hm.2 ha v⟩

/-- What a one-byte read can do. -/
theorem load_eq_ok {cap : Nat} {m : Memory} {a : Nat} {v : Byte} :
    load cap m a = .ok v ↔ a < cap ∧ v = m.read a := by
  unfold load
  split <;> simp_all [eq_comm]

/-- What a one-byte write can do. -/
theorem store_eq_ok {cap : Nat} {m m' : Memory} {a : Nat} {v : Byte} :
    store cap m a v = .ok m' ↔ a < cap ∧ m' = m.write a v := by
  unfold store
  split <;> simp_all [eq_comm]

theorem load_of_lt {cap a : Nat} (m : Memory) (h : a < cap) : load cap m a = .ok (m.read a) :=
  load_eq_ok.2 ⟨h, rfl⟩

theorem store_of_lt {cap a : Nat} (m : Memory) (v : Byte) (h : a < cap) :
    store cap m a v = .ok (m.write a v) := store_eq_ok.2 ⟨h, rfl⟩

/-- A one-byte write keeps the canonical form. -/
theorem store_keeps_ok {cap : Nat} {m m' : Memory} {a : Nat} {v : Byte} (hm : m.Ok cap)
    (h : store cap m a v = .ok m') : m'.Ok cap := by
  obtain ⟨ha, rfl⟩ := store_eq_ok.1 h
  exact Memory.write_ok hm ha v

/-- A bind that answers was given an answer. -/
theorem bind_eq_ok {ε α β : Type} {x : Except ε α} {f : α → Except ε β} {b : β} :
    (x >>= f) = .ok b ↔ ∃ a, x = .ok a ∧ f a = .ok b := by
  cases x with
  | error e => constructor <;> intro h <;> simp_all [bind, Except.bind]
  | ok a => simp [bind, Except.bind]

@[simp] theorem ok_bind {ε α β : Type} (a : α) (f : α → Except ε β) :
    ((Except.ok a : Except ε α) >>= f) = f a := rfl

@[simp] theorem error_bind {ε α β : Type} (e : ε) (f : α → Except ε β) :
    ((Except.error e : Except ε α) >>= f) = .error e := rfl

/-- What the copy of `n` bytes does: it answers, for `n` up to the capacity, with the source's first
`n` bytes, the destination's other bytes, and the canonical form. -/
theorem copyBytes_spec {cap : Nat} (src : Memory) {dst : Memory} (hd : dst.Ok cap) :
    ∀ {n : Nat}, n ≤ cap → ∃ m, copyBytes cap src dst n = .ok m ∧ m.Ok cap ∧
      (∀ a, a < n → m.read a = src.read a) ∧ ∀ a, n ≤ a → m.read a = dst.read a := by
  intro n
  induction n with
  | zero => exact fun _ => ⟨dst, rfl, hd, by intro a h; omega, fun _ _ => rfl⟩
  | succ n ih =>
    intro hn
    obtain ⟨m, h1, h2, h3, h4⟩ := ih (by omega)
    refine ⟨m.write n (src.read n), ?_, Memory.write_ok h2 (by omega) _, ?_, ?_⟩
    · simp [copyBytes, h1, load_of_lt src (show n < cap by omega),
        store_of_lt m (src.read n) (show n < cap by omega)]
    · intro a ha
      rw [Memory.read_write h2.1]
      split
      · subst_vars; rfl
      · exact h3 a (by omega)
    · intro a ha
      rw [Memory.read_write_ne _ (by omega)]
      exact h4 a (by omega)

/-- The big-endian number of the first `n` bytes depends on those bytes only. -/
theorem streamNumber_congr {m m' : Memory} : ∀ {n : Nat}, m.AgreeBelow n m' →
    streamNumber m n = streamNumber m' n := by
  intro n
  induction n with
  | zero => intro _; rfl
  | succ n ih =>
    intro h
    simp only [streamNumber]
    rw [ih fun a ha => h a (by omega), h n (by omega)]

/-- The big-endian number of `n` bytes is below `256^n`. -/
theorem streamNumber_lt (m : Memory) (n : Nat) : streamNumber m n < 256 ^ n := by
  induction n with
  | zero => simp [streamNumber]
  | succ n ih =>
    have := (m.read n).isLt
    simp only [streamNumber, pow_succ]
    omega

end Sys2Proof.Machine
end

