-- ==== Sys2Proof/Laws/Operands.lean ====
section
/-! SUPPORT. The argument and phase checks, the answer to a command, and the elements of a block. -/

namespace Sys2Proof.Machine

@[simp] theorem checkProbability_eq_ok {p : Int} :
    checkProbability p = .ok () ↔ 0 ≤ p ∧ p ≤ 255 := by
  unfold checkProbability; split <;> simp <;> omega

@[simp] theorem checkNumBits_eq_ok {n : Int} : checkNumBits n = .ok () ↔ 1 ≤ n ∧ n ≤ 32 := by
  unfold checkNumBits; split <;> simp <;> omega

@[simp] theorem checkElement_eq_ok {n : Int} : checkElement n = .ok () ↔ 0 ≤ n ∧ n ≤ 15 := by
  unfold checkElement; split <;> simp <;> omega

@[simp] theorem checkActive_eq_ok {e : EncContext} : checkActive e = .ok () ↔ e.phase = .active := by
  unfold checkActive; split <;> simp_all

@[simp] theorem checkLoading_eq_ok {d : DecContext} : checkLoading d = .ok () ↔ d.phase = .loading := by
  unfold checkLoading; split <;> simp_all

@[simp] theorem checkDecoding_eq_ok {d : DecContext} :
    checkDecoding d = .ok () ↔ d.phase = .decoding := by
  unfold checkDecoding; split <;> simp_all

@[simp] theorem complete_ok (s s' : State) (v : Int) :
    complete s (.ok (s', v)) = .next (s'.respond .ok (u32 v)) := rfl

@[simp] theorem complete_raise (s : State) (e : Err) :
    complete s (.error (.raise e)) = .next (s.respond (.err e) 0) := rfl

@[simp] theorem complete_fault (s : State) (f : Fault) :
    complete s (.error (.fault f)) = .fault f := rfl

/-- Everything an answered command can do (R15, R212): its result from the state it made, or an error
from the state as it was. -/
theorem complete_eq_next {s t : State} {r : Except Stop (State × Int)} :
    complete s r = .next t ↔
      (∃ s' v, r = .ok (s', v) ∧ t = s'.respond .ok (u32 v)) ∨
      ∃ e, r = .error (.raise e) ∧ t = s.respond (.err e) 0 := by
  match r with
  | .ok (s', v) => simp [eq_comm]
  | .error (.raise e) => simp [eq_comm]
  | .error (.fault f) => simp

/-- A command never ends in a refusal. -/
theorem complete_ne_refused (s : State) (r : Except Stop (State × Int)) (f : Refusal) :
    complete s r ≠ .refused f := by
  match r with
  | .ok (s', v) => simp
  | .error (.raise e) => simp
  | .error (.fault f) => simp

/-- The element just written reads back. -/
theorem Block.get_set_same (b : Block) {i : Nat} (hi : i < 16) (v : Element) :
    (b.set i v).get i = v := by
  interval_cases i <;> rfl

/-- A write of one element leaves the others alone. -/
theorem Block.get_set_ne (b : Block) {i j : Nat} (hi : i < 16) (hj : j < 16) (h : j ≠ i)
    (v : Element) : (b.set i v).get j = b.get j := by
  interval_cases i <;> interval_cases j <;> first | rfl | exact absurd rfl h

theorem Block.zero_get {i : Nat} (hi : i < 16) : Block.zero.get i = 0 := by
  interval_cases i <;> rfl

end Sys2Proof.Machine
end

