-- ==== Sys2Proof/Laws/Coder.lean ====
section
/-! SUPPORT. What the shared helpers of the boolean coder can do when they answer: the inversion of
each, and the frame of the encoder's and of the decoder's context. -/

namespace Sys2Proof.Machine

theorem narrowLow_eq_ok {v : Nat} {w : BitVec 16} :
    narrowLow v = .ok w ↔ v < 2 ^ 16 ∧ w = BitVec.ofNat 16 v := by
  unfold narrowLow
  split <;> simp_all [eq_comm]

/-- What `AddCarry` does when it answers (R116): the first `n` bytes hold a number one higher, the
other bytes are as before, and the memory is in canonical form. -/
theorem addCarry_spec {cap : Nat} : ∀ {n : Nat} {m m' : Memory}, m.Ok cap →
    addCarry cap m n = .ok m' →
    m'.Ok cap ∧ (∀ a, n ≤ a → m'.read a = m.read a) ∧
      streamNumber m' n = streamNumber m n + 1 := by
  intro n
  induction n with
  | zero => intro m m' _ h; cases h
  | succ n ih =>
    intro m m' hm h
    obtain ⟨v, hv, h⟩ := bind_eq_ok.1 h
    obtain ⟨hn, rfl⟩ := load_eq_ok.1 hv
    split at h
    · next hff =>
      obtain ⟨m1, h1, h⟩ := bind_eq_ok.1 h
      obtain ⟨_, rfl⟩ := store_eq_ok.1 h1
      obtain ⟨ok, keep, num⟩ := ih (Memory.write_ok hm hn _) h
      refine ⟨ok, fun a ha => ?_, ?_⟩
      · rw [keep a (by omega), Memory.read_write_ne _ (by omega)]
      · have low : streamNumber (m.write n 0x00) n = streamNumber m n :=
          streamNumber_congr fun a ha => Memory.read_write_ne _ (by omega)
        have h0 : (m'.read n).toNat = 0 := by
          rw [keep n le_rfl, Memory.read_write_same hm.1]; rfl
        have h1 : (m.read n).toNat = 255 := by rw [hff]; rfl
        simp only [streamNumber, num, low, h0, h1]
        omega
    · next hff =>
      obtain ⟨_, rfl⟩ := store_eq_ok.1 h
      refine ⟨Memory.write_ok hm hn _, fun a ha => Memory.read_write_ne _ (by omega), ?_⟩
      have low : streamNumber (m.write n (m.read n + 1)) n = streamNumber m n :=
        streamNumber_congr fun a ha => Memory.read_write_ne _ (by omega)
      have h1 : (m.read n + 1).toNat = (m.read n).toNat + 1 := by
        have h255 : (m.read n).toNat ≠ 255 := fun h => hff (BitVec.eq_of_toNat_eq h)
        have := (m.read n).isLt
        rw [BitVec.toNat_add]
        simp only [BitVec.reduceToNat]
        omega
      simp only [streamNumber, low, Memory.read_write_same hm.1, h1]
      omega

/-- What encoding decisions keeps: the phase, the bytes beyond the stream, the canonical form of EBUF;
the stream only grows, within the capacity. -/
structure EncFrame (cap : Nat) (e e' : EncContext) : Prop where
  phase : e'.phase = e.phase
  len_le : e.len ≤ e'.len
  len_le_cap : e.len ≤ cap → e'.len ≤ cap
  buf_ok : e.buf.Ok cap → e'.buf.Ok cap
  beyond : e.buf.Ok cap → ∀ a, e'.len ≤ a → e'.buf.read a = e.buf.read a

theorem EncFrame.refl (cap : Nat) (e : EncContext) : EncFrame cap e e :=
  ⟨rfl, le_rfl, id, id, fun _ _ _ => rfl⟩

theorem EncFrame.trans {cap : Nat} {e e' e'' : EncContext} (h : EncFrame cap e e')
    (h' : EncFrame cap e' e'') : EncFrame cap e e'' where
  phase := h'.phase.trans h.phase
  len_le := h.len_le.trans h'.len_le
  len_le_cap := h'.len_le_cap ∘ h.len_le_cap
  buf_ok := h'.buf_ok ∘ h.buf_ok
  beyond hm a ha := by
    rw [h'.beyond (h.buf_ok hm) a ha, h.beyond hm a (h'.len_le.trans ha)]

/-- What the interval update can do (R115): the false part, the true part without a carry, or the true
part with one. -/
theorem encUpdate_cases {cap : Nat} {bit : Bool} {p : Nat} {e e' : EncContext}
    (h : encUpdate cap bit p e = .ok e') :
    let sp := splitAt e.range.toNat p
    let sum := e.low.toNat + sp
    let top := 2 ^ (8 + e.cnt.toNat)
    (bit = false ∧ e' = { e with range := BitVec.ofNat 8 sp }) ∨
    (bit = true ∧ sum < top ∧ sum < 2 ^ 16 ∧
      e' = { e with range := BitVec.ofNat 8 (e.range.toNat - sp), low := BitVec.ofNat 16 sum }) ∨
    (bit = true ∧ top ≤ sum ∧ sum - top < 2 ^ 16 ∧ ∃ buf, addCarry cap e.buf e.len = .ok buf ∧
      e' = { e with range := BitVec.ofNat 8 (e.range.toNat - sp),
                    low := BitVec.ofNat 16 (sum - top), buf := buf }) := by
  intro sp sum top
  cases bit with
  | false => left; exact ⟨rfl, (Except.ok.inj h).symm⟩
  | true =>
    right
    simp only [encUpdate, if_true] at h
    split at h
    · next hge =>
      right
      obtain ⟨low, h1, h⟩ := bind_eq_ok.1 h
      obtain ⟨hlt, rfl⟩ := narrowLow_eq_ok.1 h1
      obtain ⟨buf, h2, h⟩ := bind_eq_ok.1 h
      exact ⟨rfl, hge, hlt, buf, h2, (Except.ok.inj h).symm⟩
    · next hlt =>
      left
      obtain ⟨low, h1, h⟩ := bind_eq_ok.1 h
      obtain ⟨hlt', rfl⟩ := narrowLow_eq_ok.1 h1
      exact ⟨rfl, Nat.lt_of_not_le hlt, hlt', (Except.ok.inj h).symm⟩

theorem encUpdate_frame {cap : Nat} {bit : Bool} {p : Nat} {e e' : EncContext}
    (h : encUpdate cap bit p e = .ok e') : EncFrame cap e e' := by
  obtain ⟨_, rfl⟩ | ⟨_, _, _, rfl⟩ | ⟨_, _, _, buf, hc, rfl⟩ := encUpdate_cases h
  · exact ⟨rfl, le_rfl, id, id, fun _ _ _ => rfl⟩
  · exact ⟨rfl, le_rfl, id, id, fun _ _ _ => rfl⟩
  · exact ⟨rfl, le_rfl, id, fun hm => (addCarry_spec hm hc).1, fun hm => (addCarry_spec hm hc).2.1⟩

/-- What one turn of the renormalisation loop can do (R117, R118): shift, or shift and append a
byte. -/
theorem encShift_cases {cap : Nat} {e e' : EncContext} (h : encShift cap e = .ok e') :
    let low := e.low.toNat * 2
    let range := BitVec.ofNat 8 (e.range.toNat * 2)
    low < 2 ^ 16 ∧
    ((e.cnt ≠ 7 ∧ e' = { e with range := range, low := BitVec.ofNat 16 low, cnt := e.cnt + 1 }) ∨
     (e.cnt = 7 ∧ e.len ≠ cap ∧ e.len < cap ∧
      e' = { e with range := range, low := BitVec.ofNat 16 (low % 256), cnt := 0, len := e.len + 1,
                    buf := e.buf.write e.len (highByte low) })) := by
  intro low range
  obtain ⟨w, h1, h⟩ := bind_eq_ok.1 h
  obtain ⟨hlt, rfl⟩ := narrowLow_eq_ok.1 h1
  have hw : (BitVec.ofNat 16 (e.low.toNat * 2)).toNat = low := by
    rw [BitVec.toNat_ofNat, Nat.mod_eq_of_lt hlt]
  simp only [hw] at h
  refine ⟨hlt, ?_⟩
  split at h
  · next h7 =>
    right
    split at h
    · cases h
    · next hcap =>
      obtain ⟨buf, h2, h⟩ := bind_eq_ok.1 h
      obtain ⟨hlen, rfl⟩ := store_eq_ok.1 h2
      exact ⟨h7, hcap, hlen, (Except.ok.inj h).symm⟩
  · next h7 => exact .inl ⟨h7, (Except.ok.inj h).symm⟩

theorem encShift_frame {cap : Nat} {e e' : EncContext} (h : encShift cap e = .ok e') :
    EncFrame cap e e' := by
  obtain ⟨_, ⟨_, rfl⟩ | ⟨_, _, hlen, rfl⟩⟩ := encShift_cases h
  · exact ⟨rfl, le_rfl, id, id, fun _ _ _ => rfl⟩
  · exact ⟨rfl, Nat.le_succ _, fun _ => hlen, fun hm => Memory.write_ok hm hlen _,
      fun _ a ha => Memory.read_write_ne _ (by simp only at ha; omega)⟩

theorem encRenorm_frame {cap : Nat} : ∀ {n : Nat} {e e' : EncContext},
    encRenorm cap n e = .ok e' → EncFrame cap e e' := by
  intro n
  induction n with
  | zero =>
    intro e e' h
    unfold encRenorm at h
    split at h
    · cases h
    · cases h; exact .refl _ _
  | succ n ih =>
    intro e e' h
    unfold encRenorm at h
    split at h
    · obtain ⟨e1, h1, h⟩ := bind_eq_ok.1 h
      exact (encShift_frame h1).trans (ih h)
    · cases h; exact .refl _ _

/-- What `EncBool` can do (R114): the interval update and the renormalisation, in this order. -/
theorem encodeBool_eq_ok {cap : Nat} {bit : Bool} {p : Nat} {e e' : EncContext} :
    encodeBool cap bit p e = .ok e' ↔ e.range ≠ 0 ∧
      ∃ e1, encUpdate cap bit p e = .ok e1 ∧ encRenorm cap 7 e1 = .ok e' := by
  unfold encodeBool
  split
  · simp_all
  · simp_all [bind_eq_ok]

theorem encodeBool_frame {cap : Nat} {bit : Bool} {p : Nat} {e e' : EncContext}
    (h : encodeBool cap bit p e = .ok e') : EncFrame cap e e' := by
  obtain ⟨_, e1, h1, h2⟩ := encodeBool_eq_ok.1 h
  exact (encUpdate_frame h1).trans (encRenorm_frame h2)

theorem putBits_frame {cap v : Nat} : ∀ {n : Nat} {e e' : EncContext},
    putBits cap v n e = .ok e' → EncFrame cap e e' := by
  intro n
  induction n with
  | zero => intro e e' h; cases h; exact .refl _ _
  | succ n ih =>
    intro e e' h
    obtain ⟨e1, h1, h⟩ := bind_eq_ok.1 h
    exact (encodeBool_frame h1).trans (ih h)

/-- What the flush can do (R119): one byte, or two. -/
theorem encFlush_cases {cap : Nat} {e e' : EncContext} (h : encFlush cap e = .ok e') :
    let v := e.low.toNat * 2 ^ (8 - e.cnt.toNat)
    (e.cnt = 0 ∧ e.len + 1 ≤ cap ∧
      e' = { e with buf := e.buf.write e.len (lowByte e.low.toNat), len := e.len + 1,
                    phase := .finished }) ∨
    (e.cnt ≠ 0 ∧ e.len + 2 ≤ cap ∧ v < 2 ^ 16 ∧
      e' = { e with buf := (e.buf.write e.len (highByte v)).write (e.len + 1) (lowByte v),
                    len := e.len + 2, phase := .finished }) := by
  intro v
  unfold encFlush at h
  split at h
  · next h0 =>
    left
    split at h
    · cases h
    · next hcap =>
      obtain ⟨buf, h1, h⟩ := bind_eq_ok.1 h
      obtain ⟨_, rfl⟩ := store_eq_ok.1 h1
      exact ⟨h0, by omega, (Except.ok.inj h).symm⟩
  · next h0 =>
    right
    split at h
    · cases h
    · next hcap =>
      obtain ⟨w, h1, h⟩ := bind_eq_ok.1 h
      obtain ⟨hlt, rfl⟩ := narrowLow_eq_ok.1 h1
      have hw : (BitVec.ofNat 16 (e.low.toNat * 2 ^ (8 - e.cnt.toNat))).toNat = v := by
        rw [BitVec.toNat_ofNat, Nat.mod_eq_of_lt hlt]
      obtain ⟨b1, h2, h⟩ := bind_eq_ok.1 h
      obtain ⟨_, rfl⟩ := store_eq_ok.1 h2
      obtain ⟨b2, h3, h⟩ := bind_eq_ok.1 h
      obtain ⟨_, rfl⟩ := store_eq_ok.1 h3
      simp only [hw] at h
      exact ⟨h0, by omega, hlt, (Except.ok.inj h).symm⟩

/-- What decoding decisions keeps: the phase, the length and the loaded bytes; the cursor only
advances and stays within the stream. -/
structure DecFrame (d d' : DecContext) : Prop where
  phase : d'.phase = d.phase
  len : d'.len = d.len
  buf : d'.buf = d.buf
  pos_le : d.pos ≤ d'.pos
  pos_le_len : d.pos ≤ d.len → d'.pos ≤ d'.len

theorem DecFrame.refl (d : DecContext) : DecFrame d d := ⟨rfl, rfl, rfl, le_rfl, id⟩

theorem DecFrame.trans {d d' d'' : DecContext} (h : DecFrame d d') (h' : DecFrame d' d'') :
    DecFrame d d'' :=
  ⟨h'.phase.trans h.phase, h'.len.trans h.len, h'.buf.trans h.buf, h.pos_le.trans h'.pos_le,
    h'.pos_le_len ∘ h.pos_le_len⟩

/-- What `NextByte` can do (R136): the byte at the cursor, or 0 past the end. -/
theorem nextByte_cases {cap : Nat} {d d' : DecContext} {v : Byte}
    (h : nextByte cap d = .ok (v, d')) :
    (d.pos < d.len ∧ d.pos < cap ∧ v = d.buf.read d.pos ∧ d' = { d with pos := d.pos + 1 }) ∨
    (d.len ≤ d.pos ∧ v = 0 ∧ d' = d) := by
  unfold nextByte at h
  split at h
  · next hlt =>
    obtain ⟨w, h1, h⟩ := bind_eq_ok.1 h
    obtain ⟨hc, rfl⟩ := load_eq_ok.1 h1
    cases h
    exact .inl ⟨hlt, hc, rfl, rfl⟩
  · next hge =>
    cases h
    exact .inr ⟨by omega, rfl, rfl⟩

theorem nextByte_frame {cap : Nat} {d d' : DecContext} {v : Byte}
    (h : nextByte cap d = .ok (v, d')) : DecFrame d d' := by
  obtain ⟨hlt, _, _, rfl⟩ | ⟨_, _, rfl⟩ := nextByte_cases h
  · exact ⟨rfl, rfl, rfl, Nat.le_succ _, fun _ => hlt⟩
  · exact .refl _

/-- What one turn of the decoder's loop can do (R138): shift, or shift and fetch. -/
theorem decShift_cases {cap : Nat} {d d' : DecContext} (h : decShift cap d = .ok d') :
    let range := BitVec.ofNat 8 (d.range.toNat * 2)
    let value := BitVec.ofNat 16 (d.value.toNat * 2)
    (d.bc ≠ 7 ∧ d' = { d with range := range, value := value, bc := d.bc + 1 }) ∨
    (d.bc = 7 ∧ ∃ v d1, nextByte cap d = .ok (v, d1) ∧
      d' = { d1 with range := range, bc := 0, value := value ||| v.setWidth 16 }) := by
  intro range value
  unfold decShift at h
  simp only at h
  split at h
  · next h7 =>
    obtain ⟨⟨v, d1⟩, h1, h⟩ := bind_eq_ok.1 h
    exact .inr ⟨h7, v, d1, h1, (Except.ok.inj h).symm⟩
  · next h7 => exact .inl ⟨h7, (Except.ok.inj h).symm⟩

theorem decShift_frame {cap : Nat} {d d' : DecContext} (h : decShift cap d = .ok d') :
    DecFrame d d' := by
  obtain ⟨_, rfl⟩ | ⟨_, v, d1, h1, rfl⟩ := decShift_cases h
  · exact ⟨rfl, rfl, rfl, le_rfl, id⟩
  · exact (nextByte_frame h1).trans ⟨rfl, rfl, rfl, le_rfl, id⟩

theorem decRenorm_frame {cap : Nat} : ∀ {n : Nat} {d d' : DecContext},
    decRenorm cap n d = .ok d' → DecFrame d d' := by
  intro n
  induction n with
  | zero =>
    intro d d' h
    unfold decRenorm at h
    split at h
    · cases h
    · cases h; exact .refl _
  | succ n ih =>
    intro d d' h
    unfold decRenorm at h
    split at h
    · obtain ⟨d1, h1, h⟩ := bind_eq_ok.1 h
      exact (decShift_frame h1).trans (ih h)
    · cases h; exact .refl _

theorem decUpdate_frame (p : Nat) (d : DecContext) : DecFrame d (decUpdate p d).2 := by
  unfold decUpdate
  simp only
  split <;> exact ⟨rfl, rfl, rfl, le_rfl, id⟩

/-- What `DecBool` can do (R137): the bit and the interval update, then the renormalisation. -/
theorem decodeBool_eq_ok {cap p : Nat} {bit : Bool} {d d' : DecContext} :
    decodeBool cap p d = .ok (bit, d') ↔ d.range ≠ 0 ∧ bit = (decUpdate p d).1 ∧
      decRenorm cap 7 (decUpdate p d).2 = .ok d' := by
  unfold decodeBool
  split
  · simp_all
  · simp only [bind_eq_ok, Except.ok.injEq, Prod.mk.injEq, ne_eq, ‹¬d.range = 0›,
      not_false_eq_true, true_and]
    constructor
    · rintro ⟨d1, h1, rfl, rfl⟩; exact ⟨rfl, h1⟩
    · rintro ⟨rfl, h1⟩; exact ⟨d', h1, rfl, rfl⟩

theorem decodeBool_frame {cap p : Nat} {bit : Bool} {d d' : DecContext}
    (h : decodeBool cap p d = .ok (bit, d')) : DecFrame d d' := by
  obtain ⟨_, _, h2⟩ := decodeBool_eq_ok.1 h
  exact (decUpdate_frame p d).trans (decRenorm_frame h2)

theorem getBits_frame {cap : Nat} : ∀ {n v w : Nat} {d d' : DecContext},
    getBits cap n v d = .ok (w, d') → DecFrame d d' := by
  intro n
  induction n with
  | zero => intro v w d d' h; cases h; exact .refl _
  | succ n ih =>
    intro v w d d' h
    obtain ⟨⟨bit, d1⟩, h1, h⟩ := bind_eq_ok.1 h
    exact (decodeBool_frame h1).trans (ih h)

/-- What the start of a decode session does (R134) when it answers. -/
theorem decStart_spec {cap : Nat} {d d' : DecContext} (h : decStart cap d = .ok d') :
    d'.range = 255 ∧ d'.bc = 0 ∧ d'.phase = .decoding ∧ d'.len = d.len ∧ d'.buf = d.buf ∧
      d'.pos = min 2 d.len ∧
      d'.value = (if 0 < d.len then d.buf.read 0 else 0) ++
        (if 1 < d.len then d.buf.read 1 else (0 : Byte)) := by
  obtain ⟨⟨hi, d1⟩, h1, h⟩ := bind_eq_ok.1 h
  obtain ⟨⟨lo, d2⟩, h2, h⟩ := bind_eq_ok.1 h
  cases h
  obtain ⟨a1, _, rfl, rfl⟩ | ⟨a1, rfl, rfl⟩ := nextByte_cases h1
  · obtain ⟨a2, _, rfl, rfl⟩ | ⟨a2, rfl, rfl⟩ := nextByte_cases h2
    · simp only at a1 a2
      exact ⟨rfl, rfl, rfl, rfl, rfl, by simp only; omega,
        by simp only [if_pos a1, if_pos (show 1 < d.len from a2)]⟩
    · simp only at a1 a2
      exact ⟨rfl, rfl, rfl, rfl, rfl, by simp only; omega,
        by simp only [if_pos a1, if_neg (show ¬1 < d.len by omega)]⟩
  · obtain ⟨a2, _, rfl, rfl⟩ | ⟨a2, rfl, rfl⟩ := nextByte_cases h2
    · simp only at a1 a2
      omega
    · simp only at a1 a2
      exact ⟨rfl, rfl, rfl, rfl, rfl, by simp only; omega,
        by simp only [if_neg (show ¬0 < d.len by omega), if_neg (show ¬1 < d.len by omega)]⟩

end Sys2Proof.Machine
end

