-- ==== Sys2Proof/Laws/Decode.lean ====
section
/-! SUPPORT. The fields of a command word: packing and unpacking undo each other, and the mask of a row
acts field by field. -/

namespace Sys2Proof

@[simp] theorem unpack_pack (f : CommandFields) : unpack (pack f) = f := by
  obtain ⟨op, nf, rsv, b, imm⟩ := f
  simp only [unpack, pack, CommandFields.mk.injEq]
  refine ⟨?_, ?_, ?_, ?_, ?_⟩
  · exact BitVec.extractLsb'_append_eq_left (b := nf ++ (rsv ++ (b ++ imm)))
  · exact (BitVec.extractLsb'_append_eq_of_add_le (by omega)).trans
      BitVec.extractLsb'_append_eq_left
  · exact (BitVec.extractLsb'_append_eq_of_add_le (by omega)).trans
      ((BitVec.extractLsb'_append_eq_of_add_le (by omega)).trans BitVec.extractLsb'_append_eq_left)
  · exact (BitVec.extractLsb'_append_eq_of_add_le (by omega)).trans
      ((BitVec.extractLsb'_append_eq_of_add_le (by omega)).trans
        ((BitVec.extractLsb'_append_eq_of_add_le (by omega)).trans
          BitVec.extractLsb'_append_eq_left))
  · exact (BitVec.extractLsb'_append_eq_of_add_le (by omega)).trans
      ((BitVec.extractLsb'_append_eq_of_add_le (by omega)).trans
        ((BitVec.extractLsb'_append_eq_of_add_le (by omega)).trans
          BitVec.extractLsb'_append_eq_right))

theorem pack_and (f g : CommandFields) :
    pack f &&& pack g =
      pack ⟨f.op &&& g.op, f.nf &&& g.nf, f.rsv &&& g.rsv, f.b &&& g.b, f.imm &&& g.imm⟩ := by
  simp only [pack]
  rw [BitVec.and_append, BitVec.and_append, BitVec.and_append, BitVec.and_append]

theorem pack_injective {f g : CommandFields} (h : pack f = pack g) : f = g := by
  rw [← unpack_pack f, h, unpack_pack]

/-- The fields in which the mask of a format has its ones (R71). -/
def Format.maskFields : Format → CommandFields
  | .z => ⟨0xFF, 0xFF, 0x7FFF, 1, 0xFFFFFFFF⟩
  | .i => ⟨0xFF, 0xFF, 0x7FFF, 1, 0⟩
  | .bi => ⟨0xFF, 0xFF, 0x7FFF, 0, 0⟩
  | .y => ⟨0xFF, 0xFF, 0x7FFF, 1, 0xFFFFFF00⟩
  | .n => ⟨0xFF, 0, 0x7FFF, 1, 0xFFFFFFFF⟩
  | .ni => ⟨0xFF, 0, 0x7FFF, 1, 0⟩

theorem mask_eq_pack (f : Format) : f.mask = pack f.maskFields := by cases f <;> decide

theorem matchWord_eq_pack (m : Mnemonic) : m.matchWord = pack ⟨m.op, 0, 0, 0, 0⟩ := by
  cases m <;> decide

theorem ofOp_op (m : Mnemonic) : Mnemonic.ofOp m.op = some m := by cases m <;> decide

end Sys2Proof
end

