-- ==== Sys2Proof/Laws/PerInstr.lean ====
section
/-! SUPPORT. Statements made command by command: the word of a command passes the mask-and-match test
of its own row (30_encoding.md R75). -/

namespace Sys2Proof.Laws.EncodingMatchesRow

/-- The word of the command passes the test of its row, whatever its operands. -/
def Statement (i : Instr) : Prop := i.mnemonic.rowMatches (encode i) = true

/-- The test of a row, field by field. -/
theorem statement_of_fields (i : Instr)
    (h : (⟨i.fields.op &&& i.mnemonic.format.maskFields.op,
      i.fields.nf &&& i.mnemonic.format.maskFields.nf,
      i.fields.rsv &&& i.mnemonic.format.maskFields.rsv,
      i.fields.b &&& i.mnemonic.format.maskFields.b,
      i.fields.imm &&& i.mnemonic.format.maskFields.imm⟩ : CommandFields) =
      ⟨i.mnemonic.op, 0, 0, 0, 0⟩) : Statement i := by
  simp only [Statement, Mnemonic.rowMatches, encode, mask_eq_pack, matchWord_eq_pack, pack_and, h,
    beq_self_eq_true]

theorem nop : Statement .nop := by unfold Statement; decide

theorem reset : Statement .reset := by unfold Statement; decide

theorem encInit : Statement .encInit := by unfold Statement; decide

/-- A byte has no bit above bit 7. -/
theorem byte_and_upper (byte : Byte) : byte.setWidth 32 &&& 0xFFFFFF00#32 = 0 := by
  revert byte; decide

theorem encBool (b : Bool) (p : Int) : Statement (.encBool b p) := by
  apply statement_of_fields
  simp [Instr.fields, Instr.mnemonic, Instr.nfField, Instr.bField, Instr.immField, Mnemonic.format,
    Mnemonic.op, Format.maskFields]

theorem encFinish : Statement .encFinish := by unfold Statement; decide

theorem encLen : Statement .encLen := by unfold Statement; decide

theorem encRdb (idx : Nat) : Statement (.encRdb idx) := by
  apply statement_of_fields
  simp [Instr.fields, Instr.mnemonic, Instr.nfField, Instr.bField, Instr.immField, Mnemonic.format,
    Mnemonic.op, Format.maskFields]

theorem decClr : Statement .decClr := by unfold Statement; decide

theorem decWrb (byte : Byte) : Statement (.decWrb byte) := by
  apply statement_of_fields
  simp [Instr.fields, Instr.mnemonic, Instr.nfField, Instr.bField, Instr.immField, Mnemonic.format,
    Mnemonic.op, Format.maskFields]
  exact byte_and_upper byte

theorem decInit : Statement .decInit := by unfold Statement; decide

theorem decBool (p : Int) : Statement (.decBool p) := by
  apply statement_of_fields
  simp [Instr.fields, Instr.mnemonic, Instr.nfField, Instr.bField, Instr.immField, Mnemonic.format,
    Mnemonic.op, Format.maskFields]

theorem decLdenc : Statement .decLdenc := by unfold Statement; decide

theorem litPutu (n : Int) (v : Nat) : Statement (.litPutu n v) := by
  apply statement_of_fields
  simp [Instr.fields, Instr.mnemonic, Instr.nfField, Instr.bField, Instr.immField, Mnemonic.format,
    Mnemonic.op, Format.maskFields]

theorem litPuts (n : Int) (v : Int) : Statement (.litPuts n v) := by
  apply statement_of_fields
  simp [Instr.fields, Instr.mnemonic, Instr.nfField, Instr.bField, Instr.immField, Mnemonic.format,
    Mnemonic.op, Format.maskFields]

theorem litGetu (n : Int) : Statement (.litGetu n) := by
  apply statement_of_fields
  simp [Instr.fields, Instr.mnemonic, Instr.nfField, Instr.bField, Instr.immField, Mnemonic.format,
    Mnemonic.op, Format.maskFields]

theorem litGets (n : Int) : Statement (.litGets n) := by
  apply statement_of_fields
  simp [Instr.fields, Instr.mnemonic, Instr.nfField, Instr.bField, Instr.immField, Mnemonic.format,
    Mnemonic.op, Format.maskFields]

theorem blkWr (n : Int) (v : Int) : Statement (.blkWr n v) := by
  apply statement_of_fields
  simp [Instr.fields, Instr.mnemonic, Instr.nfField, Instr.bField, Instr.immField, Mnemonic.format,
    Mnemonic.op, Format.maskFields]

theorem blkRd (n : Int) : Statement (.blkRd n) := by
  apply statement_of_fields
  simp [Instr.fields, Instr.mnemonic, Instr.nfField, Instr.bField, Instr.immField, Mnemonic.format,
    Mnemonic.op, Format.maskFields]

theorem scrRd (n : Int) : Statement (.scrRd n) := by
  apply statement_of_fields
  simp [Instr.fields, Instr.mnemonic, Instr.nfField, Instr.bField, Instr.immField, Mnemonic.format,
    Mnemonic.op, Format.maskFields]

theorem xfmWht : Statement .xfmWht := by unfold Statement; decide

theorem xfmIwht : Statement .xfmIwht := by unfold Statement; decide

theorem xfmDct : Statement .xfmDct := by unfold Statement; decide

theorem xfmIdct : Statement .xfmIdct := by unfold Statement; decide

theorem xfmDct0 : Statement .xfmDct0 := by unfold Statement; decide

theorem cscRgb2yuv (rgb : BitVec 32) : Statement (.cscRgb2yuv rgb) := by
  apply statement_of_fields
  simp [Instr.fields, Instr.mnemonic, Instr.nfField, Instr.bField, Instr.immField, Mnemonic.format,
    Mnemonic.op, Format.maskFields]

theorem cscYuv2rgb (yuv : BitVec 32) : Statement (.cscYuv2rgb yuv) := by
  apply statement_of_fields
  simp [Instr.fields, Instr.mnemonic, Instr.nfField, Instr.bField, Instr.immField, Mnemonic.format,
    Mnemonic.op, Format.maskFields]

end Sys2Proof.Laws.EncodingMatchesRow
end

