-- ==== Sys2Proof/Tests/Slice0.lean ====
section
/-! SUPPORT. Small tests: the words of the commands, the well-formedness checks, one step of each command
with the result the specification's examples and vectors give, and for each statement with hypotheses
one state and operands that meet them. -/

namespace Sys2Proof.Tests

open Sys2Proof.Machine

/-! ### Words written out from 30_encoding.md R70 and R76 -/

theorem test_decode_nop : decodeTableWord 64 0x0000000000000000 = some .nop := by decide

theorem test_decode_reset : decodeTableWord 64 0x0100000000000000 = some .reset := by decide

theorem test_decode_enc_init : decodeTableWord 64 0x1000000000000000 = some .encInit := by decide

/-- R79. -/
theorem test_decode_enc_bool : decodeTableWord 64 0x110000010000000A = some (.encBool true 10) := by
  decide

/-- R214: the probability field is signed. -/
theorem test_decode_enc_bool_negative :
    decodeTableWord 64 0x11000000FFFFFFFF = some (.encBool false (-1)) := by decide

/-- R79. -/
theorem test_decode_enc_finish : decodeTableWord 64 0x1200000000000000 = some .encFinish := by decide

theorem test_decode_enc_len : decodeTableWord 64 0x1300000000000000 = some .encLen := by decide

/-- R125: the index is unsigned. -/
theorem test_decode_enc_rdb :
    decodeTableWord 64 0x14000000FFFFFFFF = some (.encRdb 4294967295) := by decide

theorem test_decode_dec_clr : decodeTableWord 64 0x2000000000000000 = some .decClr := by decide

theorem test_decode_dec_wrb : decodeTableWord 64 0x21000000000000AB = some (.decWrb 0xAB) := by decide

theorem test_decode_dec_init : decodeTableWord 64 0x2200000000000000 = some .decInit := by decide

/-- R79. -/
theorem test_decode_dec_bool : decodeTableWord 64 0x23000000000000F5 = some (.decBool 245) := by decide

theorem test_decode_dec_ldenc : decodeTableWord 64 0x2400000000000000 = some .decLdenc := by decide

theorem test_decode_lit_putu :
    decodeTableWord 64 0x30200000FFFFFFF9 = some (.litPutu 32 4294967289) := by decide

/-- R79. -/
theorem test_decode_lit_puts :
    decodeTableWord 64 0x31050000FFFFFFF9 = some (.litPuts 5 (-7)) := by decide

/-- R72: `nf` is signed. -/
theorem test_decode_lit_getu : decodeTableWord 64 0x3280000000000000 = some (.litGetu (-128)) := by
  decide

/-- R79. -/
theorem test_decode_lit_gets : decodeTableWord 64 0x3305000000000000 = some (.litGets 5) := by decide

/-- R172. -/
theorem test_decode_blk_wr :
    decodeTableWord 64 0x40030000FFFFFC18 = some (.blkWr 3 (-1000)) := by decide

theorem test_decode_blk_rd : decodeTableWord 64 0x410F000000000000 = some (.blkRd 15) := by decide

theorem test_decode_scr_rd : decodeTableWord 64 0x42FF000000000000 = some (.scrRd (-1)) := by decide

theorem test_decode_xfm_wht : decodeTableWord 64 0x4300000000000000 = some .xfmWht := by decide

theorem test_decode_xfm_iwht : decodeTableWord 64 0x4400000000000000 = some .xfmIwht := by decide

theorem test_decode_xfm_dct : decodeTableWord 64 0x4500000000000000 = some .xfmDct := by decide

theorem test_decode_xfm_idct : decodeTableWord 64 0x4600000000000000 = some .xfmIdct := by decide

theorem test_decode_xfm_dct0 : decodeTableWord 64 0x4700000000000000 = some .xfmDct0 := by decide

/-- R202. -/
theorem test_decode_csc_rgb2yuv :
    decodeTableWord 64 0x50000000FF808080 = some (.cscRgb2yuv 0xFF808080) := by decide

/-- R203. -/
theorem test_decode_csc_yuv2rgb :
    decodeTableWord 64 0x51000000004D55FF = some (.cscYuv2rgb 0x004D55FF) := by decide

/-- R77 (a). -/
theorem test_decode_unassigned : decodeTableWord 64 0x0200000000000000 = none := by decide

/-- R77 (b): the highest and the lowest reserved bit. -/
theorem test_decode_reserved :
    decodeTableWord 64 0x0000800000000000 = none ∧
    decodeTableWord 64 0x1100000200000000 = none := by decide

/-- R77 (c), its three examples: `imm` in ENC.INIT, `b` in DEC.BOOL, `imm[31:8]` in DEC.WRB. -/
theorem test_decode_unused_field :
    decodeTableWord 64 0x1000000000000001 = none ∧
    decodeTableWord 64 0x2300000100000000 = none ∧
    decodeTableWord 64 0x2100000000000100 = none := by decide

/-- R77: the decoder names the reason. -/
theorem test_decode_reasons :
    (∃ h : DecodeReject, decode 0xFF00000000000000 = .error h ∧ h = .unassignedOpcode) ∧
    (∃ h : DecodeReject, decode 0x0000000200000000 = .error h ∧ h = .reservedBitsSet) ∧
    ∃ h : DecodeReject, decode 0x4700000000000001 = .error h ∧ h = .unusedFieldSet :=
  ⟨⟨_, rfl, rfl⟩, ⟨_, rfl, rfl⟩, ⟨_, rfl, rfl⟩⟩

/-- R113, R151, R172: the words of the encoding lines. -/
theorem test_encode_words :
    encode (.encBool true 10) = 0x110000010000000A ∧
    encode (.litPuts 5 (-7)) = 0x31050000FFFFFFF9 ∧
    encode (.blkWr 3 (-1000)) = 0x40030000FFFFFC18 ∧
    encode (.decWrb 0x0A) = 0x210000000000000A := by decide

/-! ### The well-formedness checks: the first value outside each field is refused -/

theorem test_wf_enc_bool : (Instr.encBool true 2147483648).wellFormed = false ∧
    (Instr.encBool true (-2147483648)).wellFormed = true := by decide

theorem test_wf_enc_rdb : (Instr.encRdb 4294967296).wellFormed = false ∧
    (Instr.encRdb 4294967295).wellFormed = true := by decide

theorem test_wf_dec_bool : (Instr.decBool (-2147483649)).wellFormed = false ∧
    (Instr.decBool 2147483647).wellFormed = true := by decide

theorem test_wf_lit_putu : (Instr.litPutu 128 0).wellFormed = false ∧
    (Instr.litPutu 1 4294967296).wellFormed = false := by decide

theorem test_wf_lit_puts : (Instr.litPuts (-129) 0).wellFormed = false ∧
    (Instr.litPuts 1 2147483648).wellFormed = false := by decide

theorem test_wf_lit_getu : (Instr.litGetu 128).wellFormed = false ∧
    (Instr.litGetu (-128)).wellFormed = true := by decide

theorem test_wf_lit_gets : (Instr.litGets (-129)).wellFormed = false ∧
    (Instr.litGets 127).wellFormed = true := by decide

theorem test_wf_blk_wr : (Instr.blkWr 128 0).wellFormed = false ∧
    (Instr.blkWr 0 (-2147483649)).wellFormed = false := by decide

theorem test_wf_blk_rd : (Instr.blkRd 128).wellFormed = false := by decide

theorem test_wf_scr_rd : (Instr.scrRd (-129)).wellFormed = false := by decide

/-! ### Small states -/

/-- The smallest legal instance (95_test_vectors.md V9), after reset. -/
def fresh : State := State.resetWith 2

/-- Row 7 of V9: EBUF is full and one more shift needs a byte. -/
def full : State :=
  fresh.setEnc { range := 254, low := 22200, cnt := 7, len := 2, phase := .active,
                 buf := [(0, 0xAB), (1, 0x75)] }

/-- The encoder after the example of R119, 0x0A finished. -/
def finished : State :=
  fresh.setEnc { range := 234, low := 10, cnt := 0, len := 1, phase := .finished, buf := [(0, 0x0A)] }

/-- The decoder with a two-byte stream loaded. -/
def loaded (b0 b1 : Byte) : State :=
  fresh.setDec { range := 255, value := 0, bc := 0, pos := 0, len := 2, phase := .loading,
                 buf := (Memory.write [] 0 b0).write 1 b1 }

/-- The decoder after DEC.INIT on a two-byte stream. -/
def decoding (b0 b1 : Byte) : State :=
  fresh.setDec { range := 255, value := b0 ++ b1, bc := 0, pos := 2, len := 2, phase := .decoding,
                 buf := (Memory.write [] 0 b0).write 1 b1 }

/-- The block of V18, its sum odd. -/
def general : Block :=
  ⟨⟨52, -17, 300, -1000⟩, ⟨999, 0, -1, 7⟩, ⟨123, -456, 789, -321⟩, ⟨5, 5, -5, 1001⟩⟩

/-- The state after one command. -/
def after (i : Instr) (s : State) : Option State :=
  match exec i s with
  | .next t => some t
  | _ => none

/-- The response to one command. -/
def answer (i : Instr) (s : State) : Option Response := (after i s).bind fun t => t.responses.getLast?

/-- The command word is presented and taken. -/
def stepWord (w : Nat) (s : State) : Option State :=
  match step (s.withFetchWord 64 w) with
  | .next t => some t
  | _ => none

/-! ### One step of each command -/

theorem test_step_from_reset :
    (stepWord 0x110000010000000A State.reset).map (fun t => (t.enc.low, t.enc.range, t.port)) =
      some (10, 245, []) := by decide

theorem test_step_illegal :
    (stepWord 0x0200000000000000 State.reset).map (fun t => t.responses) =
      some [⟨.err .illegal, 0⟩] := by decide

theorem test_nop : after .nop full = some (full.respond .ok 0) := by decide

theorem test_reset : after .reset full =
    some ({ fresh with enc := { fresh.enc with buf := full.enc.buf } }.respond .ok 0) := by decide

theorem test_enc_init : (after .encInit finished).map (fun t => (t.enc.phase, t.enc.len, t.enc.low)) =
    some (.active, 0, 0) := by decide

/-- One byte emitted, the next `true` decision at probability 10 carries. -/
def carrying : State :=
  fresh.setEnc { range := 245, low := 250, cnt := 0, len := 1, phase := .active, buf := [(0, 5)] }

/-- The next shift of the decoder fetches byte 1. -/
def fetching : State :=
  fresh.setDec { range := 128, value := 0x1080, bc := 7, pos := 1, len := 2, phase := .decoding,
                 buf := [(1, 0xC3)] }

/-- R115, R116: 250 + 10 leaves the working part, so byte 0 goes from 5 to 6. -/
theorem test_enc_bool_carry :
    (after (.encBool true 10) carrying).map (fun t => (t.enc.low, t.enc.range, t.enc.buf)) =
      some (4, 235, [(0, 6)]) := by decide

/-- V9, row 8. -/
theorem test_enc_bool_overflow : after (.encBool true 128) full =
    some (full.respond (.err .overflow) 0) := by decide

/-- R119, example. -/
theorem test_enc_finish :
    (after .encFinish (fresh.setEnc { fresh.enc with range := 234, low := 10 })).map
      (fun t => (t.enc, t.responses)) = some (finished.enc, [⟨.ok, 1⟩]) := by decide

/-- V12: `E.cnt = 3`, `E.low = 1278`, so `1278 << 5 = 0x9FC0`. -/
theorem test_enc_finish_two_bytes :
    (after .encFinish (fresh.setEnc { fresh.enc with range := 254, low := 1278, cnt := 3 })).map
      (fun t => (t.enc.buf, t.enc.len)) = some ([(0, 0x9F), (1, 0xC0)], 2) := by decide

/-- V9, row 10. -/
theorem test_enc_len : answer .encLen full = some ⟨.ok, 2⟩ := by decide

/-- R125, example. -/
theorem test_enc_rdb : answer (.encRdb 0) finished = some ⟨.ok, 0x0A⟩ ∧
    answer (.encRdb 1) finished = some ⟨.err .range, 0⟩ := by decide

theorem test_dec_clr : (after .decClr (decoding 0x9F 0xC0)).map (fun t => (t.dec.phase, t.dec.len)) =
    some (.loading, 0) := by decide

/-- R132, example. -/
theorem test_dec_wrb : (after (.decWrb 0x0A) fresh).map (fun t => (t.dec.len, t.dec.buf)) =
    some (1, [(0, 0x0A)]) := by decide

/-- V9, second table, rows 2 and 4. -/
theorem test_dec_wrb_refused : answer (.decWrb 3) (loaded 1 2) = some ⟨.err .overflow, 0⟩ ∧
    answer (.decWrb 3) (decoding 1 2) = some ⟨.err .state, 0⟩ := by decide

/-- R133, example. -/
theorem test_dec_ldenc : (after .decLdenc finished).map (fun t => (t.dec.buf, t.dec.len, t.responses)) =
    some ([(0, 0x0A)], 1, [⟨.ok, 1⟩]) := by decide

theorem test_dec_init : (after .decInit (loaded 0x9F 0xC0)).map (fun t => (t.dec.value, t.dec.pos)) =
    some (0x9FC0, 2) := by decide

/-- R135, example. -/
theorem test_dec_bool : (after (.decBool 10) (decoding 0x0A 0x00)).map
    (fun t => (t.dec.value, t.dec.range, t.responses)) = some (0, 245, [⟨.ok, 1⟩]) := by decide

/-- R138: the eighth shift fetches the next byte, 0xC3. -/
theorem test_dec_bool_fetch : (after (.decBool 128) fetching).map
    (fun t => (t.dec.value, t.dec.bc, t.dec.pos)) = some (0x21C3, 0, 2) := by decide

/-- V12. -/
theorem test_lit_putu : (after (.litPutu 3 5) fresh).map (fun t => (t.enc.range, t.enc.low, t.enc.cnt)) =
    some (254, 1278, 3) := by decide

/-- V9, row 14: the seven decisions before the overflow are undone. -/
theorem test_lit_putu_overflow :
    answer (.litPutu 8 18) (full.setEnc { full.enc with low := 102, cnt := 0 }) =
      some ⟨.err .overflow, 0⟩ := by decide

/-- R152, example: the decisions 1, 0, 1, 1, 1. -/
theorem test_lit_puts : (after (.litPuts 5 (-7)) fresh).map (fun t => (t.enc.low, t.enc.cnt)) =
    some (5874, 5) := by decide

/-- R155. -/
theorem test_lit_puts_width : answer (.litPuts 33 0) finished = some ⟨.err .arg, 0⟩ := by decide

/-- R153, example. -/
theorem test_lit_getu : answer (.litGetu 3) (decoding 0x9F 0xC0) = some ⟨.ok, 5⟩ := by decide

/-- R154, example: `5874 << 3 = 0xB790`. -/
theorem test_lit_gets : answer (.litGets 5) (decoding 0xB7 0x90) = some ⟨.ok, 0xFFFFFFF9⟩ := by decide

/-- R172, example. -/
theorem test_blk_wr : (after (.blkWr 3 (-1000)) fresh).map (fun t => t.blk.get 3) =
    some 0xFFFFFC18 := by decide

theorem test_blk_wr_range : answer (.blkWr 16 1) fresh = some ⟨.err .range, 0⟩ ∧
    answer (.blkWr (-1) 1) fresh = some ⟨.err .range, 0⟩ := by decide

/-- R171: element 6 is row 1, column 2. -/
theorem test_blk_rd : answer (.blkRd 6) (fresh.setBlk general) = some ⟨.ok, 0xFFFFFFFF⟩ := by decide

theorem test_scr_rd : answer (.scrRd 15) (fresh.setScr general) = some ⟨.ok, 1001⟩ ∧
    answer (.scrRd 16) fresh = some ⟨.err .range, 0⟩ := by decide

/-- V18. -/
theorem test_xfm_wht : (after .xfmWht (fresh.setBlk general)).map (fun t => (t.blk.x0, t.scr.x3)) =
    some (⟨741, -29, 126, 1522⟩, ⟨1006, -986, 1006, -1006⟩) := by decide

/-- V22. -/
theorem test_xfm_iwht :
    (after .xfmIwht (fresh.setBlk (Block.zero.set 5 (-9)))).map (fun t => (t.blk.x0, t.scr.x1)) =
      some (⟨-1, -1, 1, 1⟩, ⟨-9, -9, 9, 9⟩) := by decide

/-- V20. -/
theorem test_xfm_dct : (after .xfmDct (fresh.setBlk general)).map (fun t => (t.blk.x1, t.scr.x0)) =
    some (⟨-856, 2009, -1045, 643⟩, ⟨-5320, 9624, -9848, 7869⟩) := by decide

/-- V22. -/
theorem test_xfm_idct :
    (after .xfmIdct (fresh.setBlk (Block.zero.set 1 100))).map (fun t => (t.blk.x3, t.scr.x0)) =
      some (⟨16, 7, -7, -16⟩, ⟨130, 54, -54, -130⟩) := by decide

/-- V23. -/
theorem test_xfm_dct0 : answer .xfmDct0 (fresh.setBlk (Block.zero.set 0 (-3))) =
    some ⟨.ok, 0xFFFFFFFF⟩ := by decide

/-- R202, example. -/
theorem test_csc_rgb2yuv : answer (.cscRgb2yuv 0x00FF0000) fresh = some ⟨.ok, 0x004D55FF⟩ := by decide

/-- R203, example. -/
theorem test_csc_yuv2rgb : answer (.cscYuv2rgb 0x004D55FF) fresh = some ⟨.ok, 0x00FF0101⟩ := by decide

/-! ### For each statement with hypotheses, states and operands that meet them -/

/-- The state with one command word at the port. -/
def presented (w : CommandWord) (s : State) : State := s.setPort [.command w]

theorem exec_of_after {i : Instr} {s : State} (h : (after i s).isSome = true) :
    ∃ t, exec i s = .next t := by
  unfold after at h
  split at h
  · exact ⟨_, ‹_›⟩
  · cases h

theorem some_of_isSome {α : Type} {x : Option α} (h : x.isSome = true) : ∃ t, x = some t :=
  Option.isSome_iff_exists.1 h

/-- A word that no row matches. -/
theorem no_row_matches (m : Mnemonic) : (0x1000000000000001 : CommandWord) &&& m.format.mask ≠ m.matchWord := by
  cases m <;> decide

theorem full_inv : full.Inv := by decide

theorem carrying_inv : carrying.Inv := by decide

theorem finished_inv : finished.Inv := by decide

theorem fetching_inv : fetching.Inv := by decide

/-- `DecodeOfEncode`, at the ends of each operand's range. -/
theorem witness_wellFormed : (Instr.encBool true (-2147483648)).wellFormed = true ∧
    (Instr.decBool 2147483647).wellFormed = true ∧ (Instr.encRdb 4294967295).wellFormed = true ∧
    (Instr.litPutu 127 4294967295).wellFormed = true ∧
    (Instr.blkWr (-128) (-2147483648)).wellFormed = true := by decide

/-- `EncodeOfDecode`, `StepRunsDecodedCommand`. -/
theorem witness_decoded : ∃ i, decode 0x11000001FFFFFFFF = .ok i ∧
    (presented 0x11000001FFFFFFFF fresh).port = .command 0x11000001FFFFFFFF :: [] := ⟨_, rfl, rfl⟩

/-- `IllegalWordIsRefused`. -/
theorem witness_illegal : (presented 0x1000000000000001 full).port = .command 0x1000000000000001 :: [] ∧
    ∀ m : Mnemonic, (0x1000000000000001 : CommandWord) &&& m.format.mask ≠ m.matchWord :=
  ⟨rfl, no_row_matches⟩

/-- `ResetEventAndWaiting`: a reset event with and without a command in progress, and an empty port. -/
theorem witness_reset_event :
    (full.setPort [.reset (some 0x1200000000000000)]).port = .reset (some 0x1200000000000000) :: [] ∧
    (full.setPort [.reset none]).port = .reset none :: [] ∧ full.port = [] := by decide

/-- `InvariantsHoldAtReset`: the smallest and the largest capacity. -/
theorem witness_capacity : Config.capLegal 2 = true ∧ Config.capLegal 4294967295 = true := by decide

/-- `StepKeepsInvariant`, `NoRunStops`, `DeadBytesAreUnobservable` (a state agrees with itself). -/
theorem witness_step : (presented 0x110000010000000A carrying).Inv ∧
    (∃ t, step (presented 0x110000010000000A carrying) = .next t) ∧
    (presented 0x110000010000000A carrying).SameLive (presented 0x110000010000000A carrying) :=
  ⟨by decide, ⟨_, rfl⟩, rfl, fun _ _ => rfl, fun _ _ => rfl⟩

/-- `DeadBytesAreUnobservable`: two states that differ in a byte beyond the live ones. -/
theorem witness_dead_byte :
    (presented 0x1300000000000000 (finished.setEnc { finished.enc with buf := [(0, 0x0A), (1, 7)] })).Inv ∧
    (presented 0x1300000000000000 finished).SameLive
      (presented 0x1300000000000000 (finished.setEnc { finished.enc with buf := [(0, 0x0A), (1, 7)] })) := by
  refine ⟨by decide, rfl, fun a ha => ?_, fun _ _ => rfl⟩
  obtain rfl : a = 0 := by
    have h : a < 1 := ha
    omega
  rfl

/-- `StepKeepsWindowInvariant`, with a stream that begins with 0xFE and with an empty stream. -/
theorem witness_window : (presented 0x2200000000000000 (loaded 0xFE 0xFF)).Inv ∧
    (presented 0x2200000000000000 (loaded 0xFE 0xFF)).dec.WindowInv ∧
    (decoding 0xFE 0xFF).dec.WindowInv ∧ (decoding 0xFE 0xFF).dec.phase = .decoding ∧
    (∃ t, step (presented 0x2200000000000000 (loaded 0xFE 0xFF)) = .next t) ∧
    (presented 0x2200000000000000 fresh).dec.WindowInv :=
  ⟨by decide, by decide, by decide, rfl, ⟨_, rfl⟩, by decide⟩

/-- `OneResponsePerCommand`. -/
theorem witness_exec : ∃ t, exec .nop full = .next t := exec_of_after (by decide)

/-- `RunAnswersEveryWord`: a legal and an illegal word. -/
theorem witness_words :
    (full.setPort [.command 0x1300000000000000, .command 0x1000000000000001]).Inv ∧
    (full.setPort [.command 0x1300000000000000, .command 0x1000000000000001]).port =
      [(0x1300000000000000 : CommandWord), 0x1000000000000001].map .command := by decide

/-- `ErrorsLeaveNoTrace`. -/
theorem witness_error : (presented 0x1100000100000080 full).port = .command 0x1100000100000080 :: [] ∧
    ∃ t, step (presented 0x1100000100000080 full) = .next t ∧
      t.responses = (presented 0x1100000100000080 full).responses ++ [⟨.err .overflow, 0⟩] :=
  ⟨rfl, _, rfl, rfl⟩

/-- `StatusTable`. -/
theorem witness_status : (∃ t, exec (.encRdb 2) full = .next t ∧
    t.responses = full.responses ++ [⟨.err .range, 0⟩]) ∧ Err.range ∈ mayAnswer .encRdb :=
  ⟨⟨_, rfl, rfl⟩, by decide⟩

/-- `InvalidArgumentsAreRefused`, both sides of each range. -/
theorem witness_arguments : ((-1 : Int) < 0 ∨ (-1 : Int) > 255) ∧ ((256 : Int) < 0 ∨ (256 : Int) > 255) ∧
    ((0 : Int) < 1 ∨ (0 : Int) > 32) ∧ ((33 : Int) < 1 ∨ (33 : Int) > 32) := by decide

/-- `WrongPhaseIsRefused`, each clause. -/
theorem witness_phases : finished.enc.phase = .finished ∧ (decoding 1 2).dec.phase = .decoding ∧
    (loaded 1 2).dec.phase = .loading ∧ (∃ t, exec (.litPutu 32 0) finished = .next t ∧
      t.responses = finished.responses ++ [⟨.err .state, 0⟩]) := ⟨rfl, rfl, rfl, _, rfl, rfl⟩

/-- `NopChangesNothing`: a word with `op = 0x00` that is not NOP. -/
theorem witness_not_nop : (0x00FFFFFFFFFFFFFF : CommandWord).toNat / 2 ^ 56 = 0 ∧
    (0x00FFFFFFFFFFFFFF : CommandWord) ≠ 0 ∧
    (presented 0x00FFFFFFFFFFFFFF full).port = .command 0x00FFFFFFFFFFFFFF :: [] := by decide

/-- `SplitBounds`, at the ends of the ranges. -/
theorem witness_split : (1 ≤ 1 ∧ 1 ≤ 255 ∧ 0 ≤ 255) ∧ 2 ≤ 255 ∧ 255 ≤ 255 ∧ 255 ≤ 255 := by decide

/-- `AddCarryAddsOne`: the carry ripples through a byte 0xFF. -/
theorem witness_carry : Memory.wf [(0, 0x05), (1, 0xFF)] = true ∧ 2 ≤ 2 ∧
    streamNumber [(0, 0x05), (1, 0xFF)] 2 + 1 < 256 ^ 2 := by decide

/-- `EncBoolEffect`: a decision whose byte fits the last free place, and one whose byte does not fit. -/
theorem witness_enc_bool : carrying.Inv ∧ carrying.enc.phase = .active ∧
    carrying.enc.len + (carrying.enc.cnt.toNat + doublings (intervalAfter 245 0 false)) / 8 ≤ carrying.cap ∧
    full.Inv ∧ full.enc.phase = .active ∧
    full.cap < full.enc.len + (full.enc.cnt.toNat + doublings (intervalAfter 254 255 true)) / 8 := by
  decide

/-- `EncFinishEffect`: the phase FINISHED; one byte that fits the last place; two bytes that do not. -/
theorem witness_enc_finish : finished.enc.phase = .finished ∧
    carrying.Inv ∧ carrying.enc.phase = .active ∧ carrying.enc.cnt = 0 ∧
    carrying.enc.len + 1 = carrying.cap ∧
    full.Inv ∧ full.enc.phase = .active ∧ full.enc.cnt ≠ 0 ∧ full.cap < full.enc.len + 2 := by decide

/-- `EncFinishEffect`: two bytes that fit. -/
theorem witness_enc_finish_two :
    (fresh.setEnc { fresh.enc with range := 254, low := 1278, cnt := 3 }).Inv ∧ 0 + 2 ≤ fresh.cap := by
  decide

/-- `EncoderReads`: the last live index and the first that is not. -/
theorem witness_enc_rdb : full.Inv ∧ 1 < full.enc.len ∧ full.enc.len ≤ 2 := by decide

/-- `FinishedStreamIsFinal`. -/
theorem witness_finished : (∃ t, exec .decLdenc finished = .next t) ∧ finished.enc.phase = .finished ∧
    Instr.decLdenc ≠ .encInit ∧ Instr.decLdenc ≠ .reset := ⟨exec_of_after (by decide), rfl, by decide⟩

/-- `EmittedBytesChangeByOneCarry`: a command that carries. -/
theorem witness_emitted : carrying.Inv ∧ carrying.enc.phase = .active ∧
    (∃ t, exec (.encBool true 10) carrying = .next t) ∧ Instr.encBool true 10 ≠ .encInit ∧
    Instr.encBool true 10 ≠ .reset := ⟨carrying_inv, rfl, exec_of_after (by decide), by decide⟩

/-- `EncoderEqualsUnboundedCoder`. -/
theorem witness_session : full.Inv ∧ (∀ d ∈ [(true, 255)], d.2 ≤ 255) ∧
    (∃ t, execOk (.encInit :: [(true, 255)].map fun d => .encBool d.1 d.2) full = some t) ∧
    ∃ w, execOk [.encFinish] carrying = some w :=
  ⟨full_inv, by decide, some_of_isSome (by decide), some_of_isSome (by decide)⟩

/-- `DecWrbAppendsByte`, each clause. -/
theorem witness_dec_wrb : (decoding 1 2).dec.phase = .decoding ∧
    (loaded 1 2).dec.phase = .loading ∧ (loaded 1 2).dec.len = (loaded 1 2).cap ∧
    fresh.Inv ∧ fresh.dec.phase = .loading ∧ fresh.dec.len < fresh.cap := by decide

/-- `DecLdencCopiesStream`, `DecInitLoadsWindow`: a stream of two bytes, of one and of none. -/
theorem witness_dec_load : full.Inv ∧ finished.Inv ∧ fresh.Inv ∧ (loaded 1 2).Inv := by decide

/-- `DecBoolEffect`: a decision that fetches a byte, and one past the end of the stream. -/
theorem witness_dec_bool : fetching.Inv ∧ fetching.dec.phase = .decoding ∧
    (decoding 0xFF 0xFF).Inv ∧ (decoding 0xFF 0xFF).dec.phase = .decoding ∧
    (decoding 0xFF 0xFF).dec.pos = (decoding 0xFF 0xFF).dec.len := by decide

/-- `DecoderEqualsBitSerialForm`: a stream that begins with 0xFF. -/
theorem witness_serial : (loaded 0xFF 0x80).Inv ∧ (∀ p ∈ [0], p ≤ 255) ∧
    ∃ t, execOk (.decInit :: [0].map fun p => .decBool p) (loaded 0xFF 0x80) = some t :=
  ⟨by decide, by decide, some_of_isSome (by decide)⟩

/-- `MirrorRoundTrip`. -/
theorem witness_mirror : full.Inv ∧ (∀ d ∈ [(true, 10)], d.2 ≤ 255) ∧
    (∃ t, execOk ((.encInit :: [(true, 10)].map fun d => .encBool d.1 d.2) ++
      [.encFinish, .decLdenc, .decInit]) full = some t) ∧
    (∃ a, execOk (.encInit :: ([(true, 10)].take 1).map fun d => .encBool d.1 d.2) full = some a) ∧
    ∃ b, execOk (([(true, 10)].take 1).map fun d => .decBool d.2) (decoding 0x0A 0) = some b :=
  ⟨full_inv, by decide, some_of_isSome (by decide), some_of_isSome (by decide),
    some_of_isSome (by decide)⟩

/-- `TrailingBytesAreHarmless`: the one-byte stream 0x0A with a byte after it. -/
theorem witness_trailing : full.Inv ∧ (loaded 0x0A 0xFF).Inv ∧ (∀ d ∈ [(true, 10)], d.2 ≤ 255) ∧
    ∃ t, execOk ((.encInit :: [(true, 10)].map fun d => .encBool d.1 d.2) ++ [.encFinish]) full = some t ∧
      ∀ a, a < t.enc.len →
        (if a < (loaded 0x0A 0xFF).dec.len then (loaded 0x0A 0xFF).dec.buf.read a else 0) =
          t.enc.buf.read a := by
  refine ⟨full_inv, by decide, by decide, _, rfl, fun a ha => ?_⟩
  obtain rfl : a = 0 := by
    have h : a < 1 := ha
    omega
  rfl

/-- `LitPutuEffect`, `LitPutsEffect`: widths 1 and 32, a literal that fits and one that does not. -/
theorem witness_lit_put : fresh.Inv ∧ fresh.enc.phase = .active ∧
    fresh.enc.len + (fresh.enc.cnt.toNat + literalShifts 255 false 1) / 8 ≤ fresh.cap ∧
    full.Inv ∧ full.enc.phase = .active ∧
    full.cap < full.enc.len + (full.enc.cnt.toNat + literalShifts 254 true 32) / 8 := by decide

/-- `LitGetuEffect`, `LitGetsEffect`. -/
theorem witness_lit_get : (decoding 0xB7 0x90).Inv ∧ (decoding 0xB7 0x90).dec.phase = .decoding ∧
    (1 : Int) ≤ 1 ∧ (32 : Int) ≤ 32 := by decide

/-- `SchemaRoundTrip`: a signed literal at the end of its range. -/
theorem witness_schema : full.Inv ∧ (∀ x ∈ [Item.signed 2 (-1)], x.legal = true) ∧
    ∃ t, execOk ((.encInit :: [Item.signed 2 (-1)].map Item.put) ++ [.encFinish, .decLdenc, .decInit]) full =
      some t := ⟨full_inv, by decide, some_of_isSome (by decide)⟩

/-- `SchemaRoundTrip`: the ends of the ranges of each kind of item. -/
theorem witness_items : (Item.decision true 255).legal = true ∧ (Item.unsigned 32 4294967295).legal = true ∧
    (Item.signed 32 (-2147483647)).legal = true ∧ (Item.signed 1 0).legal = true := by decide

/-- `BlkWrWritesOneElement`, `ElementReads`: both sides of the ends of the index range. -/
theorem witness_index : ((-1 : Int) < 0 ∨ (-1 : Int) > 15) ∧ ((16 : Int) < 0 ∨ (16 : Int) > 15) ∧
    (0 : Int) ≤ 0 ∧ (15 : Int) ≤ 15 := by decide

/-- `Dct0IsTheDcCoefficient`, `WhtRoundTripExact`, `DctRoundTripWithinTwo`, `ScratchNeverMatters`. -/
theorem witness_block : (∀ r, r < 4 → -2 ^ 31 ≤ 8 * rowSum (Block.zero.set 3 (-1000)) r ∧
      8 * rowSum (Block.zero.set 3 (-1000)) r < 2 ^ 31) ∧
    (Block.zero.set 3 (-1000)).Within 1000 ∧ (Block.zero.set 0 1048576).Within (2 ^ 20) ∧
    (∀ b, ∃ t, exec .xfmDct (fresh.setBlk b) = .next t) ∧
    (∀ b, ∃ t, exec .xfmIdct (fresh.setBlk b) = .next t) ∧
    (∀ b, ∃ t, exec .xfmWht (fresh.setBlk b) = .next t) ∧
    (∀ b, ∃ t, exec .xfmIwht (fresh.setBlk b) = .next t) ∧ (∀ n, Instr.xfmDct ≠ .scrRd n) :=
  ⟨by decide, by unfold Block.Within; decide, by unfold Block.Within; decide, fun _ => ⟨_, rfl⟩,
    fun _ => ⟨_, rfl⟩, fun _ => ⟨_, rfl⟩, fun _ => ⟨_, rfl⟩, fun _ => by simp⟩

/-- `ColourRoundTripBound`: pure red (R203). -/
theorem witness_colour : ColourRoundTrip fresh 0x00FF0000 0x00FF0101 :=
  ⟨_, _, 0x004D55FF, rfl, rfl, rfl, rfl⟩

/-- `UnitsAreIndependent`: a command of each clause. -/
theorem witness_units : (∃ t, exec (.litPutu 1 1) fresh = .next t) ∧ (∃ t, exec .decInit full = .next t) ∧
    (∃ t, exec .xfmDct0 full = .next t) ∧ (∃ t, exec (.cscYuv2rgb 0xFFFFFFFF) full = .next t) :=
  ⟨exec_of_after (by decide), exec_of_after (by decide), exec_of_after (by decide),
    exec_of_after (by decide)⟩

end Sys2Proof.Tests
end

/-! Bytes at or above the live lengths influence nothing (R41). Two states are twins when they differ
only there; every helper, every command and every step, run from twins, ends alike and in twins. -/

namespace Sys2Proof.Machine

/-- Two computations end alike: with results that `R` relates, or at the same stop. -/
inductive EndAlike {α : Type} (R : α → α → Prop) : Except Stop α → Except Stop α → Prop where
  | ok {a b : α} (h : R a b) : EndAlike R (.ok a) (.ok b)
  | error (e : Stop) : EndAlike R (.error e) (.error e)

namespace EndAlike

variable {α β : Type} {R : α → α → Prop} {S : β → β → Prop}

theorem bind {x y : Except Stop α} {f g : α → Except Stop β} (h : EndAlike R x y)
    (hfg : ∀ a b, R a b → EndAlike S (f a) (g b)) : EndAlike S (x >>= f) (y >>= g) := by
  cases h with
  | ok h => exact hfg _ _ h
  | error e => exact .error e

/-- Both sides begin with one and the same computation. -/
theorem bind_same {x : Except Stop α} {f g : α → Except Stop β}
    (hfg : ∀ a, EndAlike S (f a) (g a)) : EndAlike S (x >>= f) (x >>= g) := by
  cases x with
  | ok a => exact hfg a
  | error e => exact .error e

theorem ite {c : Prop} [Decidable c] {x y x' y' : Except Stop α} (h : c → EndAlike R x y)
    (h' : ¬c → EndAlike R x' y') : EndAlike R (if c then x else x') (if c then y else y') := by
  split
  · exact h ‹_›
  · exact h' ‹_›

end EndAlike

/-! ### Stream memories -/

/-- Two memories in canonical form with the same live bytes, those below `n`. -/
structure Memory.Twin (n : Nat) (m m' : Memory) : Prop where
  wf_left : m.wf = true
  wf_right : m'.wf = true
  agree : m.AgreeBelow n m'

theorem Memory.Twin.mono {n k : Nat} {m m' : Memory} (h : m.Twin n m') (hk : k ≤ n) :
    m.Twin k m' := ⟨h.wf_left, h.wf_right, fun a ha => h.agree a (by omega)⟩

/-- A read below the live length gives the same byte. -/
theorem Memory.Twin.load_eq {n a : Nat} {m m' : Memory} (h : m.Twin n m') (ha : a < n) (cap : Nat) :
    load cap m' a = load cap m a := by
  unfold load
  rw [h.agree a ha]

/-- The same write on both sides makes its own address agree too. -/
theorem Memory.Twin.store {n k a : Nat} {m m' : Memory} (h : m.Twin n m') (cap : Nat) (v : Byte)
    (hk : ∀ b, b < k → b < n ∨ b = a) :
    EndAlike (Memory.Twin k) (store cap m a v) (store cap m' a v) := by
  unfold Machine.store
  refine .ite (fun _ => .ok ⟨write_wf h.wf_left a v, write_wf h.wf_right a v, fun b hb => ?_⟩)
    fun _ => .error _
  rw [read_write h.wf_left, read_write h.wf_right]
  split
  · rfl
  · exact h.agree b ((hk b hb).resolve_right ‹_›)

/-- A write below the live length. -/
theorem Memory.Twin.store_live {n : Nat} {m m' : Memory} (h : m.Twin n m') (cap a : Nat) (v : Byte) :
    EndAlike (Memory.Twin n) (Machine.store cap m a v) (Machine.store cap m' a v) :=
  h.store cap v fun _ hb => .inl hb

/-- A write that appends one byte. -/
theorem Memory.Twin.store_append {n : Nat} {m m' : Memory} (h : m.Twin n m') (cap : Nat) (v : Byte) :
    EndAlike (Memory.Twin (n + 1)) (Machine.store cap m n v) (Machine.store cap m' n v) :=
  h.store cap v fun _ _ => by omega

/-- `AddCarry` reads and writes live bytes only. -/
theorem addCarry_alike {cap n : Nat} : ∀ {i : Nat} {m m' : Memory}, m.Twin n m' → i ≤ n →
    EndAlike (Memory.Twin n) (addCarry cap m i) (addCarry cap m' i) := by
  intro i
  induction i with
  | zero => exact fun _ _ => .error _
  | succ i ih =>
    intro m m' h hi
    unfold addCarry
    rw [h.load_eq (by omega)]
    refine .bind_same fun v => .ite (fun _ => ?_) fun _ => h.store_live cap i _
    exact (h.store_live cap i _).bind fun _ _ h1 => ih h1 (by omega)

/-- The copy makes the copied bytes of the destination agree, whatever it held (R133). -/
theorem copyBytes_alike {cap n : Nat} {src src' dst dst' : Memory} (hs : src.Twin n src')
    (hd : dst.Twin 0 dst') : ∀ {k : Nat}, k ≤ n →
    EndAlike (Memory.Twin k) (copyBytes cap src dst k) (copyBytes cap src' dst' k) := by
  intro k
  induction k with
  | zero => exact fun _ => .ok hd
  | succ k ih =>
    intro hk
    unfold copyBytes
    refine (ih (by omega)).bind fun m m' hm => ?_
    rw [hs.load_eq (by omega)]
    exact .bind_same fun v => hm.store_append cap v

/-! ### The encoder -/

/-- Encoder contexts that differ at most in bytes at or above `E.len`. -/
def EncContext.Twin (e e' : EncContext) : Prop :=
  ∃ m, e' = { e with buf := m } ∧ e.buf.Twin e.len m

section EncTwin

variable {e e' : EncContext}

theorem EncContext.Twin.range_eq (h : e.Twin e') : e'.range = e.range := by
  obtain ⟨_, rfl, _⟩ := h
  rfl

theorem EncContext.Twin.len_eq (h : e.Twin e') : e'.len = e.len := by
  obtain ⟨_, rfl, _⟩ := h
  rfl

theorem EncContext.Twin.phase_eq (h : e.Twin e') : e'.phase = e.phase := by
  obtain ⟨_, rfl, _⟩ := h
  rfl

theorem EncContext.Twin.buf (h : e.Twin e') : e.buf.Twin e.len e'.buf := by
  obtain ⟨_, rfl, hm⟩ := h
  exact hm

theorem EncContext.Twin.checkActive_eq (h : e.Twin e') : checkActive e' = checkActive e := by
  unfold checkActive
  rw [h.phase_eq]

theorem EncContext.Twin.fresh (h : e.Twin e') : e.fresh.Twin e'.fresh := by
  obtain ⟨m, rfl, hm⟩ := h
  exact ⟨m, rfl, hm.mono (Nat.zero_le _)⟩

end EncTwin

theorem encUpdate_alike {cap : Nat} (bit : Bool) (p : Nat) {e e' : EncContext} (h : e.Twin e') :
    EndAlike EncContext.Twin (encUpdate cap bit p e) (encUpdate cap bit p e') := by
  obtain ⟨m, rfl, hm⟩ := h
  cases bit with
  | false => exact .ok ⟨m, rfl, hm⟩
  | true =>
    refine .ite (fun _ => ?_) fun _ => ?_
    · refine .bind_same fun low => ?_
      exact (addCarry_alike hm le_rfl).bind fun _ m1 h1 => .ok ⟨m1, rfl, h1⟩
    · exact .bind_same fun low => .ok ⟨m, rfl, hm⟩

theorem encShift_alike {cap : Nat} {e e' : EncContext} (h : e.Twin e') :
    EndAlike EncContext.Twin (encShift cap e) (encShift cap e') := by
  obtain ⟨m, rfl, hm⟩ := h
  refine .bind_same fun low => .ite (fun _ => .ite (fun _ => .error _) fun _ => ?_) fun _ => ?_
  · exact (hm.store_append cap _).bind fun _ m1 h1 => .ok ⟨m1, rfl, h1⟩
  · exact .ok ⟨m, rfl, hm⟩

theorem encRenorm_alike {cap : Nat} : ∀ {n : Nat} {e e' : EncContext}, e.Twin e' →
    EndAlike EncContext.Twin (encRenorm cap n e) (encRenorm cap n e') := by
  intro n
  induction n with
  | zero =>
    intro e e' h
    unfold encRenorm
    rw [h.range_eq]
    exact .ite (fun _ => .error _) fun _ => .ok h
  | succ n ih =>
    intro e e' h
    unfold encRenorm
    rw [h.range_eq]
    exact .ite (fun _ => (encShift_alike h).bind fun _ _ h1 => ih h1) fun _ => .ok h

theorem encodeBool_alike {cap : Nat} (bit : Bool) (p : Nat) {e e' : EncContext} (h : e.Twin e') :
    EndAlike EncContext.Twin (encodeBool cap bit p e) (encodeBool cap bit p e') := by
  unfold encodeBool
  rw [h.range_eq]
  exact .ite (fun _ => .error _) fun _ =>
    (encUpdate_alike bit p h).bind fun _ _ h1 => encRenorm_alike h1

theorem putBits_alike {cap v : Nat} : ∀ {n : Nat} {e e' : EncContext}, e.Twin e' →
    EndAlike EncContext.Twin (putBits cap v n e) (putBits cap v n e') := by
  intro n
  induction n with
  | zero => exact fun h => .ok h
  | succ n ih => exact fun h => (encodeBool_alike _ 128 h).bind fun _ _ h1 => ih h1

theorem encFlush_alike {cap : Nat} {e e' : EncContext} (h : e.Twin e') :
    EndAlike EncContext.Twin (encFlush cap e) (encFlush cap e') := by
  obtain ⟨m, rfl, hm⟩ := h
  refine .ite (fun _ => .ite (fun _ => .error _) fun _ => ?_)
    fun _ => .ite (fun _ => .error _) fun _ => .bind_same fun v => ?_
  · exact (hm.store_append cap _).bind fun _ m1 h1 => .ok ⟨m1, rfl, h1⟩
  · refine (hm.store_append cap _).bind fun _ _ h1 => ?_
    exact (h1.store_append cap _).bind fun _ m2 h2 => .ok ⟨m2, rfl, h2⟩

/-! ### The decoder -/

/-- Decoder contexts that differ at most in bytes at or above `D.len`. -/
def DecContext.Twin (d d' : DecContext) : Prop :=
  ∃ m, d' = { d with buf := m } ∧ d.buf.Twin d.len m

/-- A decoded value beside the context after it: the values are equal, the contexts twins. -/
def ReadAlike {α : Type} (x y : α × DecContext) : Prop := x.1 = y.1 ∧ x.2.Twin y.2

section DecTwin

variable {d d' : DecContext}

theorem DecContext.Twin.range_eq (h : d.Twin d') : d'.range = d.range := by
  obtain ⟨_, rfl, _⟩ := h
  rfl

theorem DecContext.Twin.len_eq (h : d.Twin d') : d'.len = d.len := by
  obtain ⟨_, rfl, _⟩ := h
  rfl

theorem DecContext.Twin.phase_eq (h : d.Twin d') : d'.phase = d.phase := by
  obtain ⟨_, rfl, _⟩ := h
  rfl

theorem DecContext.Twin.buf (h : d.Twin d') : d.buf.Twin d.len d'.buf := by
  obtain ⟨_, rfl, hm⟩ := h
  exact hm

theorem DecContext.Twin.checkLoading_eq (h : d.Twin d') : checkLoading d' = checkLoading d := by
  unfold checkLoading
  rw [h.phase_eq]

theorem DecContext.Twin.checkDecoding_eq (h : d.Twin d') :
    checkDecoding d' = checkDecoding d := by
  unfold checkDecoding
  rw [h.phase_eq]

/-- With another stream of `n` live bytes, as a byte load leaves it (R132). -/
theorem DecContext.Twin.withStream (h : d.Twin d') {n : Nat} {m m' : Memory} (hm : m.Twin n m') :
    DecContext.Twin { d with buf := m, len := n } { d' with buf := m', len := n } := by
  obtain ⟨_, rfl, _⟩ := h
  exact ⟨m', rfl, hm⟩

/-- With another stream of `n` live bytes and nothing decoded (R133). -/
theorem DecContext.Twin.loaded (h : d.Twin d') {n : Nat} {m m' : Memory} (hm : m.Twin n m') :
    (DecContext.loaded { d with buf := m } n).Twin (DecContext.loaded { d' with buf := m' } n) := by
  obtain ⟨_, rfl, _⟩ := h
  exact ⟨m', rfl, hm⟩

/-- An emptied stream has no live byte (R131). -/
theorem DecContext.Twin.cleared (h : d.Twin d') : (d.loaded 0).Twin (d'.loaded 0) :=
  h.loaded (h.buf.mono (Nat.zero_le _))

end DecTwin

/-- `NextByte` reads below `D.len` only (R136). -/
theorem nextByte_alike {cap : Nat} {d d' : DecContext} (h : d.Twin d') :
    EndAlike ReadAlike (nextByte cap d) (nextByte cap d') := by
  obtain ⟨m, rfl, hm⟩ := h
  refine .ite (fun hlt => ?_) fun _ => .ok ⟨rfl, m, rfl, hm⟩
  rw [hm.load_eq hlt]
  exact .bind_same fun v => .ok ⟨rfl, m, rfl, hm⟩

theorem decShift_alike {cap : Nat} {d d' : DecContext} (h : d.Twin d') :
    EndAlike DecContext.Twin (decShift cap d) (decShift cap d') := by
  have hnext := nextByte_alike (cap := cap) h
  obtain ⟨m, rfl, hm⟩ := h
  refine .ite (fun _ => hnext.bind ?_) fun _ => .ok ⟨m, rfl, hm⟩
  rintro ⟨v, d1⟩ ⟨_, _⟩ ⟨rfl, m1, rfl, h1⟩
  exact .ok ⟨m1, rfl, h1⟩

theorem decRenorm_alike {cap : Nat} : ∀ {n : Nat} {d d' : DecContext}, d.Twin d' →
    EndAlike DecContext.Twin (decRenorm cap n d) (decRenorm cap n d') := by
  intro n
  induction n with
  | zero =>
    intro d d' h
    unfold decRenorm
    rw [h.range_eq]
    exact .ite (fun _ => .error _) fun _ => .ok h
  | succ n ih =>
    intro d d' h
    unfold decRenorm
    rw [h.range_eq]
    exact .ite (fun _ => (decShift_alike h).bind fun _ _ h1 => ih h1) fun _ => .ok h

/-- The interval update does not look at DBUF. -/
theorem decUpdate_alike (p : Nat) {d d' : DecContext} (h : d.Twin d') :
    ReadAlike (decUpdate p d) (decUpdate p d') := by
  obtain ⟨m, rfl, hm⟩ := h
  unfold decUpdate
  simp only
  split <;> exact ⟨rfl, m, rfl, hm⟩

theorem decodeBool_alike {cap : Nat} (p : Nat) {d d' : DecContext} (h : d.Twin d') :
    EndAlike ReadAlike (decodeBool cap p d) (decodeBool cap p d') := by
  obtain ⟨hbit, hupd⟩ := decUpdate_alike p h
  unfold decodeBool
  rw [h.range_eq, ← hbit]
  exact .ite (fun _ => .error _) fun _ =>
    (decRenorm_alike hupd).bind fun _ _ h1 => .ok ⟨rfl, h1⟩

theorem getBits_alike {cap : Nat} : ∀ {n v : Nat} {d d' : DecContext}, d.Twin d' →
    EndAlike ReadAlike (getBits cap n v d) (getBits cap n v d') := by
  intro n
  induction n with
  | zero => exact fun h => .ok ⟨rfl, h⟩
  | succ n ih =>
    intro v d d' h
    refine (decodeBool_alike 128 h).bind ?_
    rintro ⟨bit, d1⟩ ⟨_, d1'⟩ ⟨rfl, h1⟩
    exact ih h1

theorem decStart_alike {cap : Nat} {d d' : DecContext} (h : d.Twin d') :
    EndAlike DecContext.Twin (decStart cap d) (decStart cap d') := by
  obtain ⟨m, rfl, hm⟩ := h
  have hstart : DecContext.Twin { d with pos := 0, range := 255 }
      { d with pos := 0, range := 255, buf := m } := ⟨m, rfl, hm⟩
  refine (nextByte_alike hstart).bind ?_
  rintro ⟨hi, d1⟩ ⟨_, d1'⟩ ⟨rfl, h1⟩
  refine (nextByte_alike h1).bind ?_
  rintro ⟨lo, d2⟩ ⟨_, _⟩ ⟨rfl, m2, rfl, h2⟩
  exact .ok ⟨m2, rfl, h2⟩

/-! ### States -/

/-- The relation of R41 with the canonical form of the four memories, which is what makes a byte
written to both of them read back from both. -/
def State.Twin (s t : State) : Prop :=
  ∃ e d, t = (s.setEnc e).setDec d ∧ s.enc.Twin e ∧ s.dec.Twin d

theorem State.SameLive.twin {s t : State} (h : s.SameLive t) (hs : s.Inv) (ht : t.Inv) :
    s.Twin t := by
  obtain ⟨heq, henc, hdec⟩ := h
  obtain ⟨-, ⟨-, -, -, -, hse, -⟩, -, -, -, -, hsd, -⟩ := hs
  obtain ⟨-, ⟨-, -, -, -, hte, -⟩, -, -, -, -, htd, -⟩ := ht
  exact ⟨_, _, heq, ⟨_, rfl, hse, hte, henc⟩, _, rfl, hsd, htd, hdec⟩

theorem State.Twin.sameLive {s t : State} (h : s.Twin t) : s.SameLive t := by
  obtain ⟨_, _, rfl, ⟨m, rfl, hm⟩, m', rfl, hm'⟩ := h
  exact ⟨rfl, hm.agree, hm'.agree⟩

section StateTwin

variable {s t : State}

theorem State.Twin.enc (h : s.Twin t) : s.enc.Twin t.enc := by
  obtain ⟨_, _, rfl, he, _⟩ := h
  exact he

theorem State.Twin.dec (h : s.Twin t) : s.dec.Twin t.dec := by
  obtain ⟨_, _, rfl, _, hd⟩ := h
  exact hd

theorem State.Twin.blk_eq (h : s.Twin t) : t.blk = s.blk := by
  obtain ⟨_, _, rfl, _⟩ := h
  rfl

theorem State.Twin.scr_eq (h : s.Twin t) : t.scr = s.scr := by
  obtain ⟨_, _, rfl, _⟩ := h
  rfl

theorem State.Twin.cap_eq (h : s.Twin t) : t.cap = s.cap := by
  obtain ⟨_, _, rfl, _⟩ := h
  rfl

theorem State.Twin.port_eq (h : s.Twin t) : t.port = s.port := by
  obtain ⟨_, _, rfl, _⟩ := h
  rfl

theorem State.Twin.responses_eq (h : s.Twin t) : t.responses = s.responses := by
  obtain ⟨_, _, rfl, _⟩ := h
  rfl

theorem State.Twin.setEnc (h : s.Twin t) {e e' : EncContext} (he : e.Twin e') :
    (s.setEnc e).Twin (t.setEnc e') := by
  obtain ⟨_, d, rfl, _, hd⟩ := h
  exact ⟨e', d, rfl, he, hd⟩

theorem State.Twin.setDec (h : s.Twin t) {d d' : DecContext} (hd : d.Twin d') :
    (s.setDec d).Twin (t.setDec d') := by
  obtain ⟨e, _, rfl, he, _⟩ := h
  exact ⟨e, d', rfl, he, hd⟩

theorem State.Twin.setBlk (h : s.Twin t) (b : Block) :
    (s.setBlk b).Twin (t.setBlk b) := by
  obtain ⟨e, d, rfl, he, hd⟩ := h
  exact ⟨e, d, rfl, he, hd⟩

theorem State.Twin.setPort (h : s.Twin t) (p : List PortEvent) :
    (s.setPort p).Twin (t.setPort p) := by
  obtain ⟨e, d, rfl, he, hd⟩ := h
  exact ⟨e, d, rfl, he, hd⟩

theorem State.Twin.respond (h : s.Twin t) (st : Status) (rw : ResultWord) :
    (s.respond st rw).Twin (t.respond st rw) := by
  obtain ⟨e, d, rfl, he, hd⟩ := h
  exact ⟨e, d, rfl, he, hd⟩

theorem State.Twin.restart (h : s.Twin t) : s.restart.Twin t.restart := by
  obtain ⟨e, d, rfl, he, hd⟩ := h
  exact ⟨e.fresh, d.loaded 0, rfl, he.fresh, hd.cleared⟩

theorem State.Twin.twoPass (h : s.Twin t) (f1 f2 : Quad Int → Quad Int)
    (q : Int → Int) : (twoPass f1 f2 q s).Twin (twoPass f1 f2 q t) := by
  obtain ⟨e, d, rfl, he, hd⟩ := h
  exact ⟨e, d, rfl, he, hd⟩

end StateTwin

/-! ### Commands -/

/-- A command's result: the states made are twins, the values returned are equal. -/
def ResultAlike (x y : State × Int) : Prop := x.1.Twin y.1 ∧ x.2 = y.2

/-- Two steps end alike: in twins, or with the same fault. -/
inductive StepAlike : Host.Outcome State Fault Refusal → Host.Outcome State Fault Refusal → Prop where
  | next {s t : State} (h : s.Twin t) : StepAlike (.next s) (.next t)
  | fault (f : Fault) : StepAlike (.fault f) (.fault f)

/-- The answer to a command shows nothing but its result (R15, R212). -/
theorem complete_alike {s t : State} (h : s.Twin t) {x y : Except Stop (State × Int)}
    (hxy : EndAlike ResultAlike x y) : StepAlike (complete s x) (complete t y) := by
  cases hxy with
  | ok hab =>
    obtain ⟨htwin, hval⟩ := hab
    simp only [complete, hval]
    exact .next (htwin.respond _ _)
  | error e =>
    cases e with
    | raise e => exact .next (h.respond _ _)
    | fault f => exact .fault f

section Commands

variable {s t : State}

/-- A command that always succeeds and returns the same value from twins. -/
theorem complete_ok_alike {s' t' : State} (h : s.Twin t) (h' : s'.Twin t') (v : Int) :
    StepAlike (complete s (.ok (s', v))) (complete t (.ok (t', v))) :=
  complete_alike h (.ok ⟨h', rfl⟩)

theorem execEncBool_alike (b : Bool) (p : Int) (h : s.Twin t) :
    StepAlike (execEncBool b p s) (execEncBool b p t) := by
  unfold execEncBool
  rw [h.cap_eq, h.enc.checkActive_eq]
  exact complete_alike h <| .bind_same fun _ => .bind_same fun _ =>
    (encodeBool_alike b _ h.enc).bind fun _ _ he => .ok ⟨h.setEnc he, rfl⟩

theorem execEncFinish_alike (h : s.Twin t) : StepAlike (execEncFinish s) (execEncFinish t) := by
  unfold execEncFinish
  rw [h.cap_eq, h.enc.phase_eq, h.enc.len_eq]
  refine complete_alike h ?_
  cases s.enc.phase with
  | finished => exact .ok ⟨h, rfl⟩
  | active =>
    exact (encFlush_alike h.enc).bind fun e e' he => .ok ⟨h.setEnc he, by rw [he.len_eq]⟩

theorem execEncLen_alike (h : s.Twin t) : StepAlike (execEncLen s) (execEncLen t) := by
  unfold execEncLen
  rw [h.enc.len_eq]
  exact complete_ok_alike h h _

/-- `ENC.RDB` is refused at and above `E.len`, so it shows live bytes only (R125). -/
theorem execEncRdb_alike (idx : Nat) (h : s.Twin t) :
    StepAlike (execEncRdb idx s) (execEncRdb idx t) := by
  unfold execEncRdb
  rw [h.cap_eq, h.enc.len_eq]
  refine complete_alike h <| .ite (fun _ => .error _) fun hlt => ?_
  rw [h.enc.buf.load_eq (by omega)]
  exact .bind_same fun v => .ok ⟨h, rfl⟩

theorem execDecWrb_alike (byte : Byte) (h : s.Twin t) :
    StepAlike (execDecWrb byte s) (execDecWrb byte t) := by
  unfold execDecWrb
  rw [h.cap_eq, h.dec.checkLoading_eq, h.dec.len_eq]
  refine complete_alike h <| .bind_same fun _ => .ite (fun _ => .error _) fun _ => ?_
  exact (h.dec.buf.store_append _ _).bind fun _ _ hm =>
    .ok ⟨h.setDec (h.dec.withStream hm), rfl⟩

theorem execDecInit_alike (h : s.Twin t) : StepAlike (execDecInit s) (execDecInit t) := by
  unfold execDecInit
  rw [h.cap_eq]
  exact complete_alike h <| (decStart_alike h.dec).bind fun _ _ hd => .ok ⟨h.setDec hd, rfl⟩

theorem execDecBool_alike (p : Int) (h : s.Twin t) :
    StepAlike (execDecBool p s) (execDecBool p t) := by
  unfold execDecBool
  rw [h.cap_eq, h.dec.checkDecoding_eq]
  refine complete_alike h <| .bind_same fun _ => .bind_same fun _ =>
    (decodeBool_alike _ h.dec).bind ?_
  rintro ⟨bit, d⟩ ⟨_, d'⟩ ⟨rfl, hd⟩
  exact .ok ⟨h.setDec hd, rfl⟩

/-- `DEC.LDENC` copies live bytes only, and what it copied is all that is live then (R133). -/
theorem execDecLdenc_alike (h : s.Twin t) : StepAlike (execDecLdenc s) (execDecLdenc t) := by
  unfold execDecLdenc
  rw [h.cap_eq, h.enc.len_eq]
  refine complete_alike h ?_
  refine (copyBytes_alike h.enc.buf (h.dec.buf.mono (Nat.zero_le _)) le_rfl).bind fun _ _ hm => ?_
  exact .ok ⟨h.setDec (h.dec.loaded hm), rfl⟩

theorem execLitPutu_alike (n : Int) (v : Nat) (h : s.Twin t) :
    StepAlike (execLitPutu n v s) (execLitPutu n v t) := by
  unfold execLitPutu
  rw [h.cap_eq, h.enc.checkActive_eq]
  exact complete_alike h <| .bind_same fun _ => .bind_same fun _ =>
    (putBits_alike h.enc).bind fun _ _ he => .ok ⟨h.setEnc he, rfl⟩

theorem execLitPuts_alike (n v : Int) (h : s.Twin t) :
    StepAlike (execLitPuts n v s) (execLitPuts n v t) := by
  unfold execLitPuts
  rw [h.cap_eq, h.enc.checkActive_eq]
  exact complete_alike h <| .bind_same fun _ => .bind_same fun _ =>
    (encodeBool_alike _ 128 h.enc).bind fun _ _ h1 =>
      (putBits_alike h1).bind fun _ _ he => .ok ⟨h.setEnc he, rfl⟩

theorem execLitGetu_alike (n : Int) (h : s.Twin t) :
    StepAlike (execLitGetu n s) (execLitGetu n t) := by
  unfold execLitGetu
  rw [h.cap_eq, h.dec.checkDecoding_eq]
  refine complete_alike h <| .bind_same fun _ => .bind_same fun _ => (getBits_alike h.dec).bind ?_
  rintro ⟨v, d⟩ ⟨_, d'⟩ ⟨rfl, hd⟩
  exact .ok ⟨h.setDec hd, rfl⟩

theorem execLitGets_alike (n : Int) (h : s.Twin t) :
    StepAlike (execLitGets n s) (execLitGets n t) := by
  unfold execLitGets
  rw [h.cap_eq, h.dec.checkDecoding_eq]
  refine complete_alike h <| .bind_same fun _ => .bind_same fun _ =>
    (decodeBool_alike 128 h.dec).bind ?_
  rintro ⟨neg, d⟩ ⟨_, d'⟩ ⟨rfl, hd⟩
  refine (getBits_alike hd).bind ?_
  rintro ⟨v, d1⟩ ⟨_, d1'⟩ ⟨rfl, hd1⟩
  exact .ok ⟨h.setDec hd1, rfl⟩

theorem execBlkWr_alike (n v : Int) (h : s.Twin t) :
    StepAlike (execBlkWr n v s) (execBlkWr n v t) := by
  unfold execBlkWr
  rw [h.blk_eq]
  exact complete_alike h <| .bind_same fun _ => .ok ⟨h.setBlk _, rfl⟩

theorem execBlkRd_alike (n : Int) (h : s.Twin t) : StepAlike (execBlkRd n s) (execBlkRd n t) := by
  unfold execBlkRd
  rw [h.blk_eq]
  exact complete_alike h <| .bind_same fun _ => .ok ⟨h, rfl⟩

theorem execScrRd_alike (n : Int) (h : s.Twin t) : StepAlike (execScrRd n s) (execScrRd n t) := by
  unfold execScrRd
  rw [h.scr_eq]
  exact complete_alike h <| .bind_same fun _ => .ok ⟨h, rfl⟩

theorem execXfmDct0_alike (h : s.Twin t) : StepAlike (execXfmDct0 s) (execXfmDct0 t) := by
  unfold execXfmDct0
  rw [h.blk_eq]
  exact complete_ok_alike h h _

/-- Every command ends alike from twins. -/
theorem exec_alike (i : Instr) (h : s.Twin t) : StepAlike (exec i s) (exec i t) := by
  cases i with
  | nop => exact complete_ok_alike h h 0
  | reset => exact complete_ok_alike h h.restart 0
  | encInit => exact complete_ok_alike h (h.setEnc h.enc.fresh) 0
  | encBool b p => exact execEncBool_alike b p h
  | encFinish => exact execEncFinish_alike h
  | encLen => exact execEncLen_alike h
  | encRdb idx => exact execEncRdb_alike idx h
  | decClr => exact complete_ok_alike h (h.setDec h.dec.cleared) 0
  | decWrb byte => exact execDecWrb_alike byte h
  | decInit => exact execDecInit_alike h
  | decBool p => exact execDecBool_alike p h
  | decLdenc => exact execDecLdenc_alike h
  | litPutu n v => exact execLitPutu_alike n v h
  | litPuts n v => exact execLitPuts_alike n v h
  | litGetu n => exact execLitGetu_alike n h
  | litGets n => exact execLitGets_alike n h
  | blkWr n v => exact execBlkWr_alike n v h
  | blkRd n => exact execBlkRd_alike n h
  | scrRd n => exact execScrRd_alike n h
  | xfmWht => exact complete_ok_alike h (h.twoPass _ _ _) 0
  | xfmIwht => exact complete_ok_alike h (h.twoPass _ _ _) 0
  | xfmDct => exact complete_ok_alike h (h.twoPass _ _ _) 0
  | xfmIdct => exact complete_ok_alike h (h.twoPass _ _ _) 0
  | xfmDct0 => exact execXfmDct0_alike h
  | cscRgb2yuv rgb => exact complete_ok_alike h h _
  | cscYuv2rgb yuv => exact complete_ok_alike h h _

theorem execWord_alike (cw : CommandWord) (h : s.Twin t) :
    StepAlike (execWord cw s) (execWord cw t) := by
  unfold execWord
  cases decode cw with
  | ok i => exact exec_alike i h
  | error r => exact .next (h.respond _ _)

/-- Every port event is served alike from twins. -/
theorem step_alike (h : s.Twin t) : StepAlike (step s) (step t) := by
  unfold step
  rw [h.port_eq]
  match s.port with
  | [] => exact .next h
  | .command cw :: rest => exact execWord_alike cw (h.setPort rest)
  | .reset _ :: rest => exact .next (h.setPort rest).restart

end Commands

/-- Settles O59: twins step alike, whatever the event at the port. -/
theorem deadBytesAreUnobservable : Obligations.DeadBytesAreUnobservable := by
  intro s t s' hs ht hlive hstep
  have halike := step_alike (hlive.twin hs ht)
  rw [hstep] at halike
  generalize hout : step t = out at halike
  cases halike with
  | next htwin => exact ⟨_, rfl, htwin.sameLive, htwin.responses_eq⟩

end Sys2Proof.Machine

/-! The layout of a command word as arithmetic on its number (R70), and the opcode map (R76). -/

namespace Sys2Proof

/-- A field above `w` bits is weighed by `2 ^ w`. -/
theorem append_toNat {v w : Nat} (hi : BitVec v) (lo : BitVec w) :
    (hi ++ lo).toNat = hi.toNat * 2 ^ w + lo.toNat := by
  rw [BitVec.toNat_append, ← Nat.shiftLeft_add_eq_or_of_lt lo.isLt, Nat.shiftLeft_eq]

/-- A field read off at bit `start` is what division leaves above that bit. -/
theorem extractLsb'_toNat_div (start len : Nat) (cw : CommandWord) :
    (cw.extractLsb' start len).toNat = cw.toNat / 2 ^ start % 2 ^ len := by
  rw [BitVec.extractLsb'_toNat, Nat.shiftRight_eq_div_pow]

theorem unpack_op_toNat (cw : CommandWord) : (unpack cw).op.toNat = cw.toNat / 2 ^ 56 := by
  have htop : cw.toNat / 2 ^ 56 < 2 ^ 8 := Nat.div_lt_of_lt_mul cw.isLt
  exact (extractLsb'_toNat_div 56 8 cw).trans (Nat.mod_eq_of_lt htop)

theorem unpack_nf_toNat (cw : CommandWord) :
    (unpack cw).nf.toNat = cw.toNat / 2 ^ 48 % 2 ^ 8 := extractLsb'_toNat_div 48 8 cw

theorem unpack_rsv_toNat (cw : CommandWord) :
    (unpack cw).rsv.toNat = cw.toNat / 2 ^ 33 % 2 ^ 15 := extractLsb'_toNat_div 33 15 cw

theorem unpack_b_toNat (cw : CommandWord) :
    (unpack cw).b.toNat = cw.toNat / 2 ^ 32 % 2 := extractLsb'_toNat_div 32 1 cw

theorem unpack_imm_toNat (cw : CommandWord) :
    (unpack cw).imm.toNat = cw.toNat % 2 ^ 32 := by
  have himm := extractLsb'_toNat_div 0 32 cw
  rwa [Nat.pow_zero, Nat.div_one] at himm

/-- The fields of a word, each weighed by the place of its lowest bit (R70). -/
theorem pack_toNat (f : CommandFields) :
    (pack f).toNat = f.op.toNat * 2 ^ 56 + f.nf.toNat * 2 ^ 48 + f.rsv.toNat * 2 ^ 33 +
      f.b.toNat * 2 ^ 32 + f.imm.toNat := by
  simp only [pack, append_toNat]
  omega

/-- Settles O1: reading a field is a division and a remainder, appending one is a weighted sum. -/
theorem fieldsStandAtTheirBits : Obligations.FieldsStandAtTheirBits :=
  ⟨fun cw => ⟨unpack_op_toNat cw, unpack_nf_toNat cw, unpack_rsv_toNat cw, unpack_b_toNat cw,
    unpack_imm_toNat cw⟩, pack_toNat⟩

/-- Settles O2: the map is a closed table of 26 rows, so evaluating its five columns decides it. -/
theorem opcodeMapAsPrinted : Obligations.OpcodeMapAsPrinted := by
  unfold Obligations.OpcodeMapAsPrinted
  decide

end Sys2Proof

/-! The words with `op = 0x00`, of which only the all-zero one is a command (R75, R77, R100). -/

namespace Sys2Proof

@[simp] theorem pack_unpack (cw : CommandWord) : pack (unpack cw) = cw := by
  apply BitVec.eq_of_toNat_eq
  rw [pack_toNat, unpack_op_toNat, unpack_nf_toNat, unpack_rsv_toNat, unpack_b_toNat,
    unpack_imm_toNat]
  omega

/-- With the row known, only the fields that must be zero decide (R77). -/
theorem decode_of_op_eq {cw : CommandWord} {m : Mnemonic} (hop : (unpack cw).op = m.op) :
    decode cw = if (unpack cw).rsv ≠ 0 then .error .reservedBitsSet
      else if m.format.unusedZero (unpack cw) then .ok (m.assemble (unpack cw))
      else .error .unusedFieldSet := by
  simp only [decode, hop, ofOp_op]

/-- Only `imm`, `b` and `nf` are left to a word of format Z, and all three must be zero (R71). -/
theorem unusedZero_z_iff (f : CommandFields) :
    Format.z.unusedZero f = true ↔ f.nf = 0 ∧ f.b = 0 ∧ f.imm = 0 := by
  simp [Format.unusedZero, and_assoc]

/-- A word that passes both tests of the decoder in the row of an operandless command is the row's
`match`, the only word of that command. -/
theorem eq_matchWord_of_fields_zero {cw : CommandWord} {m : Mnemonic} (hop : (unpack cw).op = m.op)
    (hrsv : (unpack cw).rsv = 0) (hzero : Format.z.unusedZero (unpack cw) = true) :
    cw = m.matchWord := by
  obtain ⟨hnf, hb, himm⟩ := (unusedZero_z_iff _).mp hzero
  calc cw = pack (unpack cw) := (pack_unpack cw).symm
    _ = pack ⟨m.op, 0, 0, 0, 0⟩ := by rw [← hop, ← hnf, ← hrsv, ← hb, ← himm]
    _ = m.matchWord := (matchWord_eq_pack m).symm

/-- In the row of an operandless command every word but the row's `match` is illegal. -/
theorem decode_error_of_ne_matchWord {cw : CommandWord} {m : Mnemonic} (hop : (unpack cw).op = m.op)
    (hz : m.format = .z) (hne : cw ≠ m.matchWord) : ∃ r, decode cw = .error r := by
  rw [decode_of_op_eq hop, hz]
  by_cases hrsv : (unpack cw).rsv = 0
  · have hused : ¬ Format.z.unusedZero (unpack cw) = true :=
      fun hzero => hne (eq_matchWord_of_fields_zero hop hrsv hzero)
    exact ⟨.unusedFieldSet, by rw [if_neg (not_not.mpr hrsv), if_neg hused]⟩
  · exact ⟨.reservedBitsSet, if_pos hrsv⟩

end Sys2Proof

/-! What a step does with each kind of port event (R74, R75, R213, R240). -/

namespace Sys2Proof.Machine

theorem step_of_command {s : State} {cw : CommandWord} {rest : List PortEvent}
    (hport : s.port = .command cw :: rest) : step s = execWord cw (s.setPort rest) := by
  simp only [step, hport]

theorem step_of_reset {s : State} {c : Option CommandWord} {rest : List PortEvent}
    (hport : s.port = .reset c :: rest) : step s = .next (s.setPort rest).restart := by
  simp only [step, hport, resetEvent]

theorem execWord_of_decode_error {cw : CommandWord} {r : DecodeReject} (h : decode cw = .error r)
    (s : State) : execWord cw s = .next (s.respond (.err .illegal) 0) := by
  simp only [execWord, h, illegalWord, complete_raise]

theorem exec_nop (s : State) : exec .nop s = .next (s.respond .ok 0) := rfl

theorem exec_reset (s : State) : exec .reset s = .next (s.restart.respond .ok 0) := rfl

/-- Settles O22: NOP is the one operandless row whose `op` is zero, and its `match` is the all-zero
word. -/
theorem nopChangesNothing : Obligations.NopChangesNothing := by
  refine ⟨by decide, fun cw hop hne s rest hport => ?_, exec_nop⟩
  have hrow : (unpack cw).op = Mnemonic.nop.op :=
    BitVec.eq_of_toNat_eq ((unpack_op_toNat cw).trans hop)
  have hmatch : Mnemonic.nop.matchWord = 0 := by decide
  obtain ⟨r, hreject⟩ := decode_error_of_ne_matchWord hrow rfl (hmatch ▸ hne)
  rw [step_of_command hport]
  exact execWord_of_decode_error hreject _

/-! ### The reset values (R42, R101, R240) -/

theorem State.restart_atResetValues (s : State) : s.restart.AtResetValues := by
  have hblocks : ∀ i, i < 16 → s.restart.blk.get i = 0 ∧ s.restart.scr.get i = 0 :=
    fun i hi => ⟨Block.zero_get hi, Block.zero_get hi⟩
  exact ⟨rfl, rfl, rfl, rfl, rfl, rfl, rfl, rfl, rfl, rfl, rfl, hblocks⟩

/-- A response touches no state element of R20. -/
theorem State.AtResetValues.respond {s : State} (h : s.AtResetValues) (st : Status)
    (rw : ResultWord) : (s.respond st rw).AtResetValues := h

/-- Settles O23: the command and the event both restart; the command then answers. -/
theorem resetCommandRestoresS0 : Obligations.ResetCommandRestoresS0 := by
  refine ⟨by decide, fun s => ⟨s.restart.respond .ok 0, exec_reset s, ?_, ?_, ?_, ?_, fun c => ?_⟩⟩
  · exact s.restart_atResetValues.respond .ok 0
  · rw [State.respond_responses, State.restart_responses]
  · rw [State.respond_port, State.restart_port]
  · rw [State.respond_cap, State.restart_cap]
  · exact step_of_reset rfl

end Sys2Proof.Machine

/-! The encoder as the unbounded coder of R85 held in bounded registers (R120, R121). -/

namespace Sys2Proof.Machine

/-! ### The unbounded coder (R85) -/

/-- The interval update of one decision, before the doublings. -/
def UnboundedCoder.select (u : UnboundedCoder) (bit : Bool) (p : Nat) : UnboundedCoder :=
  ⟨intervalAfter u.range p bit, u.low + addedToLow u.range p bit, u.shifts⟩

/-- One turn of the loop of R85. -/
def UnboundedCoder.double (u : UnboundedCoder) : UnboundedCoder :=
  ⟨u.range * 2, u.low * 2, u.shifts + 1⟩

theorem UnboundedCoder.decide_eq (u : UnboundedCoder) (bit : Bool) (p : Nat) :
    u.decide (bit, p) = renorm 7 (u.select bit p) := by
  cases bit <;> rfl

theorem UnboundedCoder.renorm_of_ge {u : UnboundedCoder} (h : 128 ≤ u.range) (n : Nat) :
    renorm n u = u := by
  cases n with
  | zero => rfl
  | succ n => exact if_neg (by omega)

theorem UnboundedCoder.renorm_succ_of_lt {u : UnboundedCoder} (h : u.range < 128) (n : Nat) :
    renorm (n + 1) u = renorm n u.double := if_pos h

theorem UnboundedCoder.shifts_le_renorm : ∀ (n : Nat) (u : UnboundedCoder),
    u.shifts ≤ (renorm n u).shifts := by
  intro n
  induction n with
  | zero => exact fun _ => le_rfl
  | succ n ih =>
    intro u
    by_cases h : u.range < 128
    · rw [renorm_succ_of_lt h]
      exact (Nat.le_succ _).trans (ih u.double)
    · rw [renorm_of_ge (by omega)]

theorem UnboundedCoder.le_range_renorm : ∀ {n : Nat} {u : UnboundedCoder},
    128 ≤ u.range * 2 ^ n → 128 ≤ (renorm n u).range := by
  intro n
  induction n with
  | zero => intro u h; simpa [renorm] using h
  | succ n ih =>
    intro u h
    by_cases hlt : u.range < 128
    · rw [renorm_succ_of_lt hlt]
      refine ih ?_
      rwa [double, Nat.mul_assoc, ← Nat.pow_succ']
    · rw [renorm_of_ge (by omega)]
      omega

theorem doublings_of_ge {r : Nat} (h : 128 ≤ r) : doublings r = 0 := by
  have hlog : 7 ≤ Nat.log2 r := (Nat.le_log2 (by omega)).mpr h
  unfold doublings
  omega

theorem doublings_of_lt {r : Nat} (hpos : 1 ≤ r) (hlt : r < 128) :
    doublings r = doublings (r * 2) + 1 := by
  have hlog : Nat.log2 r < 7 := (Nat.log2_lt (by omega)).mpr hlt
  have htwice : Nat.log2 (r * 2) = Nat.log2 r + 1 := by
    rw [Nat.mul_comm]
    exact Nat.log2_two_mul (by omega)
  unfold doublings
  omega

/-- The loop in closed form: `doublings` turns, whatever the fuel beyond them (R117). -/
theorem UnboundedCoder.renorm_eq_doublings : ∀ {n : Nat} {u : UnboundedCoder}, 1 ≤ u.range →
    doublings u.range ≤ n →
    renorm n u = ⟨u.range * 2 ^ doublings u.range, u.low * 2 ^ doublings u.range,
      u.shifts + doublings u.range⟩ := by
  intro n
  induction n with
  | zero =>
    intro u _ hn
    rw [Nat.le_zero.mp hn]
    simp [renorm]
  | succ n ih =>
    intro u hpos hn
    by_cases hlt : u.range < 128
    · have hk := doublings_of_lt hpos hlt
      rw [renorm_succ_of_lt hlt, ih (u := u.double) (by simp only [double]; omega)
        (by simp only [double]; omega), hk]
      simp only [double, pow_succ', Nat.mul_assoc, mk.injEq, true_and]
      omega
    · rw [renorm_of_ge (by omega), doublings_of_ge (by omega)]
      simp

/-! ### The interval update (R111, R122) -/

/-- The product of R111 is less than `range - 1` whole units of 256. -/
theorem split_quotient_lt {range p : Nat} (hr : 2 ≤ range) (hp : p ≤ 255) :
    (range - 1) * p / 256 < range - 1 := by
  have hprod : (range - 1) * p ≤ (range - 1) * 255 := Nat.mul_le_mul_left _ hp
  omega

theorem splitAt_bounds {range p : Nat} (hr : 2 ≤ range) (hp : p ≤ 255) :
    1 ≤ splitAt range p ∧ splitAt range p ≤ range - 1 := by
  have hq := split_quotient_lt hr hp
  unfold splitAt
  omega

theorem intervalAfter_eq (range p : Nat) (bit : Bool) :
    intervalAfter range p bit = if bit then range - splitAt range p else splitAt range p := rfl

theorem addedToLow_eq (range p : Nat) (bit : Bool) :
    addedToLow range p bit = if bit then splitAt range p else 0 := rfl

theorem intervalAfter_bounds {range p : Nat} (hr : 2 ≤ range) (hp : p ≤ 255) (bit : Bool) :
    1 ≤ intervalAfter range p bit ∧ intervalAfter range p bit ≤ range - 1 := by
  have hsplit := splitAt_bounds hr hp
  rw [intervalAfter_eq]
  cases bit
  · exact hsplit
  · simp only [if_true]
    omega

/-- The part selected ends no higher than the whole interval did. -/
theorem addedToLow_add_intervalAfter_le {range p : Nat} (hr : 2 ≤ range) (hp : p ≤ 255)
    (bit : Bool) : addedToLow range p bit + intervalAfter range p bit ≤ range := by
  have hsplit := splitAt_bounds hr hp
  rw [intervalAfter_eq, addedToLow_eq]
  cases bit
  · simp only [Bool.false_eq_true, if_false]
    omega
  · simp only [if_true]
    omega

/-- Seven doublings suffice for every interval that an update leaves (R117, R122). -/
theorem UnboundedCoder.le_range_decide {u : UnboundedCoder} {bit : Bool} {p : Nat}
    (hr : 2 ≤ u.range) (hp : p ≤ 255) : 128 ≤ (u.decide (bit, p)).range := by
  have hpos := (intervalAfter_bounds hr hp bit).1
  rw [decide_eq]
  exact le_range_renorm (by simp only [select]; omega)

/-- One decision in closed form (R115, R117). -/
theorem UnboundedCoder.decide_eq_closed {u : UnboundedCoder} {bit : Bool} {p : Nat}
    (hr : 2 ≤ u.range) (hp : p ≤ 255) :
    let r := intervalAfter u.range p bit
    u.decide (bit, p) = ⟨r * 2 ^ doublings r, (u.low + addedToLow u.range p bit) * 2 ^ doublings r,
      u.shifts + doublings r⟩ := by
  have hpos := (intervalAfter_bounds hr hp bit).1
  rw [decide_eq]
  exact renorm_eq_doublings hpos (Nat.sub_le _ _)

/-! ### The registers that hold it (R120) -/

/-- The context holds the unbounded coder `u` in its registers and emitted bytes (R120, R121). The
interval size may be below 128, as it is within a decision. -/
structure EncContext.Holds (cap : Nat) (e : EncContext) (u : UnboundedCoder) : Prop where
  range_eq : e.range.toNat = u.range
  low_eq : e.lowFull = u.low
  shifts_eq : e.shifts = u.shifts
  low_lt : e.low.toNat < 2 ^ (8 + e.cnt.toNat)
  room : u.low + u.range ≤ 255 * 2 ^ u.shifts
  len_le : e.len ≤ cap
  buf_ok : e.buf.Ok cap

/-- The computation ends with a context that holds `u`, or with an overflow because the whole bytes
of `u` do not fit (R118). -/
inductive HoldsOrOverflows (cap : Nat) (u : UnboundedCoder) : Except Stop EncContext → Prop where
  | holds {e : EncContext} (h : e.Holds cap u) : HoldsOrOverflows cap u (.ok e)
  | overflows (h : cap < u.shifts / 8) : HoldsOrOverflows cap u (.error (.raise .overflow))

namespace EncContext

variable {cap : Nat} {e : EncContext} {u : UnboundedCoder}

/-- The registers of the machine, read as an unbounded coder. -/
def unbounded (e : EncContext) : UnboundedCoder := ⟨e.range.toNat, e.lowFull, e.shifts⟩

theorem Inv.holds (h : e.Inv cap) (hactive : e.phase = .active) : e.Holds cap e.unbounded := by
  obtain ⟨-, hlow, hroom, hlen, hbuf⟩ := h
  exact ⟨rfl, rfl, rfl, hlow, hroom hactive, hlen, hbuf⟩

theorem shifts_div_eight (e : EncContext) : e.shifts / 8 = e.len := by
  have := e.cnt.isLt
  unfold shifts
  omega

/-- The whole bytes of the coder are the emitted ones, so they fit. -/
theorem Holds.whole_bytes_le (h : e.Holds cap u) : u.shifts / 8 ≤ cap := by
  rw [← h.shifts_eq, shifts_div_eight]
  exact h.len_le

theorem two_pow_shifts (e : EncContext) :
    256 * 2 ^ e.shifts = 256 ^ e.len * 2 ^ (8 + e.cnt.toNat) := by
  rw [shifts, Nat.pow_add, Nat.pow_add, Nat.pow_mul]
  ring

/-- R120: with its interval the accumulator stays below the top byte, so a carry out of the working
part always finds a byte to land in (R116). -/
theorem Holds.carry_fits (h : e.Holds cap u) {add : Nat} (hadd : add < u.range)
    (htop : 2 ^ (8 + e.cnt.toNat) ≤ e.low.toNat + add) :
    streamNumber e.buf e.len + 1 < 256 ^ e.len := by
  have hroom := h.room
  rw [← h.low_eq, ← h.shifts_eq, lowFull] at hroom
  have hpos : 0 < 2 ^ e.shifts := Nat.two_pow_pos _
  refine Nat.lt_of_mul_lt_mul_right (a := 2 ^ (8 + e.cnt.toNat)) ?_
  rw [← two_pow_shifts, Nat.add_mul]
  omega

end EncContext

/-! ### AddCarry (R116) -/

/-- `AddCarry` answers whenever the sum fits the bytes. -/
theorem addCarry_answers {cap : Nat} : ∀ {n : Nat} {m : Memory}, n ≤ cap →
    streamNumber m n + 1 < 256 ^ n → ∃ m', addCarry cap m n = .ok m' := by
  intro n
  induction n with
  | zero => intro m _ h; simp [streamNumber] at h
  | succ n ih =>
    intro m hn h
    have hlt : n < cap := hn
    unfold addCarry
    rw [load_of_lt m hlt, ok_bind]
    split
    · next hff =>
      have hlow : streamNumber (m.write n 0x00) n = streamNumber m n :=
        streamNumber_congr fun a ha => Memory.read_write_ne _ (by omega)
      have hlast : (m.read n).toNat = 255 := by rw [hff]; rfl
      rw [store_of_lt m _ hlt, ok_bind]
      refine ih hlt.le ?_
      rw [hlow]
      simp only [streamNumber, hlast, pow_succ] at h
      omega
    · exact ⟨_, store_of_lt m _ hlt⟩

/-- A larger capacity changes nothing for an `AddCarry` that answers. -/
theorem addCarry_mono {cap cap' : Nat} (hcap : cap ≤ cap') : ∀ {n : Nat} {m m' : Memory},
    addCarry cap m n = .ok m' → addCarry cap' m n = .ok m' := by
  intro n
  induction n with
  | zero => intro m m' h; cases h
  | succ n ih =>
    intro m m' h
    unfold addCarry at h ⊢
    obtain ⟨v, hv, h⟩ := bind_eq_ok.1 h
    obtain ⟨hlt, rfl⟩ := load_eq_ok.1 hv
    have hlt' : n < cap' := hlt.trans_le hcap
    rw [load_of_lt m hlt', ok_bind]
    split at h
    · next hff =>
      rw [store_of_lt m _ hlt, ok_bind] at h
      rw [if_pos hff, store_of_lt m _ hlt', ok_bind]
      exact ih h
    · next hff =>
      rw [store_of_lt m _ hlt] at h
      rw [if_neg hff, store_of_lt m _ hlt']
      exact h

theorem Memory.below_mono {cap cap' : Nat} {m : Memory} (hcap : cap ≤ cap')
    (h : m.below cap = true) : m.below cap' = true := by
  simp only [below, List.all_eq_true, decide_eq_true_eq] at h ⊢
  exact fun c hc => (h c hc).trans_le hcap

/-- Every memory lies within some capacity, as large as one likes. -/
theorem Memory.exists_below (cap : Nat) (m : Memory) :
    ∃ cap', cap ≤ cap' ∧ m.below cap' = true := by
  induction m with
  | nil => exact ⟨cap, le_rfl, rfl⟩
  | cons c m ih =>
    obtain ⟨cap', hle, hm⟩ := ih
    exact ⟨max cap' (c.1 + 1), by omega,
      (below_cons _ _ _ _).2 ⟨by omega, below_mono (le_max_left _ _) hm⟩⟩

/-- Settles O25: `AddCarry` answers, and what it answers does not depend on a capacity beyond the
bytes it visits, so the inversion lemma applies at one that covers every listed cell. -/
theorem addCarryAddsOne : Obligations.AddCarryAddsOne := by
  intro cap m n hwf hn hfits
  obtain ⟨m', hm'⟩ := addCarry_answers hn hfits
  obtain ⟨cap', hle, hbelow⟩ := Memory.exists_below cap m
  obtain ⟨hok, hkeep, hnum⟩ := addCarry_spec ⟨hwf, hbelow⟩ (addCarry_mono hle hm')
  exact ⟨m', hm', hnum, hkeep, hok.1⟩

end Sys2Proof.Machine

/-! The boolean encoder's helpers and commands against the unbounded coder (R114 to R121). -/

namespace Sys2Proof.Machine

variable {cap : Nat} {e : EncContext} {u : UnboundedCoder}

theorem toNat_ofNat_of_lt {w n : Nat} (h : n < 2 ^ w) : (BitVec.ofNat w n).toNat = n := by
  rw [BitVec.toNat_ofNat, Nat.mod_eq_of_lt h]

theorem narrowLow_of_lt {v : Nat} (h : v < 2 ^ 16) : narrowLow v = .ok (BitVec.ofNat 16 v) :=
  narrowLow_eq_ok.2 ⟨h, rfl⟩

/-- The working part has at most 15 bits between decisions (R25). -/
theorem two_pow_working_le (cnt : BitVec 3) : 2 ^ (8 + cnt.toNat) ≤ 2 ^ 15 :=
  Nat.pow_le_pow_right (by omega) (by have := cnt.isLt; omega)

theorem le_two_pow_working (cnt : BitVec 3) : 2 ^ 8 ≤ 2 ^ (8 + cnt.toNat) :=
  Nat.pow_le_pow_right (by omega) (by omega)

/-- R115: the interval update never stops, and makes the coder's own update; the carry, when there
is one, moves one unit of the top of the working part into the emitted bytes. -/
theorem encUpdate_holds (h : e.Holds cap u) {bit : Bool} {p : Nat} (hr : 2 ≤ u.range)
    (hp : p ≤ 255) :
    ∃ e', encUpdate cap bit p e = .ok e' ∧ e'.Holds cap (u.select bit p) := by
  have ⟨hsp1, hspr⟩ := splitAt_bounds hr hp
  have hr255 : u.range < 2 ^ 8 := h.range_eq ▸ e.range.isLt
  have hroom := (Nat.add_le_add_left (addedToLow_add_intervalAfter_le hr hp bit) u.low).trans h.room
  rw [← Nat.add_assoc] at hroom
  have hlow := h.low_eq
  have hlt := h.low_lt
  have hmax := two_pow_working_le e.cnt
  have hmin := le_two_pow_working e.cnt
  have hsplit : (BitVec.ofNat 8 (splitAt u.range p)).toNat = splitAt u.range p :=
    toNat_ofNat_of_lt (by omega)
  have hrest : (BitVec.ofNat 8 (u.range - splitAt u.range p)).toNat = u.range - splitAt u.range p :=
    toNat_ofNat_of_lt (by omega)
  unfold encUpdate
  rw [h.range_eq]
  cases bit with
  | false => exact ⟨_, rfl, hsplit, hlow, h.shifts_eq, hlt, hroom, h.len_le, h.buf_ok⟩
  | true =>
    simp only [if_true]
    split
    · next hcarry =>
      have hsum : e.low.toNat + splitAt u.range p - 2 ^ (8 + e.cnt.toNat) < 2 ^ 16 := by omega
      have hfits := h.carry_fits (by omega) hcarry
      obtain ⟨buf, hbuf⟩ := addCarry_answers h.len_le hfits
      obtain ⟨hok, -, hnum⟩ := addCarry_spec h.buf_ok hbuf
      rw [narrowLow_of_lt hsum, ok_bind, hbuf, ok_bind]
      refine ⟨_, rfl, hrest, ?_, h.shifts_eq, ?_, hroom, h.len_le, hok⟩
      · rw [EncContext.lowFull] at hlow ⊢
        simp only [toNat_ofNat_of_lt hsum, hnum, UnboundedCoder.select, addedToLow_eq, if_true,
          Nat.add_mul, ← hlow]
        omega
      · simp only [toNat_ofNat_of_lt hsum]
        omega
    · next hcarry =>
      have hsum : e.low.toNat + splitAt u.range p < 2 ^ 16 := by omega
      rw [narrowLow_of_lt hsum, ok_bind]
      refine ⟨_, rfl, hrest, ?_, h.shifts_eq, ?_, hroom, h.len_le, h.buf_ok⟩
      · rw [EncContext.lowFull] at hlow ⊢
        simp only [toNat_ofNat_of_lt hsum, UnboundedCoder.select, addedToLow_eq, if_true, ← hlow]
        omega
      · simp only [toNat_ofNat_of_lt hsum]
        omega

/-- Moving the upper byte of a 16-bit working part behind the emitted bytes keeps the number. -/
theorem emitted_byte_keeps_number (number low : Nat) :
    (number * 256 + low * 2 / 256) * 2 ^ 8 + low * 2 % 256 = (number * 2 ^ 15 + low) * 2 := by
  omega

/-- R117, R118: one turn doubles the coder; the eighth shift moves the working part's upper byte to
the emitted bytes, and overflows when there is no place for it. -/
theorem encShift_holds (h : e.Holds cap u) (hr : u.range < 128) :
    HoldsOrOverflows cap u.double (encShift cap e) := by
  have hlow := h.low_eq
  have hlt := h.low_lt
  have hmax := two_pow_working_le e.cnt
  have hlen := h.len_le
  have hshifts : e.shifts = u.shifts := h.shifts_eq
  have htwice : e.low.toNat * 2 < 2 ^ 16 := by omega
  have hrange : (BitVec.ofNat 8 (e.range.toNat * 2)).toNat = u.range * 2 := by
    rw [h.range_eq]
    exact toNat_ofNat_of_lt (by omega)
  have hroom : u.low * 2 + u.range * 2 ≤ 255 * 2 ^ (u.shifts + 1) := by
    have := h.room
    rw [pow_succ]
    omega
  unfold encShift
  rw [narrowLow_of_lt htwice, ok_bind]
  simp only [toNat_ofNat_of_lt htwice]
  split
  · next h7 =>
    have hcnt : e.cnt.toNat = 7 := by rw [h7]; rfl
    rw [EncContext.shifts, hcnt] at hshifts
    split
    · exact .overflows (by simp only [UnboundedCoder.double]; omega)
    · next hcap =>
      have hplace : e.len < cap := by omega
      rw [store_of_lt _ _ hplace, ok_bind]
      have hsame : streamNumber (e.buf.write e.len (highByte (e.low.toNat * 2))) e.len =
          streamNumber e.buf e.len :=
        streamNumber_congr fun a ha => Memory.read_write_ne _ (by omega)
      have hhigh : (highByte (e.low.toNat * 2)).toNat = e.low.toNat * 2 / 256 :=
        toNat_ofNat_of_lt (by omega)
      have hbyte : (BitVec.ofNat 16 (e.low.toNat * 2 % 256)).toNat = e.low.toNat * 2 % 256 :=
        toNat_ofNat_of_lt (by omega)
      refine .holds ⟨hrange, ?_, ?_, ?_, hroom, hplace, Memory.write_ok h.buf_ok hplace _⟩
      · rw [EncContext.lowFull, hcnt] at hlow
        simp only [EncContext.lowFull, streamNumber, hsame, Memory.read_write_same h.buf_ok.1, hhigh,
          hbyte, UnboundedCoder.double, ← hlow, BitVec.ofNat_eq_ofNat, BitVec.toNat_zero]
        exact emitted_byte_keeps_number _ _
      · simp only [EncContext.shifts, UnboundedCoder.double, BitVec.ofNat_eq_ofNat, BitVec.toNat_zero]
        omega
      · simp only [hbyte, BitVec.ofNat_eq_ofNat, BitVec.toNat_zero]
        omega
  · next h7 =>
    have hcnt : (e.cnt + 1).toNat = e.cnt.toNat + 1 := by
      have hne : e.cnt.toNat ≠ 7 := fun hcnt => h7 (BitVec.eq_of_toNat_eq hcnt)
      have := e.cnt.isLt
      rw [BitVec.toNat_add]
      exact Nat.mod_eq_of_lt (by simp; omega)
    refine .holds ⟨hrange, ?_, ?_, ?_, hroom, hlen, h.buf_ok⟩
    · rw [EncContext.lowFull] at hlow
      simp only [EncContext.lowFull, hcnt, toNat_ofNat_of_lt htwice, UnboundedCoder.double, ← hlow,
        ← Nat.add_assoc, pow_succ, ← Nat.mul_assoc, Nat.add_mul]
    · simp only [EncContext.shifts, hcnt, UnboundedCoder.double, ← hshifts, Nat.add_assoc]
    · simp only [hcnt, toNat_ofNat_of_lt htwice, ← Nat.add_assoc, pow_succ]
      omega

/-- R117: the loop runs the coder's loop, or stops where a byte has no place. -/
theorem encRenorm_holds : ∀ {n : Nat} {e : EncContext} {u : UnboundedCoder}, e.Holds cap u →
    128 ≤ u.range * 2 ^ n → HoldsOrOverflows cap (UnboundedCoder.renorm n u) (encRenorm cap n e) := by
  intro n
  induction n with
  | zero =>
    intro e u h hr
    unfold encRenorm
    rw [if_neg (by rw [h.range_eq]; omega)]
    exact .holds h
  | succ n ih =>
    intro e u h hr
    unfold encRenorm
    rw [h.range_eq]
    split
    · next hlt =>
      rw [UnboundedCoder.renorm_succ_of_lt hlt]
      have hshift := encShift_holds h hlt
      generalize encShift cap e = r at hshift ⊢
      cases hshift with
      | holds h1 =>
        refine ih h1 ?_
        rwa [UnboundedCoder.double, Nat.mul_assoc, ← Nat.pow_succ']
      | overflows hfull =>
        have hle := UnboundedCoder.shifts_le_renorm n u.double
        exact .overflows (by omega)
    · next hge =>
      rw [UnboundedCoder.renorm_of_ge (by omega)]
      exact .holds h

/-- R121 for one decision. -/
theorem encodeBool_holds (h : e.Holds cap u) {bit : Bool} {p : Nat} (hr : 2 ≤ u.range)
    (hp : p ≤ 255) : HoldsOrOverflows cap (u.decide (bit, p)) (encodeBool cap bit p e) := by
  have hne : e.range ≠ 0 := by
    intro h0
    have := h.range_eq
    simp [h0] at this
    omega
  obtain ⟨e1, hupdate, h1⟩ := encUpdate_holds (bit := bit) h hr hp
  have hpos : 1 ≤ (u.select bit p).range := (intervalAfter_bounds hr hp bit).1
  unfold encodeBool
  rw [if_neg hne, hupdate, ok_bind, UnboundedCoder.decide_eq]
  exact encRenorm_holds h1 (by omega)

end Sys2Proof.Machine

/-! The encoder's commands (R112, R113, R119, R123, R125), and a session of them against the
unbounded coder (R121). -/

namespace Sys2Proof

/-- R75: the word with a row's `op`, zeros in `rsv` and zeros in the fields the row does not use. -/
theorem decode_pack {f : CommandFields} {m : Mnemonic} (hop : f.op = m.op) (hrsv : f.rsv = 0)
    (hzero : m.format.unusedZero f = true) : decode (pack f) = .ok (m.assemble f) := by
  rw [decode_of_op_eq (m := m) (by rw [unpack_pack, hop]), unpack_pack, if_neg (not_not.mpr hrsv),
    if_pos hzero]

theorem decode_encBool_word (b : Bool) (imm : BitVec 32) :
    decode (pack ⟨0x11, 0, 0, BitVec.ofBool b, imm⟩) = .ok (.encBool b imm.toInt) := by
  rw [decode_pack (m := .encBool) rfl rfl rfl]
  cases b <;> rfl

theorem decode_encRdb_word (imm : BitVec 32) :
    decode (pack ⟨0x14, 0, 0, 0, imm⟩) = .ok (.encRdb imm.toNat) :=
  decode_pack (m := .encRdb) rfl rfl rfl

end Sys2Proof

namespace Sys2Proof.Machine

/-- Settles O24: with `p <= 255` the product of R111 stays below `range - 1` units of 256. -/
theorem splitBounds : Obligations.SplitBounds := by
  refine ⟨fun range p _ hr hp => ⟨rfl, ?_⟩, fun range p hr hr' hp => ?_, fun range => ?_, by decide,
    by decide, by decide, fun range => ?_⟩
  · calc (range - 1) * p ≤ 254 * 255 := Nat.mul_le_mul (by omega) hp
      _ = 64770 := rfl
  · obtain ⟨hpos, hle⟩ := splitAt_bounds hr hp
    refine ⟨hpos, hle, fun bit => ?_⟩
    obtain ⟨hpos', hle'⟩ := intervalAfter_bounds hr hp bit
    exact ⟨hpos', by omega⟩
  · simp [splitAt]
  · simp only [splitAt]
    omega

/-- Settles O26: the fresh registers are the reset values, and EBUF is the one it was. -/
theorem encInitStartsSession : Obligations.EncInitStartsSession :=
  ⟨by decide, fun s => ⟨s.enc.fresh, rfl, rfl, rfl, rfl, rfl, rfl, fun _ => rfl⟩⟩

/-! ### ENC.LEN and ENC.RDB (R123, R125) -/

theorem u32_natCast (n : Nat) : u32 (n : Int) = BitVec.ofNat 32 n := BitVec.ofInt_natCast 32 n

theorem u32_byte (v : Byte) : u32 (v.toNat : Int) = v.setWidth 32 := by
  rw [u32_natCast]
  exact BitVec.ofNat_toNat 32 v

theorem exec_encLen (s : State) :
    exec .encLen s = .next (s.respond .ok (BitVec.ofNat 32 s.enc.len)) := by
  rw [← u32_natCast]
  rfl

theorem exec_encRdb_of_ge {s : State} {idx : Nat} (h : s.enc.len ≤ idx) :
    exec (.encRdb idx) s = .next (s.respond (.err .range) 0) := by
  simp only [exec, execEncRdb, if_pos h, complete_raise]

theorem exec_encRdb_of_lt {s : State} {idx : Nat} (h : idx < s.enc.len) (hcap : s.enc.len ≤ s.cap) :
    exec (.encRdb idx) s = .next (s.respond .ok ((s.enc.buf.read idx).setWidth 32)) := by
  simp only [exec, execEncRdb, if_neg (Nat.not_le.mpr h), load_of_lt s.enc.buf (h.trans_le hcap),
    ok_bind, complete_ok, u32_byte]

/-- Settles O29: the two cases of ENC.RDB meet at `E.len`, which the invariant keeps within `CAP`. -/
theorem encoderReads : Obligations.EncoderReads := by
  refine ⟨by decide, exec_encLen, decode_encRdb_word, fun s idx => exec_encRdb_of_ge,
    fun s idx hinv hlt => ?_⟩
  obtain ⟨-, ⟨-, -, -, hcap, -⟩, -⟩ := hinv
  exact exec_encRdb_of_lt hlt hcap

/-! ### ENC.BOOL (R113) -/

theorem exec_encBool_of_active {s : State} {p : Int} (hactive : s.enc.phase = .active) (h0 : 0 ≤ p)
    (h255 : p ≤ 255) (b : Bool) :
    exec (.encBool b p) s = complete s (do
      let e ← encodeBool s.cap b p.toNat s.enc
      .ok (s.setEnc e, 0)) := by
  simp only [exec, execEncBool, checkProbability_eq_ok.2 ⟨h0, h255⟩, checkActive_eq_ok.2 hactive,
    ok_bind]

/-- Settles O27: EncBool holds the unbounded coder's decision or overflows, and the closed form of the
decision gives the registers; the two clauses are told apart by the whole bytes of its shift count. -/
theorem encBoolEffect : Obligations.EncBoolEffect := by
  refine ⟨decode_encBool_word, fun s b p hinv h0 h255 hactive => ?_⟩
  obtain ⟨-, henc, -⟩ := hinv
  have ⟨h128, _, _, _, hbuf⟩ := henc
  have hrange : 2 ≤ s.enc.unbounded.range := le_trans (by omega) h128
  have hp : p.toNat ≤ 255 := by omega
  intro r k
  have hbool := encodeBool_holds (henc.holds hactive) (bit := b) hrange hp
  have hclosed := UnboundedCoder.decide_eq_closed (bit := b) hrange hp
  have hwhole : (s.enc.unbounded.decide (b, p.toNat)).shifts / 8 =
      s.enc.len + (s.enc.cnt.toNat + k) / 8 := by
    rw [hclosed]
    change (8 * s.enc.len + s.enc.cnt.toNat + k) / 8 = _
    omega
  have hframe : ∀ e, encodeBool s.cap b p.toNat s.enc = .ok e → EncFrame s.cap s.enc e :=
    fun e h => encodeBool_frame h
  rw [exec_encBool_of_active hactive h0 h255]
  generalize encodeBool s.cap b p.toNat s.enc = result at hbool hframe ⊢
  cases hbool with
  | @holds e h =>
    have hfits := h.whole_bytes_le
    refine ⟨fun _ => ⟨e, rfl, ?_⟩, fun _ => by omega⟩
    obtain ⟨hphase, -, -, -, hbeyond⟩ := hframe e rfl
    obtain ⟨hrange', hlow', hshifts', hlt, -, -, -⟩ := h
    rw [hclosed] at hrange' hlow' hshifts'
    exact ⟨hphase.trans hactive, hrange', hshifts', hlow', hlt, hbeyond hbuf⟩
  | overflows hfull => exact ⟨fun _ => by omega, fun _ => rfl⟩

/-! ### ENC.FINISH (R119) -/

/-- How many bytes the flush writes. -/
def EncContext.flushCount (e : EncContext) : Nat := if e.cnt = 0 then 1 else 2

theorem EncContext.flushCount_of_zero {e : EncContext} (h : e.cnt = 0) : e.flushCount = 1 := if_pos h

theorem EncContext.flushCount_of_ne {e : EncContext} (h : e.cnt ≠ 0) : e.flushCount = 2 := if_neg h

theorem two_pow_working_mul {cnt : Nat} (h : cnt ≤ 8) : 2 ^ (8 + cnt) * 2 ^ (8 - cnt) = 2 ^ 16 := by
  rw [← Nat.pow_add]
  congr 1
  omega

/-- `8 + E.cnt` significant bits, moved up to two whole bytes, are 16 bits. -/
theorem working_shifted_lt {low : Nat} {cnt : BitVec 3} (h : low < 2 ^ (8 + cnt.toNat)) :
    low * 2 ^ (8 - cnt.toNat) < 2 ^ 16 := by
  have := cnt.isLt
  calc low * 2 ^ (8 - cnt.toNat)
      < 2 ^ (8 + cnt.toNat) * 2 ^ (8 - cnt.toNat) := Nat.mul_lt_mul_of_pos_right h (Nat.two_pow_pos _)
    _ = 2 ^ 16 := two_pow_working_mul (by omega)

theorem highByte_toNat {v : Nat} (h : v < 2 ^ 16) : (highByte v).toNat = v / 256 :=
  toNat_ofNat_of_lt (by omega)

theorem lowByte_toNat (v : Nat) : (lowByte v).toNat = v % 256 := toNat_ofNat_of_lt (by omega)

theorem encFlush_of_full {cap : Nat} {e : EncContext} (h : cap < e.len + e.flushCount) :
    encFlush cap e = .error (.raise .overflow) := by
  unfold encFlush
  by_cases h0 : e.cnt = 0
  · rw [e.flushCount_of_zero h0] at h
    rw [if_pos h0, if_pos h]
  · rw [e.flushCount_of_ne h0] at h
    rw [if_neg h0, if_pos h]

/-- What the flush writes when it fits, and that it writes nothing else. -/
theorem encFlush_of_fits {cap : Nat} {e : EncContext} (hlow : e.low.toNat < 2 ^ (8 + e.cnt.toNat))
    (hwf : e.buf.wf = true) (h : e.len + e.flushCount ≤ cap) :
    let v := e.low.toNat * 2 ^ (8 - e.cnt.toNat)
    ∃ buf, encFlush cap e =
        .ok { e with buf := buf, len := e.len + e.flushCount, phase := .finished } ∧
      (e.cnt = 0 → (buf.read e.len).toNat = e.low.toNat % 256) ∧
      (e.cnt ≠ 0 → (buf.read e.len).toNat = v / 256 ∧ (buf.read (e.len + 1)).toNat = v % 256) ∧
      ∀ a, a < e.len ∨ e.len + e.flushCount ≤ a → buf.read a = e.buf.read a := by
  intro v
  have hv : v < 2 ^ 16 := working_shifted_lt hlow
  unfold encFlush
  by_cases h0 : e.cnt = 0
  · rw [e.flushCount_of_zero h0] at h ⊢
    rw [if_pos h0, if_neg (Nat.not_lt.mpr h), store_of_lt _ _ (by omega), ok_bind]
    refine ⟨_, rfl, fun _ => ?_, fun hne => absurd h0 hne, fun a ha => ?_⟩
    · rw [Memory.read_write_same hwf, lowByte_toNat]
    · exact Memory.read_write_ne _ (by omega)
  · rw [e.flushCount_of_ne h0] at h ⊢
    rw [if_neg h0, if_neg (Nat.not_lt.mpr h), narrowLow_of_lt hv, ok_bind, toNat_ofNat_of_lt hv,
      store_of_lt _ _ (by omega), ok_bind, store_of_lt _ _ (by omega), ok_bind]
    have hwf1 := Memory.write_wf hwf e.len (highByte v)
    refine ⟨_, rfl, fun hz => absurd hz h0, fun _ => ⟨?_, ?_⟩, fun a ha => ?_⟩
    · rw [Memory.read_write_ne _ (by omega), Memory.read_write_same hwf, highByte_toNat hv]
    · rw [Memory.read_write_same hwf1, lowByte_toNat]
    · rw [Memory.read_write_ne _ (by omega), Memory.read_write_ne _ (by omega)]

theorem exec_encFinish_of_finished {s : State} (h : s.enc.phase = .finished) :
    exec .encFinish s = .next (s.respond .ok (BitVec.ofNat 32 s.enc.len)) := by
  simp only [exec, execEncFinish, h, complete_ok, u32_natCast]

theorem exec_encFinish_of_active {s : State} (h : s.enc.phase = .active) :
    exec .encFinish s = complete s (do
      let e ← encFlush s.cap s.enc
      .ok (s.setEnc e, (e.len : Int))) := by
  simp only [exec, execEncFinish, h]

/-- Settles O28: the flush fits or it does not. -/
theorem encFinishEffect : Obligations.EncFinishEffect := by
  refine ⟨by decide, fun s => exec_encFinish_of_finished, fun s hinv hactive => ?_⟩
  obtain ⟨-, ⟨-, hlow, -, -, hwf, -⟩, -⟩ := hinv
  rw [exec_encFinish_of_active hactive]
  refine ⟨fun hfits => ?_, fun hfull => ?_⟩
  · obtain ⟨buf, hflush, hbytes⟩ := encFlush_of_fits hlow hwf hfits
    refine ⟨buf, ?_, hbytes⟩
    rw [hflush, ok_bind, complete_ok, u32_natCast]
    rfl
  · rw [encFlush_of_full hfull]
    rfl

/-! ### A session (R121) -/

/-- R24: byte `a` of the stream is digit `a` of its number to the base 256, from the front. -/
theorem read_eq_digit (m : Memory) : ∀ {n a : Nat}, a < n →
    m.read a = BitVec.ofNat 8 (streamNumber m n / 256 ^ (n - 1 - a) % 256) := by
  intro n
  induction n with
  | zero => intro a ha; omega
  | succ n ih =>
    intro a ha
    have hbyte := (m.read n).isLt
    obtain rfl | hlt : a = n ∨ a < n := by omega
    · apply BitVec.eq_of_toNat_eq
      simp only [streamNumber, Nat.add_sub_cancel, Nat.sub_self, pow_zero, Nat.div_one,
        BitVec.toNat_ofNat]
      omega
    · have hexp : n + 1 - 1 - a = (n - 1 - a) + 1 := by omega
      have hshift : (streamNumber m n * 256 + (m.read n).toNat) / 256 = streamNumber m n := by omega
      rw [ih hlt, hexp, streamNumber, pow_succ', ← Nat.div_div_eq_div_mul, hshift]

/-- Padding the accumulator to two whole bytes moves the emitted bytes up by two places. -/
theorem number_padded (number low : Nat) {cnt : Nat} (h : cnt ≤ 8) :
    (number * 2 ^ (8 + cnt) + low) * 2 ^ (8 - cnt) = number * 2 ^ 16 + low * 2 ^ (8 - cnt) := by
  rw [Nat.add_mul, Nat.mul_assoc, two_pow_working_mul h]

/-- R119, R87: the flushed stream is the accumulator, filled up with zero bits to whole bytes. -/
theorem encFlush_stream {cap : Nat} {e e' : EncContext} {u : UnboundedCoder} (h : e.Holds cap u)
    (hflush : encFlush cap e = .ok e') :
    e'.len = u.streamLength ∧
      streamNumber e'.buf e'.len = u.low * 2 ^ ((8 - u.shifts % 8) % 8) := by
  have hfits : e.len + e.flushCount ≤ cap := by
    by_contra hfull
    rw [encFlush_of_full (Nat.not_le.mp hfull)] at hflush
    cases hflush
  obtain ⟨buf, hok, hone, htwo, hkeep⟩ := encFlush_of_fits h.low_lt h.buf_ok.1 hfits
  rw [hok] at hflush
  obtain rfl := Except.ok.inj hflush
  have hsame : streamNumber buf e.len = streamNumber e.buf e.len :=
    streamNumber_congr fun a ha => hkeep a (.inl ha)
  have hlt := h.low_lt
  have hshifts := h.shifts_eq
  rw [UnboundedCoder.streamLength, ← h.low_eq, ← hshifts, EncContext.shifts, EncContext.lowFull]
  by_cases h0 : e.cnt = 0
  · have hcnt : e.cnt.toNat = 0 := by rw [h0]; rfl
    rw [hcnt] at hlt
    simp only [EncContext.flushCount_of_zero h0, streamNumber, hsame, hone h0, hcnt]
    have hpad : (8 - (8 * e.len + 0) % 8) % 8 = 0 := by omega
    rw [hpad]
    omega
  · have hcnt : e.cnt.toNat ≠ 0 := fun hz => h0 (BitVec.eq_of_toNat_eq hz)
    have hcnt8 := e.cnt.isLt
    obtain ⟨hhigh, hlow⟩ := htwo h0
    have hpad : (8 - (8 * e.len + e.cnt.toNat) % 8) % 8 = 8 - e.cnt.toNat := by omega
    simp only [EncContext.flushCount_of_ne h0, streamNumber, hsame, hhigh, hlow]
    rw [hpad, number_padded _ _ (by omega)]
    omega

/-- A command that answers OK did so from the state its meaning made; the rest runs from there. -/
theorem execOk_cons {i : Instr} {is : List Instr} {s t : State} {r : Except Stop (State × Int)}
    (hexec : exec i s = complete s r) (h : execOk (i :: is) s = some t) :
    ∃ s' v, r = .ok (s', v) ∧ execOk is (s'.respond .ok (u32 v)) = some t := by
  match r with
  | .ok (s', v) =>
    refine ⟨s', v, rfl, ?_⟩
    simpa [execOk, hexec] using h
  | .error (.raise e) => simp [execOk, hexec] at h
  | .error (.fault f) => simp [execOk, hexec] at h

/-- The encoder is in the middle of a session that has brought the unbounded coder to `u`. -/
structure State.Coding (s : State) (u : UnboundedCoder) : Prop where
  holds : s.enc.Holds s.cap u
  phase : s.enc.phase = .active
  range : 128 ≤ u.range

/-- R112: a fresh session starts where the unbounded coder does. -/
theorem EncContext.fresh_holds {cap : Nat} {e : EncContext} (h : e.buf.Ok cap) :
    e.fresh.Holds cap UnboundedCoder.start where
  range_eq := rfl
  low_eq := by simp [lowFull, streamNumber, UnboundedCoder.start]
  shifts_eq := rfl
  low_lt := by simp
  room := by simp [UnboundedCoder.start]
  len_le := Nat.zero_le _
  buf_ok := h

theorem State.Inv.coding_fresh {s : State} (h : s.Inv) :
    (s.setEnc s.enc.fresh).Coding UnboundedCoder.start := by
  obtain ⟨-, ⟨-, -, -, -, hbuf⟩, -⟩ := h
  exact ⟨EncContext.fresh_holds hbuf, rfl, by decide⟩

theorem State.Coding.respond {s : State} {u : UnboundedCoder} (h : s.Coding u) (st : Status)
    (rw : ResultWord) : (s.respond st rw).Coding u := ⟨h.holds, h.phase, h.range⟩

/-- One decision that answers OK takes the machine where the unbounded coder goes. -/
theorem State.Coding.encBool {s t : State} {u : UnboundedCoder} {bit : Bool} {p : Nat}
    {is : List Instr} (h : s.Coding u) (hp : p ≤ 255)
    (hrun : execOk (.encBool bit p :: is) s = some t) :
    ∃ s', s'.Coding (u.decide (bit, p)) ∧ execOk is s' = some t := by
  have hr : 2 ≤ u.range := le_trans (by omega) h.range
  obtain ⟨s1, v, hok, hrest⟩ := execOk_cons
    (exec_encBool_of_active h.phase (by omega) (by omega) bit) hrun
  obtain ⟨e, he, hok⟩ := bind_eq_ok.1 hok
  obtain ⟨rfl, rfl⟩ := Prod.mk.inj (Except.ok.inj hok)
  rw [Int.toNat_natCast] at he
  have hbool := encodeBool_holds h.holds (bit := bit) hr hp
  rw [he] at hbool
  cases hbool with
  | holds hholds =>
    exact ⟨_, ⟨hholds, (encodeBool_frame he).phase.trans h.phase,
      UnboundedCoder.le_range_decide hr hp⟩, hrest⟩

/-- R121 by induction over the decisions still to be coded. -/
theorem State.Coding.decisions : ∀ {ds : List (Bool × Nat)} {s t : State} {u : UnboundedCoder},
    s.Coding u → (∀ d ∈ ds, d.2 ≤ 255) →
    execOk (ds.map fun d => .encBool d.1 d.2) s = some t →
    t.Coding (ds.foldl UnboundedCoder.decide u) := by
  intro ds
  induction ds with
  | nil =>
    intro s t u h _ hrun
    obtain rfl := Option.some.inj hrun
    exact h
  | cons d ds ih =>
    intro s t u h hp hrun
    obtain ⟨hd, hds⟩ := List.forall_mem_cons.1 hp
    obtain ⟨s', hs', hrest⟩ := h.encBool hd hrun
    exact ih hs' hds hrest

/-- ENC.FINISH, when it answers OK, leaves the stream of R85. -/
theorem State.Coding.encFinish {s t : State} {u : UnboundedCoder} (h : s.Coding u)
    (hrun : execOk [.encFinish] s = some t) :
    t.enc.len = u.streamLength ∧ ∀ a, a < t.enc.len → t.enc.buf.read a = u.streamByte a := by
  obtain ⟨s1, v, hok, hrest⟩ := execOk_cons (exec_encFinish_of_active h.phase) hrun
  obtain ⟨e, he, hok⟩ := bind_eq_ok.1 hok
  obtain ⟨rfl, rfl⟩ := Prod.mk.inj (Except.ok.inj hok)
  obtain rfl := Option.some.inj hrest
  obtain ⟨hlen, hnumber⟩ := encFlush_stream h.holds he
  refine ⟨hlen, fun a ha => ?_⟩
  rw [UnboundedCoder.streamByte, ← hnumber, ← hlen]
  exact read_eq_digit e.buf ha

/-- Settles O32: a session is a simulation of the unbounded coder from ENC.INIT on, and the flush
spells its accumulator out. -/
theorem encoderEqualsUnboundedCoder : Obligations.EncoderEqualsUnboundedCoder := by
  intro s t ds hinv hp hrun u
  obtain ⟨s1, v, hok, hrest⟩ := execOk_cons (r := .ok (s.setEnc s.enc.fresh, 0)) rfl hrun
  obtain ⟨rfl, rfl⟩ := Prod.mk.inj (Except.ok.inj hok)
  have hcoding : t.Coding u := (hinv.coding_fresh.respond .ok (u32 0)).decisions hp hrest
  exact ⟨hcoding.holds.range_eq, hcoding.holds.low_eq, hcoding.holds.shifts_eq,
    fun w hw => hcoding.encFinish hw⟩

end Sys2Proof.Machine

/-! The boolean decoder's registers in closed form (R134, R136 to R138): `NextByte`, one decision
and its shifts as total functions of the context, which the helpers compute in every context that
meets the invariant R140. -/

namespace Sys2Proof.Machine

/-! ### The stream and its next byte (R136) -/

/-- Byte `i` of the loaded stream, zero past its end. -/
def DecContext.byteAt (d : DecContext) (i : Nat) : Byte := if i < d.len then d.buf.read i else 0

theorem DecContext.byteAt_of_lt {d : DecContext} {i : Nat} (h : i < d.len) :
    d.byteAt i = d.buf.read i := if_pos h

theorem DecContext.byteAt_of_ge {d : DecContext} {i : Nat} (h : d.len ≤ i) : d.byteAt i = 0 :=
  if_neg (Nat.not_lt.mpr h)

theorem DecContext.byteAt_min (d : DecContext) (i : Nat) : d.byteAt (min i d.len) = d.byteAt i := by
  rcases Nat.lt_or_ge i d.len with h | h
  · rw [Nat.min_eq_left h.le]
  · rw [Nat.min_eq_right h, byteAt_of_ge le_rfl, byteAt_of_ge h]

theorem DecContext.byteAt_toNat (d : DecContext) (i : Nat) :
    (d.byteAt i).toNat = if i < d.len then (d.buf.read i).toNat else 0 := by
  unfold byteAt
  split <;> rfl

/-- Within the capacity `NextByte` always answers, and the cursor never leaves the stream. -/
theorem nextByte_answers {cap : Nat} {d : DecContext} (hpos : d.pos ≤ d.len) (hlen : d.len ≤ cap) :
    nextByte cap d = .ok (d.byteAt d.pos, { d with pos := min (d.pos + 1) d.len }) := by
  unfold nextByte
  split
  · next h =>
    rw [load_of_lt _ (h.trans_le hlen), ok_bind, DecContext.byteAt_of_lt h, Nat.min_eq_left h]
  · next h =>
    have hend : min (d.pos + 1) d.len = d.pos := by omega
    rw [DecContext.byteAt_of_ge (Nat.not_lt.mp h), hend]

/-! ### The shifts of a decision (R138) -/

/-- What R140 and the ranges of R31 and R32 give within a decision too: the bits of the window that
the next fetch fills are zero, and the cursor stands within the stream. -/
structure DecContext.Aligned (cap : Nat) (d : DecContext) : Prop where
  value_mod : d.value.toNat % 2 ^ d.bc.toNat = 0
  pos_le : d.pos ≤ d.len
  len_le : d.len ≤ cap

theorem DecContext.Inv.aligned {cap : Nat} {d : DecContext} (h : d.Inv cap) : d.Aligned cap := by
  obtain ⟨-, hmod, hpos, hlen, -⟩ := h
  exact ⟨hmod, hpos, hlen⟩

/-- The context `k` shifts later, for `k <= 8`: at most one of them is an eighth shift, which brings
in the next byte; the shifts after it double that byte too. -/
def DecContext.shifted (d : DecContext) (k : Nat) : DecContext :=
  { d with
    range := BitVec.ofNat 8 (d.range.toNat * 2 ^ k)
    value := BitVec.ofNat 16 (d.value.toNat * 2 ^ k +
      if 8 ≤ d.bc.toNat + k then (d.byteAt d.pos).toNat * 2 ^ (d.bc.toNat + k - 8) else 0)
    bc := BitVec.ofNat 3 (d.bc.toNat + k)
    pos := if 8 ≤ d.bc.toNat + k then min (d.pos + 1) d.len else d.pos }

theorem DecContext.shifted_zero (d : DecContext) : d.shifted 0 = d := by
  have hbc := d.bc.isLt
  simp [shifted, show ¬8 ≤ d.bc.toNat by omega]

/-- A count below 7 goes up by one; the window and the interval size double. -/
theorem DecContext.shifted_one_of_ne {d : DecContext} (h : d.bc ≠ 7) :
    d.shifted 1 = { d with range := BitVec.ofNat 8 (d.range.toNat * 2),
                           value := BitVec.ofNat 16 (d.value.toNat * 2), bc := d.bc + 1 } := by
  have hbc : ¬8 ≤ d.bc.toNat + 1 := by bv_omega
  have hnext : BitVec.ofNat 3 (d.bc.toNat + 1) = d.bc + 1 := by bv_omega
  simp [shifted, hbc, hnext]

/-- The eighth shift. -/
theorem DecContext.shifted_one_of_eq {d : DecContext} (h : d.bc = 7) :
    d.shifted 1 = { d with range := BitVec.ofNat 8 (d.range.toNat * 2),
                           value := BitVec.ofNat 16 (d.value.toNat * 2 + (d.byteAt d.pos).toNat),
                           bc := 0, pos := min (d.pos + 1) d.len } := by
  simp [shifted, h]

/-- Joining a byte to a window whose low byte is zero adds it. -/
theorem or_byte_eq_add {value : Nat} {v : Byte} (h : value % 256 = 0) :
    BitVec.ofNat 16 value ||| v.setWidth 16 = BitVec.ofNat 16 (value + v.toNat) := by
  obtain ⟨q, rfl⟩ := Nat.dvd_of_mod_eq_zero h
  have hor : 2 ^ 8 * q + v.toNat = 2 ^ 8 * q ||| v.toNat := Nat.two_pow_add_eq_or_of_lt v.isLt q
  rw [show 256 = 2 ^ 8 from rfl, hor, BitVec.ofNat_or, BitVec.ofNat_toNat]

theorem decShift_eq_shifted {cap : Nat} {d : DecContext} (h : d.Aligned cap) :
    decShift cap d = .ok (d.shifted 1) := by
  by_cases h7 : d.bc = 7
  · have hlow : d.value.toNat * 2 % 256 = 0 := by
      have hmod := h.value_mod
      rw [h7, show 2 ^ (7 : BitVec 3).toNat = 128 from rfl] at hmod
      omega
    simp only [decShift, h7, if_true, nextByte_answers h.pos_le h.len_le, ok_bind,
      or_byte_eq_add hlow, DecContext.shifted_one_of_eq h7]
  · simp only [decShift, h7, if_false, DecContext.shifted_one_of_ne h7]

theorem DecContext.Aligned.shifted_one {cap : Nat} {d : DecContext} (h : d.Aligned cap) :
    (d.shifted 1).Aligned cap := by
  by_cases h7 : d.bc = 7
  · rw [shifted_one_of_eq h7]
    exact ⟨Nat.mod_one _, Nat.min_le_right _ _, h.len_le⟩
  · rw [shifted_one_of_ne h7]
    refine ⟨?_, h.pos_le, h.len_le⟩
    have hbc : (d.bc + 1).toNat = d.bc.toNat + 1 := by bv_omega
    have hdvd : 2 ^ (d.bc.toNat + 1) ∣ 2 ^ 16 := pow_dvd_pow 2 (by have := d.bc.isLt; omega)
    have hvalue : 2 ^ (d.bc.toNat + 1) ∣ d.value.toNat * 2 := by
      rw [pow_succ]
      exact Nat.mul_dvd_mul_right (Nat.dvd_of_mod_eq_zero h.value_mod) 2
    simp only [hbc, BitVec.toNat_ofNat]
    exact Nat.mod_eq_zero_of_dvd ((Nat.dvd_mod_iff hdvd).2 hvalue)

/-- Narrowing to the register before a doubling changes nothing. -/
theorem ofNat_narrowed_mul_add (w a b c : Nat) :
    BitVec.ofNat w ((BitVec.ofNat w a).toNat * b + c) = BitVec.ofNat w (a * b + c) := by
  apply BitVec.eq_of_toNat_eq
  simp only [BitVec.toNat_ofNat]
  exact ((Nat.mod_modEq a _).mul_right b).add_right c

/-- Shifts add up, as long as no second byte is due. -/
theorem DecContext.shifted_shifted (d : DecContext) {k : Nat} (hk : k ≤ 7) :
    (d.shifted 1).shifted k = d.shifted (k + 1) := by
  have hrange : BitVec.ofNat 8 ((BitVec.ofNat 8 (d.range.toNat * 2)).toNat * 2 ^ k) =
      BitVec.ofNat 8 (d.range.toNat * 2 ^ (k + 1)) := by
    rw [pow_succ', ← Nat.mul_assoc]
    exact ofNat_narrowed_mul_add 8 _ _ 0
  by_cases h7 : d.bc = 7
  · have hbc : d.bc.toNat = 7 := by rw [h7]; rfl
    have hcount : BitVec.ofNat 3 k = BitVec.ofNat 3 (7 + (k + 1)) := by
      apply BitVec.eq_of_toNat_eq
      simp only [BitVec.toNat_ofNat]
      omega
    have hnofetch : ¬8 ≤ (0 : BitVec 3).toNat + k := by
      rw [show (0 : BitVec 3).toNat = 0 from rfl]
      omega
    have hfetch : 8 ≤ 7 + (k + 1) := by omega
    have hafter : 7 + (k + 1) - 8 = k := by omega
    rw [shifted_one_of_eq h7]
    simp only [shifted, hbc, hrange, if_neg hnofetch, if_pos hfetch, hafter, ofNat_narrowed_mul_add,
      ← hcount, mk.injEq, true_and, and_true]
    exact ⟨by ring_nf, by simp⟩
  · have hbc : (d.bc + 1).toNat + k = d.bc.toNat + (k + 1) := by bv_omega
    rw [shifted_one_of_ne h7]
    simp only [shifted, hbc, hrange, ofNat_narrowed_mul_add, byteAt, pow_succ', ← Nat.mul_assoc]

theorem DecContext.range_shifted_one {d : DecContext} (h : d.range.toNat < 128) :
    (d.shifted 1).range.toNat = d.range.toNat * 2 := toNat_ofNat_of_lt (by omega)

/-- R138: the loop in closed form, whatever the fuel beyond the doublings. -/
theorem decRenorm_eq_shifted {cap : Nat} : ∀ {n : Nat} {d : DecContext}, d.Aligned cap →
    1 ≤ d.range.toNat → doublings d.range.toNat ≤ n →
    decRenorm cap n d = .ok (d.shifted (doublings d.range.toNat)) := by
  intro n
  induction n with
  | zero =>
    intro d h hpos hn
    have h128 : ¬d.range.toNat < 128 := fun hlt => by
      have := doublings_of_lt hpos hlt
      omega
    rw [Nat.le_zero.mp hn, DecContext.shifted_zero, decRenorm, if_neg h128]
  | succ n ih =>
    intro d h hpos hn
    rw [decRenorm]
    by_cases hlt : d.range.toNat < 128
    · have hrange := DecContext.range_shifted_one hlt
      have hk := doublings_of_lt hpos hlt
      rw [if_pos hlt, decShift_eq_shifted h, ok_bind,
        ih h.shifted_one (by omega) (by rw [hrange]; omega), hrange, hk,
        DecContext.shifted_shifted d (by unfold doublings; omega)]
    · rw [if_neg hlt, doublings_of_ge (by omega), DecContext.shifted_zero]

/-- The doublings bring an interval size into the upper half of its range (R117). -/
theorem two_pow_doublings_bounds {r : Nat} (hpos : 1 ≤ r) (hlt : r < 256) :
    128 ≤ r * 2 ^ doublings r ∧ r * 2 ^ doublings r < 256 := by
  have hlog : Nat.log2 r < 8 := (Nat.log2_lt (by omega)).mpr hlt
  have hsum : Nat.log2 r + doublings r = 7 := by
    unfold doublings
    omega
  constructor
  · calc 128 = 2 ^ Nat.log2 r * 2 ^ doublings r := by rw [← pow_add, hsum]; rfl
      _ ≤ r * 2 ^ doublings r := Nat.mul_le_mul_right _ (Nat.log2_self_le (by omega))
  · calc r * 2 ^ doublings r < 2 ^ (Nat.log2 r + 1) * 2 ^ doublings r :=
          Nat.mul_lt_mul_of_pos_right Nat.lt_log2_self (Nat.two_pow_pos _)
      _ = 256 := by rw [← pow_add, Nat.add_right_comm, hsum]; rfl

/-! ### One decision (R137) -/

/-- R137: the decision, which compares the window with `split * 256`. -/
def DecContext.nextBit (d : DecContext) (p : Nat) : Bool :=
  decide (splitAt d.range.toNat p * 256 ≤ d.value.toNat)

/-- R137: the part of the interval that the decision selects, before the shifts. -/
def DecContext.select (d : DecContext) (p : Nat) : DecContext :=
  { d with
    range := BitVec.ofNat 8 (intervalAfter d.range.toNat p (d.nextBit p))
    value := BitVec.ofNat 16 (d.value.toNat - addedToLow d.range.toNat p (d.nextBit p) * 256) }

theorem decUpdate_eq_select (p : Nat) (d : DecContext) :
    decUpdate p d = (d.nextBit p, d.select p) := by
  by_cases h : splitAt d.range.toNat p * 256 ≤ d.value.toNat
  · simp [decUpdate, DecContext.select, DecContext.nextBit, h, intervalAfter_eq, addedToLow_eq]
  · simp [decUpdate, DecContext.select, DecContext.nextBit, h, Nat.lt_of_not_le h,
      intervalAfter_eq, addedToLow_eq]

/-- R137: the context after the decision. -/
def DecContext.decided (d : DecContext) (p : Nat) : DecContext :=
  (d.select p).shifted (doublings (intervalAfter d.range.toNat p (d.nextBit p)))

section Decision

variable {cap p : Nat} {d : DecContext}

theorem DecContext.select_range (hr : 2 ≤ d.range.toNat) (hp : p ≤ 255) :
    (d.select p).range.toNat = intervalAfter d.range.toNat p (d.nextBit p) := by
  have hbounds := intervalAfter_bounds hr hp (d.nextBit p)
  have hlt := d.range.isLt
  exact toNat_ofNat_of_lt (by omega)

theorem DecContext.select_value (d : DecContext) (p : Nat) :
    (d.select p).value.toNat = d.value.toNat - addedToLow d.range.toNat p (d.nextBit p) * 256 :=
  toNat_ofNat_of_lt (by have := d.value.isLt; omega)

/-- A multiple of 256 leaves the bits below the count alone. -/
theorem DecContext.Aligned.select (h : d.Aligned cap) (p : Nat) : (d.select p).Aligned cap := by
  refine ⟨?_, h.pos_le, h.len_le⟩
  have hdvd : 2 ^ d.bc.toNat ∣ 2 ^ 8 := pow_dvd_pow 2 (by have := d.bc.isLt; omega)
  rw [select_value]
  exact Nat.mod_eq_zero_of_dvd
    (Nat.dvd_sub (Nat.dvd_of_mod_eq_zero h.value_mod) (hdvd.mul_left _))

/-- `DecBool` never stops, and this is what it does. -/
theorem decodeBool_eq_decided (h : d.Aligned cap) (hr : 2 ≤ d.range.toNat) (hp : p ≤ 255) :
    decodeBool cap p d = .ok (d.nextBit p, d.decided p) := by
  have hne : d.range ≠ 0 := fun h0 => by simp [h0] at hr
  have hrange := DecContext.select_range hr hp
  have hpos := (intervalAfter_bounds hr hp (d.nextBit p)).1
  have hrenorm := decRenorm_eq_shifted (n := 7) (h.select p) (hrange ▸ hpos) (Nat.sub_le _ _)
  rw [hrange] at hrenorm
  rw [decodeBool_eq_ok, decUpdate_eq_select]
  exact ⟨hne, rfl, hrenorm⟩

theorem DecContext.decided_range (hr : 2 ≤ d.range.toNat) (hp : p ≤ 255) :
    let r := intervalAfter d.range.toNat p (d.nextBit p)
    (d.decided p).range.toNat = r * 2 ^ doublings r := by
  intro r
  have hbounds := intervalAfter_bounds hr hp (d.nextBit p)
  have hlt := d.range.isLt
  have hr' := (two_pow_doublings_bounds (r := r) hbounds.1 (by omega)).2
  unfold decided shifted
  simp only [select_range hr hp]
  exact toNat_ofNat_of_lt hr'

theorem DecContext.le_decided_range (hr : 2 ≤ d.range.toNat) (hp : p ≤ 255) :
    128 ≤ (d.decided p).range.toNat := by
  have hbounds := intervalAfter_bounds hr hp (d.nextBit p)
  have hlt := d.range.isLt
  rw [decided_range hr hp]
  exact (two_pow_doublings_bounds hbounds.1 (by omega)).1

end Decision

end Sys2Proof.Machine

/-! The decoder's commands (R131 to R135). -/

namespace Sys2Proof

/-- A byte fits the field of DEC.WRB (R71, format Y), and is read back from it. -/
theorem decode_decWrb_word (byte : Byte) :
    decode (pack ⟨0x21, 0, 0, 0, byte.setWidth 32⟩) = .ok (.decWrb byte) := by
  have hupper : (byte.setWidth 32).extractLsb' 8 24 = 0 := by revert byte; decide
  have hlower : (byte.setWidth 32).extractLsb' 0 8 = byte := by revert byte; decide
  rw [decode_pack (m := .decWrb) rfl rfl (by simp [Mnemonic.format, Format.unusedZero, hupper])]
  simp only [Mnemonic.assemble, hlower]

theorem decode_decBool_word (imm : BitVec 32) :
    decode (pack ⟨0x23, 0, 0, 0, imm⟩) = .ok (.decBool imm.toInt) :=
  decode_pack (m := .decBool) rfl rfl rfl

end Sys2Proof

namespace Sys2Proof.Machine

theorem exec_decClr (s : State) :
    exec .decClr s = .next ((s.setDec (s.dec.loaded 0)).respond .ok 0) := rfl

/-- Settles O33: the registers are those of an empty buffer, and DBUF is the one it was. -/
theorem decClrEmptiesBuffer : Obligations.DecClrEmptiesBuffer :=
  ⟨by decide, fun s => ⟨s.dec.loaded 0, exec_decClr s, rfl, rfl, rfl, rfl, rfl, rfl, fun _ => rfl⟩⟩

/-! ### DEC.WRB (R132) -/

/-- R132: the context with one byte more. -/
def DecContext.append (d : DecContext) (byte : Byte) : DecContext :=
  { d with buf := d.buf.write d.len byte, len := d.len + 1 }

theorem exec_decWrb_of_decoding {s : State} (h : s.dec.phase = .decoding) (byte : Byte) :
    exec (.decWrb byte) s = .next (s.respond (.err .state) 0) := by
  simp only [exec, execDecWrb, checkLoading, h, error_bind, complete_raise]

theorem exec_decWrb_of_full {s : State} (hphase : s.dec.phase = .loading) (h : s.dec.len = s.cap)
    (byte : Byte) : exec (.decWrb byte) s = .next (s.respond (.err .overflow) 0) := by
  simp only [exec, execDecWrb, checkLoading_eq_ok.2 hphase, ok_bind, if_pos h, complete_raise]

theorem exec_decWrb_of_room {s : State} (hphase : s.dec.phase = .loading) (h : s.dec.len < s.cap)
    (byte : Byte) :
    exec (.decWrb byte) s = .next ((s.setDec (s.dec.append byte)).respond .ok 0) := by
  simp only [exec, execDecWrb, checkLoading_eq_ok.2 hphase, ok_bind, if_neg h.ne,
    store_of_lt s.dec.buf byte h, complete_ok]
  rfl

/-- Settles O34: the phase is checked before the room, and a byte is written at `D.len` alone. -/
theorem decWrbAppendsByte : Obligations.DecWrbAppendsByte := by
  refine ⟨decode_decWrb_word, fun s byte h => exec_decWrb_of_decoding h byte,
    fun s byte hphase h => exec_decWrb_of_full hphase h byte, fun s byte hinv hphase h => ?_⟩
  obtain ⟨-, -, -, -, -, -, hwf, -⟩ := hinv
  exact ⟨_, exec_decWrb_of_room hphase h byte, Memory.read_write_same hwf _ _,
    fun a ha => Memory.read_write_ne _ ha⟩

/-! ### DEC.LDENC (R133) -/

/-- A command that answers OK is followed by the others. -/
theorem execOk_cons_of_ok {i : Instr} {is : List Instr} {s s' : State} {rw : ResultWord}
    (h : exec i s = .next (s'.respond .ok rw)) :
    execOk (i :: is) s = execOk is (s'.respond .ok rw) := by
  simp [execOk, h]

/-- Two lists of commands run one after the other. -/
theorem execOk_append : ∀ (is js : List Instr) (s : State),
    execOk (is ++ js) s = (execOk is s).bind (execOk js) := by
  intro is js
  induction is with
  | nil => exact fun _ => rfl
  | cons i is ih =>
    intro s
    simp only [List.cons_append, execOk]
    split
    · split
      · exact ih _
      · rfl
    · rfl
    · rfl

/-- R133: the copy of the first `n` bytes is what DEC.CLR and one DEC.WRB for each of them leave. -/
theorem copyBytes_eq_writes {s : State} : ∀ {n : Nat} {m : Memory}, n ≤ s.cap →
    copyBytes s.cap s.enc.buf s.dec.buf n = .ok m →
    ∃ u, execOk (.decClr :: (List.range n).map fun a => .decWrb (s.enc.buf.read a)) s = some u ∧
      u.cap = s.cap ∧ u.dec = DecContext.loaded { s.dec with buf := m } n := by
  intro n
  induction n with
  | zero =>
    intro m _ h
    obtain rfl := Except.ok.inj h
    exact ⟨_, execOk_cons_of_ok (exec_decClr s), rfl, rfl⟩
  | succ n ih =>
    intro m hn h
    obtain ⟨m', hcopy, h⟩ := bind_eq_ok.1 h
    obtain ⟨v, hload, hstore⟩ := bind_eq_ok.1 h
    obtain ⟨-, rfl⟩ := load_eq_ok.1 hload
    obtain ⟨-, rfl⟩ := store_eq_ok.1 hstore
    obtain ⟨u, hrun, hcap, hdec⟩ := ih (by omega) hcopy
    have hwrb := exec_decWrb_of_room (s := u) (by rw [hdec]; rfl)
      (by rw [hdec, hcap]; exact hn) (s.enc.buf.read n)
    refine ⟨(u.setDec (u.dec.append (s.enc.buf.read n))).respond .ok 0, ?_, hcap, ?_⟩
    · rw [List.range_succ, List.map_append, ← List.cons_append, execOk_append, hrun,
        Option.bind_some, List.map_singleton, execOk_cons_of_ok hwrb]
      rfl
    · rw [State.respond_dec, State.setDec_dec, hdec]
      rfl

theorem exec_decLdenc {s : State} {m : Memory}
    (h : copyBytes s.cap s.enc.buf s.dec.buf s.enc.len = .ok m) :
    exec .decLdenc s =
      .next ((s.setDec (DecContext.loaded { s.dec with buf := m } s.enc.len)).respond .ok
        (BitVec.ofNat 32 s.enc.len)) := by
  simp only [exec, execDecLdenc, h, ok_bind, complete_ok, u32_natCast]

/-- Settles O35: the copy answers because the stream is no longer than the buffer. -/
theorem decLdencCopiesStream : Obligations.DecLdencCopiesStream := by
  refine ⟨by decide, fun s hinv => ?_⟩
  obtain ⟨-, ⟨-, -, -, hlen, -⟩, -, -, -, -, hbuf⟩ := hinv
  obtain ⟨m, hcopy, -, hbelow, habove⟩ := copyBytes_spec s.enc.buf hbuf hlen
  obtain ⟨u, hrun, -, hdec⟩ := copyBytes_eq_writes hlen hcopy
  exact ⟨_, exec_decLdenc hcopy, rfl, rfl, rfl, rfl, rfl, rfl, hbelow, habove, u, hrun, hdec⟩

/-! ### DEC.INIT (R134) -/

/-- R134: the context at the start of a decode session. -/
def DecContext.started (d : DecContext) : DecContext :=
  { d with range := 255, value := d.byteAt 0 ++ d.byteAt 1, bc := 0, pos := min 2 d.len,
           phase := .decoding }

theorem decStart_eq_started {cap : Nat} {d : DecContext} (hlen : d.len ≤ cap) :
    decStart cap d = .ok d.started := by
  have hfirst : nextByte cap { d with pos := 0, range := 255 } =
      .ok (d.byteAt 0, { d with pos := min 1 d.len, range := 255 }) :=
    nextByte_answers (Nat.zero_le _) hlen
  have hsecond : nextByte cap { d with pos := min 1 d.len, range := 255 } =
      .ok (d.byteAt 1, { d with pos := min 2 d.len, range := 255 }) := by
    have hpos : min (min 1 d.len + 1) d.len = min 2 d.len := by omega
    rw [← d.byteAt_min 1, ← hpos]
    exact nextByte_answers (Nat.min_le_right _ _) hlen
  simp only [decStart, hfirst, hsecond, ok_bind, DecContext.started]

theorem exec_decInit {s : State} (hlen : s.dec.len ≤ s.cap) :
    exec .decInit s = .next ((s.setDec s.dec.started).respond .ok 0) := by
  simp only [exec, execDecInit, decStart_eq_started hlen, ok_bind, complete_ok]
  rfl

theorem DecContext.started_value (d : DecContext) :
    d.started.value.toNat = (d.byteAt 0).toNat * 256 + (d.byteAt 1).toNat :=
  append_toNat (d.byteAt 0) (d.byteAt 1)

/-- Settles O36: NextByte twice. -/
theorem decInitLoadsWindow : Obligations.DecInitLoadsWindow := by
  refine ⟨by decide, fun s hinv => ?_⟩
  obtain ⟨-, -, -, -, -, hlen, -⟩ := hinv
  refine ⟨_, exec_decInit hlen, rfl, rfl, rfl, rfl, rfl, rfl, ?_⟩
  rw [← DecContext.byteAt_toNat, ← DecContext.byteAt_toNat]
  exact s.dec.started_value

/-! ### DEC.BOOL (R135) -/

theorem u32_bit (bit : Bool) : (⟨.ok, u32 bit.toNat⟩ : Response) = bitResponse bit := by
  cases bit <;> rfl

theorem exec_decBool_of_decoding {s : State} {p : Int} (hphase : s.dec.phase = .decoding)
    (h : s.dec.Aligned s.cap) (hr : 2 ≤ s.dec.range.toNat) (h0 : 0 ≤ p) (h255 : p ≤ 255) :
    exec (.decBool p) s = .next ((s.setDec (s.dec.decided p.toNat)).respond .ok
      (u32 (s.dec.nextBit p.toNat).toNat)) := by
  simp only [exec, execDecBool, checkProbability_eq_ok.2 ⟨h0, h255⟩, checkDecoding_eq_ok.2 hphase,
    ok_bind, decodeBool_eq_decided h hr (show p.toNat ≤ 255 by omega), complete_ok]

/-- Settles O37: the registers of the closed form, read as numbers. -/
theorem decBoolEffect : Obligations.DecBoolEffect := by
  refine ⟨decode_decBool_word, fun s p hinv h0 h255 hphase => ?_⟩
  obtain ⟨-, -, hdec⟩ := hinv
  have hr : 2 ≤ s.dec.range.toNat := le_trans (by omega) hdec.1
  have hp : p.toNat ≤ 255 := by omega
  intro big bit r k left fetched turn
  have hbit : s.dec.nextBit p.toNat = bit := rfl
  refine ⟨s.dec.decided p.toNat, ?_, hphase, rfl, rfl, DecContext.decided_range hr hp,
    BitVec.toNat_ofNat _ _, ?_, ?_⟩
  · rw [exec_decBool_of_decoding hphase hdec.aligned hr h0 h255, ← hbit, ← u32_bit]
    rfl
  · change (if 8 ≤ turn then min (s.dec.pos + 1) s.dec.len else s.dec.pos) = _
    have := hdec.aligned.pos_le
    split_ifs <;> omega
  · have hleft : (s.dec.select p.toNat).value.toNat = left := by
      rw [DecContext.select_value, hbit, addedToLow_eq, ite_mul, Nat.zero_mul]
      rfl
    have hfetched : (s.dec.byteAt s.dec.pos).toNat = fetched := DecContext.byteAt_toNat _ _
    rw [← hleft, ← hfetched]
    exact BitVec.toNat_ofNat _ _

end Sys2Proof.Machine

/-! The bit-serial decoder of R143 inside the registers: at any shift the window is the high byte of
`D.value`, and the low byte holds what is left of the byte that the stream index stands in. -/

namespace Sys2Proof.Machine

/-! ### The bit-serial decoder -/

/-- The decision: the window against the split. -/
def SerialDecoder.nextBit (u : SerialDecoder) (p : Nat) : Bool :=
  decide (splitAt u.range p ≤ u.window)

/-- The part of the interval that the decision selects, before the shifts. -/
def SerialDecoder.select (u : SerialDecoder) (p : Nat) : SerialDecoder :=
  ⟨intervalAfter u.range p (u.nextBit p), u.window - addedToLow u.range p (u.nextBit p), u.index⟩

/-- One shift: the next stream bit enters the window. -/
def SerialDecoder.shift (stream : DecContext) (u : SerialDecoder) : SerialDecoder :=
  ⟨u.range * 2, u.window * 2 % 256 + streamBit stream u.index, u.index + 1⟩

theorem SerialDecoder.decode_eq (stream : DecContext) (u : SerialDecoder) (p : Nat) :
    u.decode stream p = (u.nextBit p, renorm stream 7 (u.select p)) := by
  unfold decode select
  by_cases h : splitAt u.range p ≤ u.window
  · rw [show u.nextBit p = true from decide_eq_true h]
    exact if_neg (Nat.not_lt.mpr h)
  · rw [show u.nextBit p = false from decide_eq_false h]
    exact if_pos (Nat.lt_of_not_le h)

theorem SerialDecoder.renorm_of_ge {u : SerialDecoder} (h : 128 ≤ u.range) (stream : DecContext)
    (n : Nat) : renorm stream n u = u := by
  cases n with
  | zero => rfl
  | succ n => exact if_neg (by omega)

theorem SerialDecoder.renorm_succ_of_lt {u : SerialDecoder} (h : u.range < 128)
    (stream : DecContext) (n : Nat) :
    renorm stream (n + 1) u = renorm stream n (u.shift stream) := if_pos h

theorem streamBit_eq (d : DecContext) (j : Nat) :
    streamBit d j = (d.byteAt (j / 8)).toNat / 2 ^ (7 - j % 8) % 2 := by
  unfold streamBit
  split
  · next h => rw [DecContext.byteAt_of_lt h]
  · next h => simp [DecContext.byteAt_of_ge (Nat.not_lt.mp h)]

theorem SerialDecoder.start_index (d : DecContext) : (start d).index = 8 := rfl

/-- R143, R134: the first eight stream bits are the first byte. -/
theorem SerialDecoder.start_window (d : DecContext) : (start d).window = (d.byteAt 0).toNat := by
  have hbyte := (d.byteAt 0).isLt
  simp only [start, List.range, List.range.loop, List.foldl_cons, List.foldl_nil, streamBit_eq,
    Nat.reduceDiv, Nat.reduceMod, Nat.reduceSub, Nat.reducePow]
  omega

/-! ### The registers that hold it (R143) -/

/-- The registers hold the bit-serial decoder `u` of `stream`. The interval size may be below 128,
as it is within a decision. -/
structure DecContext.Follows (cap : Nat) (d stream : DecContext) (u : SerialDecoder) : Prop where
  aligned : d.Aligned cap
  stream_eq : d.byteAt = stream.byteAt
  range_eq : d.range.toNat = u.range
  index_ge : 8 ≤ u.index
  bc_eq : d.bc.toNat = u.index % 8
  pos_eq : d.pos = min (u.index / 8 + 1) d.len
  window_eq : d.value.toNat = u.window * 256 +
    (stream.byteAt (u.index / 8)).toNat * 2 ^ (u.index % 8) % 256

section Follows

variable {cap p : Nat} {stream d : DecContext} {u : SerialDecoder}

theorem DecContext.Follows.window_eq_div (h : d.Follows cap stream u) :
    u.window = d.value.toNat / 256 := by
  rw [h.window_eq]
  omega

/-- `D.bc` counts the shifts since DEC.INIT, where the index is 8. -/
theorem DecContext.Follows.bc_eq_shifts (h : d.Follows cap stream u) :
    d.bc.toNat = (u.index - 8) % 8 := by
  have hge := h.index_ge
  rw [h.bc_eq]
  omega

theorem DecContext.started_follows (hlen : d.len ≤ cap) :
    d.started.Follows cap d (SerialDecoder.start d) where
  aligned := ⟨Nat.mod_one _, Nat.min_le_right _ _, hlen⟩
  stream_eq := rfl
  range_eq := rfl
  index_ge := le_rfl
  bc_eq := by rw [SerialDecoder.start_index]; rfl
  pos_eq := by rw [SerialDecoder.start_index]; rfl
  window_eq := by
    have hbyte : (d.byteAt 1).toNat % 256 = (d.byteAt 1).toNat := Nat.mod_eq_of_lt (d.byteAt 1).isLt
    simp [started_value, SerialDecoder.start_window, SerialDecoder.start_index, hbyte]

/-- The low byte of the window decides nothing: both forms compare the same high byte. -/
theorem DecContext.Follows.nextBit_eq (h : d.Follows cap stream u) (p : Nat) :
    d.nextBit p = u.nextBit p := by
  have hwindow := h.window_eq_div
  simp only [nextBit, SerialDecoder.nextBit, h.range_eq, decide_eq_decide]
  omega

theorem DecContext.Follows.select (h : d.Follows cap stream u) (hr : 2 ≤ u.range) (hp : p ≤ 255) :
    (d.select p).Follows cap stream (u.select p) where
  aligned := h.aligned.select p
  stream_eq := h.stream_eq
  range_eq := by
    rw [select_range (by rw [h.range_eq]; exact hr) hp, h.nextBit_eq, h.range_eq]
    rfl
  index_ge := h.index_ge
  bc_eq := h.bc_eq
  pos_eq := h.pos_eq
  window_eq := by
    have hle : addedToLow u.range p (u.nextBit p) ≤ u.window := by
      rw [addedToLow_eq]
      split
      · next hbit => exact of_decide_eq_true hbit
      · exact Nat.zero_le _
    rw [select_value, h.nextBit_eq, h.range_eq, h.window_eq]
    simp only [SerialDecoder.select]
    omega

/-- What doubling the window moves from the low byte into the high byte is the stream bit (R143). -/
theorem window_double {w b m : Nat} (hb : b < 256) (hm : m ≤ 7) :
    (w * 256 + b * 2 ^ m % 256) * 2 % 2 ^ 16 =
      (w * 2 % 256 + b / 2 ^ (7 - m) % 2) * 256 + b * 2 ^ (m + 1) % 256 := by
  interval_cases m <;> omega

theorem DecContext.Follows.shift (h : d.Follows cap stream u) (hr : u.range < 128) :
    (d.shifted 1).Follows cap stream (u.shift stream) where
  aligned := h.aligned.shifted_one
  stream_eq := h.stream_eq
  range_eq := by
    rw [range_shifted_one (by rw [h.range_eq]; exact hr), h.range_eq]
    rfl
  index_ge := Nat.le_succ_of_le h.index_ge
  bc_eq := by
    simp only [shifted, SerialDecoder.shift, BitVec.toNat_ofNat, h.bc_eq]
    omega
  pos_eq := by
    simp only [shifted, SerialDecoder.shift, h.bc_eq, h.pos_eq]
    split <;> omega
  window_eq := by
    have hdouble := window_double (w := u.window) (stream.byteAt (u.index / 8)).isLt
      (show u.index % 8 ≤ 7 by omega)
    rw [← h.window_eq, ← streamBit_eq] at hdouble
    have hfetched : d.byteAt d.pos = stream.byteAt (u.index / 8 + 1) := by
      rw [h.pos_eq, byteAt_min, h.stream_eq]
    simp only [shifted, SerialDecoder.shift, h.bc_eq, hfetched, BitVec.toNat_ofNat, pow_one]
    by_cases hlast : u.index % 8 = 7
    · have hbyte : (u.index + 1) / 8 = u.index / 8 + 1 := by omega
      have hbit : (u.index + 1) % 8 = 0 := by omega
      have hlt := (stream.byteAt (u.index / 8 + 1)).isLt
      simp only [hlast, hbyte, hbit, Nat.reduceAdd, Nat.reduceSub, Nat.reducePow, le_refl, if_true,
        Nat.mul_one] at hdouble ⊢
      omega
    · have hbyte : (u.index + 1) / 8 = u.index / 8 := by omega
      have hbit : (u.index + 1) % 8 = u.index % 8 + 1 := by omega
      rw [if_neg (by omega), hbyte, hbit]
      exact hdouble

/-- R138 against R143: the loops run alike. -/
theorem DecContext.Follows.renorm : ∀ {n : Nat} {d : DecContext} {u : SerialDecoder},
    d.Follows cap stream u → 1 ≤ u.range → doublings u.range ≤ n →
    (d.shifted (doublings u.range)).Follows cap stream (SerialDecoder.renorm stream n u) := by
  intro n
  induction n with
  | zero =>
    intro d u h _ hn
    rw [Nat.le_zero.mp hn, shifted_zero]
    exact h
  | succ n ih =>
    intro d u h hpos hn
    by_cases hlt : u.range < 128
    · have hk := doublings_of_lt hpos hlt
      rw [SerialDecoder.renorm_succ_of_lt hlt, hk, ← shifted_shifted d (by unfold doublings; omega)]
      exact ih (h.shift hlt) (by simp only [SerialDecoder.shift]; omega)
        (by simp only [SerialDecoder.shift]; omega)
    · rw [SerialDecoder.renorm_of_ge (by omega), doublings_of_ge (by omega), shifted_zero]
      exact h

/-- R143 for one decision. -/
theorem DecContext.Follows.decided (h : d.Follows cap stream u) (hr : 2 ≤ u.range) (hp : p ≤ 255) :
    (d.decided p).Follows cap stream (u.decode stream p).2 := by
  rw [SerialDecoder.decode_eq, DecContext.decided, h.nextBit_eq, h.range_eq]
  exact (h.select hr hp).renorm (intervalAfter_bounds hr hp _).1 (Nat.sub_le _ _)

end Follows

/-! ### A session (R143) -/

/-- The decoder is in the middle of a session that has brought the bit-serial decoder of `stream` to
`u`. -/
structure State.Decoding (stream : DecContext) (s : State) (u : SerialDecoder) : Prop where
  follows : s.dec.Follows s.cap stream u
  phase : s.dec.phase = .decoding
  range : 128 ≤ u.range

/-- One DEC.BOOL answers the bit of the bit-serial decoder and follows it. -/
theorem State.Decoding.decBool {stream : DecContext} {s : State} {u : SerialDecoder} {p : Nat}
    (h : s.Decoding stream u) (hp : p ≤ 255) :
    ∃ s', (∀ is, execOk (.decBool p :: is) s = execOk is s') ∧
      s'.Decoding stream (u.decode stream p).2 ∧
      s'.responses = s.responses ++ [bitResponse (u.decode stream p).1] := by
  have hr : 2 ≤ u.range := le_trans (by omega) h.range
  have hr' : 2 ≤ s.dec.range.toNat := by rw [h.follows.range_eq]; exact hr
  have hexec := exec_decBool_of_decoding (p := p) h.phase h.follows.aligned hr' (by omega)
    (by omega)
  have hfollows := h.follows.decided hr hp
  refine ⟨_, fun is => execOk_cons_of_ok hexec, ⟨hfollows, h.phase, ?_⟩, ?_⟩
  · rw [← hfollows.range_eq]
    exact DecContext.le_decided_range hr' hp
  · rw [SerialDecoder.decode_eq, ← h.follows.nextBit_eq, ← u32_bit]
    rfl

/-- R143 by induction over the probabilities still to come. -/
theorem State.Decoding.decisions {stream : DecContext} : ∀ {ps : List Nat} {s t : State}
    {u : SerialDecoder}, s.Decoding stream u → (∀ p ∈ ps, p ≤ 255) →
    execOk (ps.map fun p : Nat => .decBool (p : Int)) s = some t →
    t.Decoding stream (u.decodeAll stream ps).2 ∧
      t.responses = s.responses ++ (u.decodeAll stream ps).1.map bitResponse := by
  intro ps
  induction ps with
  | nil =>
    intro s t u h _ hrun
    obtain rfl := Option.some.inj hrun
    exact ⟨h, (List.append_nil _).symm⟩
  | cons p ps ih =>
    intro s t u h hp hrun
    obtain ⟨hp0, hps⟩ := List.forall_mem_cons.1 hp
    obtain ⟨s', hfirst, hs', hanswer⟩ := h.decBool hp0
    rw [List.map_cons, hfirst] at hrun
    obtain ⟨ht, hanswers⟩ := ih hs' hps hrun
    refine ⟨ht, ?_⟩
    rw [hanswers, hanswer, List.append_assoc]
    rfl

/-- R134: DEC.INIT starts both forms. -/
theorem State.decoding_started {s : State} (hlen : s.dec.len ≤ s.cap) :
    ((s.setDec s.dec.started).respond .ok 0).Decoding s.dec (SerialDecoder.start s.dec) :=
  ⟨DecContext.started_follows hlen, rfl, by simp [SerialDecoder.start]⟩

/-- Settles O38: the registers follow the bit-serial decoder from DEC.INIT on. -/
theorem decoderEqualsBitSerialForm : Obligations.DecoderEqualsBitSerialForm := by
  intro s t ps hinv hp hrun serial
  obtain ⟨-, -, -, -, -, hlen, -⟩ := hinv
  rw [execOk_cons_of_ok (exec_decInit hlen), bind_pure_comp, List.map_eq_map, List.map_map] at hrun
  obtain ⟨⟨hfollows, -, -⟩, hanswers⟩ := (State.decoding_started hlen).decisions hp hrun
  refine ⟨?_, hfollows.window_eq_div, hfollows.range_eq.symm,
    hfollows.bc_eq_shifts⟩
  rw [hanswers, State.respond_responses, State.setDec_responses, List.append_assoc]
  rfl

end Sys2Proof.Machine

/-! The mirror of the coder (R141): as long as the stream lies in the unbounded coder's interval, the
bit-serial decoder's window is the stream less the coder's `low`, and each decision comes back. -/

namespace Sys2Proof.Machine

/-! ### The first bits of a loaded stream as a number -/

/-- The bits `0 .. j-1` of the loaded stream, zero past its end, as one number. -/
def DecContext.bitPrefix (d : DecContext) : Nat → Nat
  | 0 => 0
  | j + 1 => d.bitPrefix j * 2 + streamBit d j

theorem streamBit_lt_two (d : DecContext) (j : Nat) : streamBit d j < 2 := by
  rw [streamBit_eq]
  exact Nat.mod_lt _ two_pos

theorem SerialDecoder.start_window_eq_bitPrefix (d : DecContext) :
    (start d).window = d.bitPrefix 8 := rfl

/-- Dropping the last `i` bits leaves the bits before them. -/
theorem DecContext.bitPrefix_add_div (d : DecContext) (j i : Nat) :
    d.bitPrefix (j + i) / 2 ^ i = d.bitPrefix j := by
  induction i with
  | zero => exact Nat.div_one _
  | succ i ih =>
    have hlast : d.bitPrefix (j + i + 1) / 2 = d.bitPrefix (j + i) := by
      have hbit := streamBit_lt_two d (j + i)
      rw [bitPrefix]
      omega
    rw [pow_succ', ← Nat.div_div_eq_div_mul, ← Nat.add_assoc, hlast, ih]

/-- Eight bits more are one byte more. -/
theorem DecContext.bitPrefix_next_byte (d : DecContext) (n : Nat) :
    d.bitPrefix (8 * n + 8) = d.bitPrefix (8 * n) * 256 + (d.byteAt n).toNat := by
  have hbit : ∀ i, i < 8 → streamBit d (8 * n + i) = (d.byteAt n).toNat / 2 ^ (7 - i) % 2 := by
    intro i hi
    rw [streamBit_eq, show (8 * n + i) / 8 = n by omega, show (8 * n + i) % 8 = i by omega]
  have hbyte := (d.byteAt n).isLt
  have hfirst : streamBit d (8 * n) = (d.byteAt n).toNat / 2 ^ 7 % 2 := hbit 0 (by omega)
  simp only [bitPrefix, hfirst, hbit 1, hbit 2, hbit 3, hbit 4, hbit 5, hbit 6, hbit 7,
    Nat.reduceLT, Nat.reduceSub, Nat.reducePow]
  omega

/-- R24: the bits of whole bytes are the number of those bytes. -/
theorem DecContext.bitPrefix_eq_streamNumber (d : DecContext) : ∀ {n : Nat}, n ≤ d.len →
    d.bitPrefix (8 * n) = streamNumber d.buf n := by
  intro n
  induction n with
  | zero => exact fun _ => rfl
  | succ n ih =>
    intro hn
    rw [Nat.mul_succ, bitPrefix_next_byte, ih (by omega), byteAt_of_lt hn, streamNumber]

/-- R85, R87: the finished stream begins with the `8 + K` bits of the coder's `low`. -/
theorem DecContext.bitPrefix_of_finished {d : DecContext} {u : UnboundedCoder}
    (hlen : d.len = u.streamLength)
    (hnumber : streamNumber d.buf d.len = u.low * 2 ^ ((8 - u.shifts % 8) % 8)) :
    d.bitPrefix (8 + u.shifts) = u.low := by
  have hbits : 8 + u.shifts + (8 - u.shifts % 8) % 8 = 8 * d.len := by
    rw [hlen, UnboundedCoder.streamLength]
    omega
  rw [← d.bitPrefix_add_div _ ((8 - u.shifts % 8) % 8), hbits, d.bitPrefix_eq_streamNumber le_rfl,
    hnumber, Nat.mul_div_cancel _ (Nat.two_pow_pos _)]

/-! ### The coder's interval -/

/-- The stream, cut to the coder's own precision of `8 + K` bits, lies in its interval. -/
def UnboundedCoder.Encloses (u : UnboundedCoder) (stream : DecContext) : Prop :=
  u.low ≤ stream.bitPrefix (8 + u.shifts) ∧ stream.bitPrefix (8 + u.shifts) < u.low + u.range

namespace UnboundedCoder

variable {stream : DecContext} {u : UnboundedCoder} {bit : Bool} {p : Nat}

/-- A doubling is a change of scale: it takes in one stream bit more. -/
theorem encloses_double_iff : u.double.Encloses stream ↔ u.Encloses stream := by
  have hbit := streamBit_lt_two stream (8 + u.shifts)
  simp only [Encloses, double, ← Nat.add_assoc, DecContext.bitPrefix]
  omega

theorem encloses_renorm_iff : ∀ {n : Nat} {u : UnboundedCoder},
    (renorm n u).Encloses stream ↔ u.Encloses stream := by
  intro n
  induction n with
  | zero => exact Iff.rfl
  | succ n ih =>
    intro u
    by_cases hlt : u.range < 128
    · rw [renorm_succ_of_lt hlt, ih, encloses_double_iff]
    · rw [renorm_of_ge (by omega)]

theorem encloses_decide_iff :
    (u.decide (bit, p)).Encloses stream ↔ (u.select bit p).Encloses stream := by
  rw [decide_eq, encloses_renorm_iff]

/-- R115: a decision only narrows the interval. -/
theorem Encloses.of_decide (hr : 2 ≤ u.range) (hp : p ≤ 255)
    (h : (u.decide (bit, p)).Encloses stream) : u.Encloses stream := by
  obtain ⟨hlow, hhigh⟩ := encloses_decide_iff.1 h
  have hinside := addedToLow_add_intervalAfter_le hr hp bit
  simp only [select] at hlow hhigh
  exact ⟨by omega, by omega⟩

theorem le_range_foldl : ∀ {ds : List (Bool × Nat)} {u : UnboundedCoder}, 128 ≤ u.range →
    (∀ d ∈ ds, d.2 ≤ 255) → 128 ≤ (ds.foldl decide u).range := by
  intro ds
  induction ds with
  | nil => exact fun h _ => h
  | cons d ds ih =>
    intro u h hp
    obtain ⟨hd, hds⟩ := List.forall_mem_cons.1 hp
    exact ih (le_range_decide (by omega) hd) hds

/-- What lies in the interval after some decisions lay in it before them. -/
theorem Encloses.of_foldl : ∀ {ds : List (Bool × Nat)} {u : UnboundedCoder}, 128 ≤ u.range →
    (∀ d ∈ ds, d.2 ≤ 255) → (ds.foldl decide u).Encloses stream → u.Encloses stream := by
  intro ds
  induction ds with
  | nil => exact fun _ _ h => h
  | cons d ds ih =>
    intro u hr hp h
    obtain ⟨hd, hds⟩ := List.forall_mem_cons.1 hp
    exact (ih (le_range_decide (by omega) hd) hds h).of_decide (by omega) hd

end UnboundedCoder

/-! ### The bit-serial decoder beside the coder -/

/-- The bit-serial decoder stands where the coder stood: same interval size, and the window is the
stream less the coder's `low`, which lies in the interval. -/
structure SerialDecoder.Tracks (stream : DecContext) (v : SerialDecoder) (u : UnboundedCoder) :
    Prop where
  range_eq : v.range = u.range
  index_eq : v.index = 8 + u.shifts
  low_add_window : u.low + v.window = stream.bitPrefix v.index
  window_lt : v.window < v.range

namespace SerialDecoder

variable {stream : DecContext} {v : SerialDecoder} {u : UnboundedCoder} {bit : Bool} {p : Nat}

theorem start_tracks (h : UnboundedCoder.start.Encloses stream) :
    (start stream).Tracks stream UnboundedCoder.start where
  range_eq := rfl
  index_eq := rfl
  low_add_window := (Nat.zero_add _).trans (start_window_eq_bitPrefix stream)
  window_lt := by
    rw [start_window_eq_bitPrefix]
    exact h.2.trans_eq (Nat.zero_add _)

/-- The decoder takes the part of the interval that the stream lies in. -/
theorem Tracks.nextBit_eq (h : v.Tracks stream u) (hin : (u.select bit p).Encloses stream) :
    v.nextBit p = bit := by
  obtain ⟨hlow, hhigh⟩ := hin
  have hwindow := h.low_add_window
  rw [h.index_eq] at hwindow
  simp only [UnboundedCoder.select, intervalAfter_eq, addedToLow_eq] at hlow hhigh
  rw [nextBit, h.range_eq]
  cases bit with
  | false =>
    simp only [Bool.false_eq_true, if_false] at hhigh
    exact decide_eq_false (by omega)
  | true =>
    simp only [if_true] at hlow
    exact decide_eq_true (by omega)

theorem Tracks.select (h : v.Tracks stream u) (hin : (u.select bit p).Encloses stream) :
    (v.select p).Tracks stream (u.select bit p) := by
  obtain ⟨hlow, hhigh⟩ := hin
  have hwindow := h.low_add_window
  rw [h.index_eq] at hwindow
  simp only [UnboundedCoder.select] at hlow hhigh
  rw [SerialDecoder.select, h.nextBit_eq ⟨hlow, hhigh⟩, h.range_eq]
  refine ⟨rfl, h.index_eq, ?_, ?_⟩
  · simp only [UnboundedCoder.select, h.index_eq]
    omega
  · simp only
    omega

theorem Tracks.shift (h : v.Tracks stream u) (hr : u.range < 128) :
    (v.shift stream).Tracks stream u.double := by
  have hbit := streamBit_lt_two stream v.index
  have hwindow := h.low_add_window
  have hlt := h.window_lt
  have hrange := h.range_eq
  rw [SerialDecoder.shift, UnboundedCoder.double]
  refine ⟨?_, ?_, ?_, ?_⟩
  · exact congrArg (· * 2) hrange
  · exact congrArg (· + 1) h.index_eq
  · simp only [DecContext.bitPrefix]
    omega
  · simp only
    omega

theorem Tracks.renorm : ∀ {n : Nat} {v : SerialDecoder} {u : UnboundedCoder}, v.Tracks stream u →
    (SerialDecoder.renorm stream n v).Tracks stream (UnboundedCoder.renorm n u) := by
  intro n
  induction n with
  | zero => exact id
  | succ n ih =>
    intro v u h
    by_cases hlt : u.range < 128
    · rw [SerialDecoder.renorm_succ_of_lt (by rw [h.range_eq]; exact hlt),
        UnboundedCoder.renorm_succ_of_lt hlt]
      exact ih (h.shift hlt)
    · rw [SerialDecoder.renorm_of_ge (by rw [h.range_eq]; omega),
        UnboundedCoder.renorm_of_ge (by omega)]
      exact h

/-- R141 for one decision: if the stream lies in the part that the coder chose, the decoder answers the
coder's bit and stays beside it. -/
theorem Tracks.decode (h : v.Tracks stream u) (hin : (u.decide (bit, p)).Encloses stream) :
    (v.decode stream p).1 = bit ∧ (v.decode stream p).2.Tracks stream (u.decide (bit, p)) := by
  have hselect := UnboundedCoder.encloses_decide_iff.1 hin
  rw [decode_eq, UnboundedCoder.decide_eq]
  exact ⟨h.nextBit_eq hselect, (h.select hselect).renorm⟩

end SerialDecoder

/-! ### The decoder's registers beside the coder -/

/-- The decoder's registers hold a bit-serial decoder of `stream` that stands where the coder `u`
stood between two decisions. -/
structure DecContext.Replays (cap : Nat) (d stream : DecContext) (u : UnboundedCoder) : Prop where
  phase : d.phase = .decoding
  range : 128 ≤ u.range
  serial : ∃ v, d.Follows cap stream v ∧ v.Tracks stream u

theorem DecContext.started_replays {cap : Nat} {d : DecContext} (hlen : d.len ≤ cap)
    (h : UnboundedCoder.start.Encloses d) : d.started.Replays cap d UnboundedCoder.start :=
  ⟨rfl, by decide, _, started_follows hlen, SerialDecoder.start_tracks h⟩

/-- R141 for one decision of the registers. -/
theorem DecContext.Replays.decodeBool {cap p : Nat} {d stream : DecContext} {u : UnboundedCoder}
    {bit : Bool} (h : d.Replays cap stream u) (hp : p ≤ 255)
    (hin : (u.decide (bit, p)).Encloses stream) :
    ∃ d', decodeBool cap p d = .ok (bit, d') ∧ d'.Replays cap stream (u.decide (bit, p)) := by
  obtain ⟨hphase, hrange, v, hfollows, htracks⟩ := h
  obtain ⟨hbit, htracks'⟩ := htracks.decode hin
  have hr : 2 ≤ v.range := by rw [htracks.range_eq]; omega
  have hr' : 2 ≤ d.range.toNat := by rw [hfollows.range_eq]; exact hr
  have hbit' : d.nextBit p = bit := by
    rw [hfollows.nextBit_eq, ← hbit, SerialDecoder.decode_eq]
  refine ⟨d.decided p, ?_, hphase, UnboundedCoder.le_range_decide (by omega) hp, _,
    hfollows.decided hr hp, htracks'⟩
  rw [decodeBool_eq_decided hfollows.aligned hr' hp, hbit']

end Sys2Proof.Machine

/-! A schema coded and replayed (R158): each item of a schema stands for a list of decisions, which
the encoder's command makes and the decoder's command reads back. -/

namespace Sys2Proof.Machine

/-! ### The decisions of an item (R150 to R154) -/

/-- The decisions of `n` bits of a literal, most significant first (R150, R151). -/
def bitDecisions (v n : Nat) : List (Bool × Nat) := (bitsDown v n).map fun bit => (bit, 128)

theorem bitDecisions_succ (v n : Nat) :
    bitDecisions v (n + 1) = (v.testBit n, 128) :: bitDecisions v n := rfl

/-- The decisions that an item's command makes: a signed literal's sign comes first (R152). -/
def Item.decisions : Item → List (Bool × Nat)
  | .decision bit p => [(bit, p)]
  | .unsigned n v => bitDecisions v n
  | .signed n v => (decide (v < 0), 128) :: bitDecisions v.natAbs (n - 1)

theorem bitDecisions_probability (v n : Nat) : ∀ d ∈ bitDecisions v n, d.2 ≤ 255 := by
  intro d hd
  obtain ⟨bit, -, rfl⟩ := List.mem_map.1 hd
  exact (by decide : 128 ≤ 255)

theorem Item.decisions_probability {x : Item} (h : x.legal = true) :
    ∀ d ∈ x.decisions, d.2 ≤ 255 := by
  cases x with
  | decision bit p => simpa [decisions, legal] using h
  | unsigned n v => exact bitDecisions_probability v n
  | signed n v => exact List.forall_mem_cons.2 ⟨(by decide : 128 ≤ 255), bitDecisions_probability _ _⟩

theorem schema_probability {items : List Item} (h : ∀ x ∈ items, x.legal = true) :
    ∀ d ∈ items.flatMap Item.decisions, d.2 ≤ 255 := by
  intro d hd
  obtain ⟨x, hx, hd⟩ := List.mem_flatMap.1 hd
  exact Item.decisions_probability (h x hx) d hd

/-- R158: a signed literal's magnitude fits the bits that follow its sign. -/
theorem natAbs_lt_of_legal {n : Nat} {v : Int} (h : (Item.signed n v).legal = true) :
    v.natAbs < 2 ^ (n - 1) := by
  simp only [Item.legal, Bool.and_eq_true, decide_eq_true_eq] at h
  obtain ⟨⟨-, hlow⟩, hhigh⟩ := h
  zify
  rw [abs_lt]
  constructor <;> omega

/-! ### Coding an item -/

/-- R121 for one decision that is answered. -/
theorem EncContext.Holds.encodeBool {cap p : Nat} {bit : Bool} {e e' : EncContext}
    {u : UnboundedCoder} (h : e.Holds cap u) (hr : 128 ≤ u.range) (hp : p ≤ 255)
    (he : encodeBool cap bit p e = .ok e') : e'.Holds cap (u.decide (bit, p)) := by
  have hbool := encodeBool_holds h (bit := bit) (by omega : 2 ≤ u.range) hp
  rw [he] at hbool
  cases hbool with
  | holds h' => exact h'

theorem EncContext.Holds.putBits {cap v : Nat} : ∀ {n : Nat} {e e' : EncContext}
    {u : UnboundedCoder}, e.Holds cap u → 128 ≤ u.range → putBits cap v n e = .ok e' →
    e'.Holds cap ((bitDecisions v n).foldl UnboundedCoder.decide u) := by
  intro n
  induction n with
  | zero =>
    intro e e' u h _ he
    obtain rfl := Except.ok.inj he
    exact h
  | succ n ih =>
    intro e e' u h hr he
    obtain ⟨e1, hfirst, hrest⟩ := bind_eq_ok.1 he
    exact ih (h.encodeBool hr (by omega) hfirst)
      (UnboundedCoder.le_range_decide (by omega) (by omega)) hrest

section PutCommands

variable {s : State} {n : Nat} (hactive : s.enc.phase = .active) (h1 : 1 ≤ n) (h32 : n ≤ 32)
include hactive h1 h32

theorem exec_litPutu_of_active (v : Nat) :
    exec (.litPutu n v) s = complete s (do
      let e ← putBits s.cap v n s.enc
      .ok (s.setEnc e, 0)) := by
  simp only [exec, execLitPutu, checkNumBits_eq_ok.2 (by omega : 1 ≤ (n : Int) ∧ (n : Int) ≤ 32),
    checkActive_eq_ok.2 hactive, ok_bind, Int.toNat_natCast]

theorem exec_litPuts_of_active (v : Int) :
    exec (.litPuts n v) s = complete s (do
      let e ← (do
        let e ← encodeBool s.cap (decide (v < 0)) 128 s.enc
        putBits s.cap v.natAbs (n - 1) e)
      .ok (s.setEnc e, 0)) := by
  simp only [exec, execLitPuts, checkNumBits_eq_ok.2 (by omega : 1 ≤ (n : Int) ∧ (n : Int) ≤ 32),
    checkActive_eq_ok.2 hactive, ok_bind, Int.toNat_natCast, bind_assoc]

end PutCommands

/-- A coding session whose decoder can still take a copy of the stream (R133). -/
structure State.Recording (s : State) (u : UnboundedCoder) : Prop extends s.Coding u where
  dec_ok : s.dec.buf.Ok s.cap

/-- A command that answers OK and only advances the encoder continues the session. -/
theorem State.Recording.advance {s t : State} {u u' : UnboundedCoder} {i : Instr} {is : List Instr}
    {x : Except Stop EncContext} (h : s.Recording u)
    (hexec : exec i s = complete s (x >>= fun e => .ok (s.setEnc e, 0)))
    (hx : ∀ e, x = .ok e → e.Holds s.cap u' ∧ EncFrame s.cap s.enc e) (hr : 128 ≤ u'.range)
    (hrun : execOk (i :: is) s = some t) : ∃ s', s'.Recording u' ∧ execOk is s' = some t := by
  obtain ⟨s1, v, hok, hrest⟩ := execOk_cons hexec hrun
  obtain ⟨e, he, hok⟩ := bind_eq_ok.1 hok
  obtain ⟨rfl, rfl⟩ := Prod.mk.inj (Except.ok.inj hok)
  obtain ⟨hholds, hframe⟩ := hx e he
  exact ⟨(s.setEnc e).respond .ok (u32 0), ⟨⟨hholds, hframe.phase.trans h.phase, hr⟩, h.dec_ok⟩, hrest⟩

/-- An item that is coded takes the unbounded coder through the item's decisions. -/
theorem State.Recording.put {s t : State} {u : UnboundedCoder} {x : Item} {is : List Instr}
    (h : s.Recording u) (hx : x.legal = true) (hrun : execOk (x.put :: is) s = some t) :
    ∃ s', s'.Recording (x.decisions.foldl UnboundedCoder.decide u) ∧ execOk is s' = some t := by
  have hr := UnboundedCoder.le_range_foldl h.range (Item.decisions_probability hx)
  cases x with
  | decision bit p =>
    have hp : p ≤ 255 := of_decide_eq_true hx
    exact h.advance (exec_encBool_of_active (p := p) h.phase (by omega) (by omega) bit)
      (fun e he => ⟨h.holds.encodeBool h.range hp he, encodeBool_frame he⟩) hr hrun
  | unsigned n v =>
    simp only [Item.legal, Bool.and_eq_true, decide_eq_true_eq] at hx
    obtain ⟨⟨h1, h32⟩, -⟩ := hx
    exact h.advance (exec_litPutu_of_active h.phase h1 h32 v)
      (fun e he => ⟨h.holds.putBits h.range he, putBits_frame he⟩) hr hrun
  | signed n v =>
    simp only [Item.legal, Bool.and_eq_true, decide_eq_true_eq] at hx
    obtain ⟨⟨⟨h1, h32⟩, -⟩, -⟩ := hx
    refine h.advance (exec_litPuts_of_active h.phase h1 h32 v) (fun e he => ?_) hr hrun
    obtain ⟨e1, hsign, hbits⟩ := bind_eq_ok.1 he
    have hr1 := UnboundedCoder.le_range_decide (bit := decide (v < 0)) (p := 128)
      (le_trans (by omega) h.range) (by omega)
    exact ⟨(h.holds.encodeBool h.range (by omega) hsign).putBits hr1 hbits,
      (encodeBool_frame hsign).trans (putBits_frame hbits)⟩

theorem State.Recording.puts : ∀ {items : List Item} {s t : State} {u : UnboundedCoder}
    {is : List Instr}, s.Recording u → (∀ x ∈ items, x.legal = true) →
    execOk (items.map Item.put ++ is) s = some t →
    ∃ s', s'.Recording ((items.flatMap Item.decisions).foldl UnboundedCoder.decide u) ∧
      execOk is s' = some t := by
  intro items
  induction items with
  | nil => exact fun h _ hrun => ⟨_, h, hrun⟩
  | cons x items ih =>
    intro s t u is h hlegal hrun
    obtain ⟨hx, hitems⟩ := List.forall_mem_cons.1 hlegal
    obtain ⟨s1, h1, hrest⟩ := h.put hx hrun
    rw [List.flatMap_cons, List.foldl_append]
    exact ih h1 hitems hrest

/-- R119, R133, R134: the finished stream, copied and loaded, lies in the coder's interval, and the
decoder stands at its start. -/
theorem State.Recording.load_stream {s t : State} {u : UnboundedCoder} (h : s.Recording u)
    (hrun : execOk [.encFinish, .decLdenc, .decInit] s = some t) :
    ∃ stream, u.Encloses stream ∧ stream.len ≤ t.cap ∧ t.dec = stream.started := by
  obtain ⟨s1, v, hok, hrest⟩ := execOk_cons (exec_encFinish_of_active h.phase) hrun
  obtain ⟨e, he, hok⟩ := bind_eq_ok.1 hok
  obtain ⟨rfl, rfl⟩ := Prod.mk.inj (Except.ok.inj hok)
  obtain ⟨hlen, hnumber⟩ := encFlush_stream h.holds he
  have hcap : e.len ≤ s.cap := by
    rcases encFlush_cases he with ⟨-, hroom, rfl⟩ | ⟨-, hroom, -, rfl⟩ <;> exact hroom
  obtain ⟨m, hcopy, -, hsame, -⟩ := copyBytes_spec e.buf h.dec_ok hcap
  rw [execOk_cons_of_ok (exec_decLdenc hcopy), execOk_cons_of_ok (exec_decInit hcap)] at hrest
  obtain rfl := Option.some.inj hrest
  refine ⟨DecContext.loaded { s.dec with buf := m } e.len, ?_, hcap, rfl⟩
  have hlow : (DecContext.loaded { s.dec with buf := m } e.len).bitPrefix (8 + u.shifts) = u.low :=
    DecContext.bitPrefix_of_finished hlen ((streamNumber_congr hsame).trans hnumber)
  have hrange := h.range
  rw [UnboundedCoder.Encloses, hlow]
  omega

/-! ### Reading an item back -/

/-- R153: reading `n` bits appends the low `n` bits of the number that was coded. -/
theorem DecContext.Replays.getBits {cap v : Nat} {stream : DecContext} : ∀ {n acc : Nat}
    {d : DecContext} {u : UnboundedCoder}, d.Replays cap stream u →
    ((bitDecisions v n).foldl UnboundedCoder.decide u).Encloses stream →
    ∃ d', getBits cap n acc d = .ok (acc * 2 ^ n + v % 2 ^ n, d') ∧
      d'.Replays cap stream ((bitDecisions v n).foldl UnboundedCoder.decide u) := by
  intro n
  induction n with
  | zero =>
    intro acc d u h _
    exact ⟨d, by simp [Machine.getBits, Nat.mod_one], h⟩
  | succ n ih =>
    intro acc d u h hin
    rw [bitDecisions_succ, List.foldl_cons] at hin ⊢
    have hr := UnboundedCoder.le_range_decide (bit := v.testBit n) (p := 128)
      (le_trans (by omega) h.range) (by omega)
    obtain ⟨d1, hbit, h1⟩ := h.decodeBool (by omega)
      (hin.of_foldl hr (bitDecisions_probability v n))
    obtain ⟨d', hbits, h'⟩ := ih (acc := acc * 2 + (v.testBit n).toNat) h1 hin
    refine ⟨d', ?_, h'⟩
    have hnumber : (acc * 2 + (v.testBit n).toNat) * 2 ^ n + v % 2 ^ n =
        acc * 2 ^ (n + 1) + v % 2 ^ (n + 1) := by
      rw [Nat.mod_pow_succ, Nat.toNat_testBit]
      ring
    rw [Machine.getBits, hbit, ← hnumber]
    exact hbits

theorem exec_decBool_of_ok {s : State} {p : Nat} {bit : Bool} {d : DecContext}
    (hphase : s.dec.phase = .decoding) (hp : p ≤ 255) (h : decodeBool s.cap p s.dec = .ok (bit, d)) :
    exec (.decBool p) s = .next ((s.setDec d).respond .ok (u32 bit.toNat)) := by
  simp only [exec, execDecBool,
    checkProbability_eq_ok.2 (by omega : 0 ≤ (p : Int) ∧ (p : Int) ≤ 255),
    checkDecoding_eq_ok.2 hphase, ok_bind, Int.toNat_natCast, h, complete_ok]

section GetCommands

variable {s : State} {n : Nat} (hphase : s.dec.phase = .decoding) (h1 : 1 ≤ n) (h32 : n ≤ 32)
include hphase h1 h32

theorem exec_litGetu_of_ok {v : Nat} {d : DecContext} (h : getBits s.cap n 0 s.dec = .ok (v, d)) :
    exec (.litGetu n) s = .next ((s.setDec d).respond .ok (u32 v)) := by
  simp only [exec, execLitGetu, checkNumBits_eq_ok.2 (by omega : 1 ≤ (n : Int) ∧ (n : Int) ≤ 32),
    checkDecoding_eq_ok.2 hphase, ok_bind, Int.toNat_natCast, h, complete_ok]

theorem exec_litGets_of_ok {neg : Bool} {m : Nat} {d d' : DecContext}
    (hsign : decodeBool s.cap 128 s.dec = .ok (neg, d))
    (hbits : getBits s.cap (n - 1) 0 d = .ok (m, d')) :
    exec (.litGets n) s =
      .next ((s.setDec d').respond .ok (u32 (if neg then -(m : Int) else m))) := by
  simp only [exec, execLitGets, checkNumBits_eq_ok.2 (by omega : 1 ≤ (n : Int) ∧ (n : Int) ≤ 32),
    checkDecoding_eq_ok.2 hphase, ok_bind, Int.toNat_natCast, hsign, hbits, complete_ok]

end GetCommands

/-- The command that reads an item back answers the item's value and stays beside the coder. -/
theorem DecContext.Replays.get {s : State} {stream : DecContext} {u : UnboundedCoder} {x : Item}
    (h : s.dec.Replays s.cap stream u) (hx : x.legal = true)
    (hin : (x.decisions.foldl UnboundedCoder.decide u).Encloses stream) :
    ∃ d rw, exec x.get s = .next ((s.setDec d).respond .ok rw) ∧ ⟨.ok, rw⟩ = x.answer ∧
      d.Replays s.cap stream (x.decisions.foldl UnboundedCoder.decide u) := by
  cases x with
  | decision bit p =>
    have hp : p ≤ 255 := of_decide_eq_true hx
    obtain ⟨d, hbit, hd⟩ := h.decodeBool hp hin
    exact ⟨d, _, exec_decBool_of_ok h.phase hp hbit, u32_bit bit, hd⟩
  | unsigned n v =>
    simp only [Item.legal, Bool.and_eq_true, decide_eq_true_eq] at hx
    obtain ⟨⟨h1, h32⟩, hv⟩ := hx
    obtain ⟨d, hbits, hd⟩ := h.getBits (acc := 0) hin
    rw [Nat.zero_mul, Nat.zero_add, Nat.mod_eq_of_lt hv] at hbits
    refine ⟨d, _, exec_litGetu_of_ok h.phase h1 h32 hbits, ?_, hd⟩
    rw [u32_natCast]
    rfl
  | signed n v =>
    have hv := natAbs_lt_of_legal hx
    simp only [Item.legal, Bool.and_eq_true, decide_eq_true_eq] at hx
    obtain ⟨⟨⟨h1, h32⟩, -⟩, -⟩ := hx
    rw [Item.decisions, List.foldl_cons] at hin ⊢
    have hr := UnboundedCoder.le_range_decide (bit := decide (v < 0)) (p := 128)
      (le_trans (by omega) h.range) (by omega)
    obtain ⟨d1, hsign, hd1⟩ := h.decodeBool (by omega)
      (hin.of_foldl hr (bitDecisions_probability _ _))
    obtain ⟨d, hbits, hd⟩ := hd1.getBits (acc := 0) hin
    rw [Nat.zero_mul, Nat.zero_add, Nat.mod_eq_of_lt hv] at hbits
    refine ⟨d, _, exec_litGets_of_ok h.phase h1 h32 hsign hbits, ?_, hd⟩
    have hvalue : (if decide (v < 0) then -(v.natAbs : Int) else v.natAbs) = v := by
      simp only [decide_eq_true_eq]
      split <;> omega
    rw [hvalue]
    rfl

theorem DecContext.Replays.gets {stream : DecContext} : ∀ {items : List Item} {s : State}
    {u : UnboundedCoder}, s.dec.Replays s.cap stream u → (∀ x ∈ items, x.legal = true) →
    ((items.flatMap Item.decisions).foldl UnboundedCoder.decide u).Encloses stream →
    ∃ t, execOk (items.map Item.get) s = some t ∧
      t.responses = s.responses ++ items.map Item.answer := by
  intro items
  induction items with
  | nil => exact fun _ _ _ => ⟨_, rfl, (List.append_nil _).symm⟩
  | cons x items ih =>
    intro s u h hlegal hin
    obtain ⟨hx, hitems⟩ := List.forall_mem_cons.1 hlegal
    rw [List.flatMap_cons, List.foldl_append] at hin
    have hr := UnboundedCoder.le_range_foldl h.range (Item.decisions_probability hx)
    obtain ⟨d, rw, hexec, hanswer, hd⟩ := h.get hx (hin.of_foldl hr (schema_probability hitems))
    obtain ⟨t, hrun, hanswers⟩ := ih (s := (s.setDec d).respond .ok rw) hd hitems hin
    refine ⟨t, (execOk_cons_of_ok hexec).trans hrun, ?_⟩
    rw [hanswers, State.respond_responses, hanswer, List.append_assoc]
    rfl

/-- Settles O45: the loaded stream lies in the interval that the coder ends with, so in every interval
before it, and each item is read back in turn. -/
theorem schemaRoundTrip : Obligations.SchemaRoundTrip := by
  intro s t items hinv hlegal hrun
  obtain ⟨s1, v, hok, hrest⟩ := execOk_cons (r := .ok (s.setEnc s.enc.fresh, 0)) rfl hrun
  obtain ⟨rfl, rfl⟩ := Prod.mk.inj (Except.ok.inj hok)
  have ⟨_, _, _, _, _, _, hdec⟩ := hinv
  have hfresh : ((s.setEnc s.enc.fresh).respond .ok (u32 0)).Recording UnboundedCoder.start :=
    ⟨hinv.coding_fresh.respond .ok (u32 0), hdec⟩
  obtain ⟨s2, hcoded, hfinish⟩ := hfresh.puts hlegal hrest
  obtain ⟨stream, hin, hlen, hstart⟩ := hcoded.load_stream hfinish
  have hreplays : t.dec.Replays t.cap stream UnboundedCoder.start :=
    hstart ▸ DecContext.started_replays hlen (hin.of_foldl (by decide) (schema_probability hlegal))
  exact hreplays.gets hlegal hin

end Sys2Proof.Machine

/-! The block commands and the transforms as their two passes (44_block_transforms.md R171 to
R184). -/

namespace Sys2Proof.Machine

/-! ### Rows, columns and elements (R171) -/

theorem Quad.get_map {α β : Type} (f : α → β) (q : Quad α) (i : Nat) :
    (q.map f).get i = f (q.get i) := by
  match i with
  | 0 | 1 | 2 | _ + 3 => rfl

theorem Quad.get_transpose {α : Type} (g : Quad (Quad α)) (i : Nat) :
    g.transpose.get i = g.map (Quad.get · i) := by
  match i with
  | 0 | 1 | 2 | _ + 3 => rfl

theorem Quad.transpose_transpose {α : Type} (g : Quad (Quad α)) : g.transpose.transpose = g := rfl

theorem Block.get_row (b : Block) (r : Nat) {j : Nat} (hj : j < 4) :
    b.get (4 * r + j) = (Quad.get b r).get j := by
  have hrow : (4 * r + j) / 4 = r := by omega
  have hcolumn : (4 * r + j) % 4 = j := by omega
  rw [Block.get, hrow, hcolumn]

/-- The elements of row `r`, in the order of a stage's operands. -/
theorem Block.row_eq (b : Block) (r : Nat) :
    Quad.get b r = ⟨b.get (4 * r), b.get (4 * r + 1), b.get (4 * r + 2), b.get (4 * r + 3)⟩ := by
  have h0 := b.get_row r (by omega : 0 < 4)
  rw [Nat.add_zero] at h0
  rw [h0, b.get_row r (by omega : 1 < 4), b.get_row r (by omega : 2 < 4),
    b.get_row r (by omega : 3 < 4)]
  rfl

/-- The elements of column `c`, in the order of a stage's operands. -/
theorem Block.column_eq (b : Block) {c : Nat} (hc : c < 4) :
    (Quad.transpose b).get c = ⟨b.get c, b.get (4 + c), b.get (8 + c), b.get (12 + c)⟩ := by
  have h0 := b.get_row 0 hc
  rw [Nat.mul_zero, Nat.zero_add] at h0
  rw [h0, b.get_row 1 hc, b.get_row 2 hc, b.get_row 3 hc, Quad.get_transpose]
  rfl

/-! ### The two passes (R177) -/

/-- The four expressions of a stage, applied to the same four elements. -/
def Quad.stages (y0 y1 y2 y3 : Stage) (x : Quad Int) : Quad Int :=
  ⟨y0 x.x0 x.x1 x.x2 x.x3, y1 x.x0 x.x1 x.x2 x.x3, y2 x.x0 x.x1 x.x2 x.x3, y3 x.x0 x.x1 x.x2 x.x3⟩

theorem rowPass_row (f : Quad Int → Quad Int) (b : Block) (r : Nat) :
    Quad.get (rowPass f b) r = (f ((Quad.get b r).map BitVec.toInt)).map wrap32 := Quad.get_map ..

theorem columnPass_column (f : Quad Int → Quad Int) (q : Int → Int) (b : Block) (c : Nat) :
    (Quad.transpose (columnPass f q b)).get c =
      (f (((Quad.transpose b).get c).map BitVec.toInt)).map fun t => wrap32 (q t) := by
  rw [columnPass, Quad.transpose_transpose, Quad.get_map]

theorem rowPass_isRowPass {f : Quad Int → Quad Int} {y0 y1 y2 y3 : Stage}
    (hf : ∀ x, f x = Quad.stages y0 y1 y2 y3 x) (b : Block) :
    IsRowPass y0 y1 y2 y3 b (rowPass f b) := by
  intro r _
  have hrow := rowPass_row f b r
  rw [Block.row_eq, Block.row_eq b, hf] at hrow
  obtain ⟨h0, h1, h2, h3⟩ := Quad.mk.inj hrow
  exact ⟨h0, h1, h2, h3⟩

theorem columnPass_isColumnPass {f : Quad Int → Quad Int} {y0 y1 y2 y3 : Stage}
    (hf : ∀ x, f x = Quad.stages y0 y1 y2 y3 x) (q : Int → Int) (b : Block) :
    IsColumnPass (fun a b c d => q (y0 a b c d)) (fun a b c d => q (y1 a b c d))
      (fun a b c d => q (y2 a b c d)) (fun a b c d => q (y3 a b c d)) b (columnPass f q b) := by
  intro c hc
  have hcolumn := columnPass_column f q b c
  rw [Block.column_eq _ hc, Block.column_eq b hc, hf] at hcolumn
  obtain ⟨h0, h1, h2, h3⟩ := Quad.mk.inj hcolumn
  exact ⟨h0, h1, h2, h3⟩

/-! ### The stages as their expressions (R176, R180, R182) -/

theorem had4_eq (x : Quad Int) :
    had4 x = Quad.stages (fun a b c d => a + b + c + d) (fun a b c d => a + b - c - d)
      (fun a b c d => a - b - c + d) (fun a b c d => a - b + c - d) x := by
  simp only [had4, Quad.stages, Quad.mk.injEq]
  omega

theorem fdctRow_eq (x : Quad Int) :
    fdctRow x = Quad.stages (fun a b c d => 8 * (a + b + c + d))
      (fun a b c d => (8 * (b - c) * 2217 + 8 * (a - d) * 5352 + 2048) / 4096)
      (fun a b c d => 8 * (a - b - c + d))
      (fun a b c d => (8 * (a - d) * 2217 - 8 * (b - c) * 5352 + 2048) / 4096) x := by
  simp only [fdctRow, asr, Quad.stages, Quad.mk.injEq]
  omega

theorem fdctCol_eq (x : Quad Int) :
    fdctCol x = Quad.stages (fun a b c d => (a + b + c + d + 8) / 16)
      (fun a b c d => ((b - c) * 2217 + (a - d) * 5352 + 32768) / 65536)
      (fun a b c d => (a - b - c + d + 8) / 16)
      (fun a b c d => ((a - d) * 2217 - (b - c) * 5352 + 32768) / 65536) x := by
  simp only [fdctCol, asr, Quad.stages, Quad.mk.injEq]
  omega

/-- R182: what the second and third outputs of `Idct4` take from the odd inputs. -/
def idctOdd1 (b d : Int) : Int := b * 35468 / 65536 - (d + d * 20091 / 65536)

/-- R182: what the first and fourth outputs of `Idct4` take from the odd inputs. -/
def idctOdd2 (b d : Int) : Int := b + b * 20091 / 65536 + d * 35468 / 65536

theorem idct4_eq (x : Quad Int) :
    idct4 x = Quad.stages
      (fun a b c d => a + c + idctOdd2 b d) (fun a b c d => a - c + idctOdd1 b d)
      (fun a b c d => a - c - idctOdd1 b d) (fun a b c d => a + c - idctOdd2 b d) x := rfl

/-! ### The four full transforms (R178, R179, R181, R183) -/

/-- Settles O48: both transforms are the Hadamard stage in both passes and differ in the scaling. -/
theorem walshHadamardEffect : Obligations.WalshHadamardEffect :=
  ⟨by decide, by decide, fun s =>
    ⟨⟨_, _, rfl, rowPass_isRowPass had4_eq s.blk, columnPass_isColumnPass had4_eq _ _⟩,
      _, _, rfl, rowPass_isRowPass had4_eq s.blk, columnPass_isColumnPass had4_eq _ _⟩⟩

/-- Settles O49: the scaling is inside the column stage. -/
theorem dctEffect : Obligations.DctEffect :=
  ⟨by decide, fun s => ⟨_, _, rfl, rowPass_isRowPass fdctRow_eq s.blk,
    columnPass_isColumnPass fdctCol_eq _ _⟩⟩

/-- Settles O50: both passes are `Idct4`, the second scaled. -/
theorem idctEffect : Obligations.IdctEffect :=
  ⟨by decide, fun s => ⟨_, _, rfl, rowPass_isRowPass idct4_eq s.blk,
    columnPass_isColumnPass idct4_eq _ _⟩⟩

/-! ### XFM.DCT0 (R184) -/

theorem u32_toInt (x : ResultWord) : u32 x.toInt = x := BitVec.ofInt_toInt

theorem wrap32_toInt_of_fits {v : Int} (hlo : -2 ^ 31 ≤ v) (hhi : v < 2 ^ 31) :
    (wrap32 v).toInt = v := by
  rw [wrap32, BitVec.toInt_ofInt]
  exact Int.bmod_eq_of_le (by omega) (by omega)

theorem rowSum_eq (b : Block) (r : Nat) :
    rowSum b r = (b.get (4 * r)).toInt + (b.get (4 * r + 1)).toInt + (b.get (4 * r + 2)).toInt +
      (b.get (4 * r + 3)).toInt := by
  simp [rowSum, List.range_succ, add_assoc]

theorem elementSum_eq (b : Block) :
    elementSum b = rowSum b 0 + rowSum b 1 + rowSum b 2 + rowSum b 3 := by
  simp [elementSum, rowSum_eq, List.range_succ, add_assoc]

theorem blockSum_eq (b : Block) : blockSum b = elementSum b := by
  have hrow (r : Nat) : ((Quad.get b r).map BitVec.toInt).sum = rowSum b r := by
    rw [Block.row_eq, rowSum_eq]
    rfl
  rw [elementSum_eq, ← hrow 0, ← hrow 1, ← hrow 2, ← hrow 3]
  rfl

theorem exec_xfmDct0 (s : State) :
    exec .xfmDct0 s = .next (s.respond .ok (wrap32 ((elementSum s.blk + 1) / 2))) := by
  simp only [exec, execXfmDct0, complete_ok, u32_toInt, blockSum_eq, asr, pow_one]

/-- R184: where no row sum wraps, XFM.DCT leaves the rounded half of the element sum in `BLK[0]`. -/
theorem exec_xfmDct_dc {s t : State}
    (hfits : ∀ r, r < 4 → -2 ^ 31 ≤ 8 * rowSum s.blk r ∧ 8 * rowSum s.blk r < 2 ^ 31)
    (hexec : exec .xfmDct s = .next t) :
    t.blk.get 0 = wrap32 ((elementSum s.blk + 1) / 2) := by
  obtain ⟨blk, scr, hdct, hrows, hcolumns⟩ := dctEffect.2 s
  obtain rfl := Host.Outcome.next.inj (hdct.symm.trans hexec)
  have hsum (r : Nat) (hr : r < 4) : (scr.get (4 * r)).toInt = 8 * rowSum s.blk r := by
    obtain ⟨hlo, hhi⟩ := hfits r hr
    rw [(hrows r hr).1, rowSum_eq]
    rw [rowSum_eq] at hlo hhi
    exact wrap32_toInt_of_fits hlo hhi
  have hdc : blk.get 0 = wrap32 (((scr.get 0).toInt + (scr.get 4).toInt + (scr.get 8).toInt +
    (scr.get 12).toInt + 8) / 16) := (hcolumns 0 (by omega)).1
  have hhalf : (8 * rowSum s.blk 0 + 8 * rowSum s.blk 1 + 8 * rowSum s.blk 2 + 8 * rowSum s.blk 3 +
      8) / 16 = (elementSum s.blk + 1) / 2 := by
    rw [elementSum_eq]
    omega
  rw [hdc, ← hhalf, ← hsum 0 (by omega), ← hsum 1 (by omega), ← hsum 2 (by omega),
    ← hsum 3 (by omega)]

/-- Settles O51: both commands halve the sum of the four row sums; the factor 8 of the row stage
cancels against the column stage's division by 16. -/
theorem dct0IsTheDcCoefficient : Obligations.Dct0IsTheDcCoefficient := by
  refine ⟨by decide, exec_xfmDct0, fun s t hfits hexec => ?_⟩
  rw [exec_xfmDct_dc hfits hexec]
  exact exec_xfmDct0 s

/-! ### BLK.WR, BLK.RD and SCR.RD (R172 to R174) -/

/-- R217: a command that begins with the index check answers `ERR_RANGE` and does nothing else. -/
theorem complete_of_index_outside {n : Int} (h : n < 0 ∨ n > 15) (s : State)
    (r : Unit → Except Stop (State × Int)) :
    complete s (checkElement n >>= r) = .next (s.respond (.err .range) 0) := by
  rw [checkElement, if_pos h, error_bind, complete_raise]

theorem complete_of_index_inside {n : Int} (h : 0 ≤ n ∧ n ≤ 15) (s : State)
    (r : Unit → Except Stop (State × Int)) :
    complete s (checkElement n >>= r) = complete s (r ()) := by
  rw [checkElement_eq_ok.2 h, ok_bind]

/-- An element read as a number is answered as the pattern it is stored as. -/
theorem complete_element (s : State) (x : Element) :
    complete s (.ok (s, x.toInt)) = .next (s.respond .ok x) := by
  rw [complete_ok, u32_toInt]

/-- Settles O46: past the index check, the write is read back by the laws of `Block.set`. -/
theorem blkWrWritesOneElement : Obligations.BlkWrWritesOneElement := by
  refine ⟨fun nf imm => decode_pack (m := .blkWr) rfl rfl rfl,
    fun s n v h => complete_of_index_outside h s _,
    fun s n v h0 h15 => ⟨s.blk.set n.toNat (wrap32 v), ?_, ?_, fun j hj hne => ?_⟩⟩
  · exact complete_of_index_inside ⟨h0, h15⟩ s _
  · exact s.blk.get_set_same (by omega) _
  · exact s.blk.get_set_ne (by omega) hj hne _

/-- Settles O47: both reads make the same index check and answer the element as it is stored. -/
theorem elementReads : Obligations.ElementReads := by
  refine ⟨fun nf => decode_pack (m := .blkRd) rfl rfl rfl,
    fun nf => decode_pack (m := .scrRd) rfl rfl rfl,
    fun s n h => ⟨complete_of_index_outside h s _, complete_of_index_outside h s _⟩,
    fun s n h0 h15 => ⟨?_, ?_⟩⟩
  · exact (complete_of_index_inside ⟨h0, h15⟩ s _).trans (complete_element s (s.blk.get n.toNat))
  · exact (complete_of_index_inside ⟨h0, h15⟩ s _).trans (complete_element s (s.scr.get n.toNat))

end Sys2Proof.Machine

/-! The colour converter (45_color_converter.md R200 to R204): the channels of a packed word, the two
commands, and the error of the round trip. -/

namespace Sys2Proof.Machine

/-! ### Channels and packed words (R201) -/

theorem channel2_eq (w : BitVec 32) : channel2 w = w.toNat / 65536 % 256 := by
  simp [channel2, Nat.shiftRight_eq_div_pow]

theorem channel1_eq (w : BitVec 32) : channel1 w = w.toNat / 256 % 256 := by
  simp [channel1, Nat.shiftRight_eq_div_pow]

theorem channel0_eq (w : BitVec 32) : channel0 w = w.toNat % 256 := by
  simp [channel0]

/-- R13: a clamped value is a channel. -/
theorem clamp8_bounds (a : Int) : 0 ≤ clamp8 a ∧ clamp8 a ≤ 255 := by
  unfold clamp8
  omega

theorem clamp8_eq_max_min (a : Int) : clamp8 a = max 0 (min 255 a) := by
  unfold clamp8
  omega

theorem asr_eight (a : Int) : asr a 8 = a / 256 := rfl

/-- R201: a number of three channels, answered as a word, has these channels. -/
theorem channels_packChannels {a b c : Int} (ha : 0 ≤ a ∧ a ≤ 255) (hb : 0 ≤ b ∧ b ≤ 255)
    (hc : 0 ≤ c ∧ c ≤ 255) : channel2 (u32 (packChannels a b c)) = a ∧
      channel1 (u32 (packChannels a b c)) = b ∧ channel0 (u32 (packChannels a b c)) = c := by
  have hword : ((u32 (packChannels a b c)).toNat : Int) = a * 65536 + b * 256 + c := by
    rw [u32, BitVec.toNat_ofInt, packChannels]
    omega
  rw [channel2_eq, channel1_eq, channel0_eq, hword]
  omega

theorem channels_rgbToYuv (r g b : Int) :
    channel2 (u32 (rgbToYuv r g b)) = clamp8 (asr (77 * r + 150 * g + 29 * b + 128) 8) ∧
    channel1 (u32 (rgbToYuv r g b)) = clamp8 (asr (-43 * r - 85 * g + 128 * b + 128) 8 + 128) ∧
    channel0 (u32 (rgbToYuv r g b)) = clamp8 (asr (128 * r - 107 * g - 21 * b + 128) 8 + 128) :=
  channels_packChannels (clamp8_bounds _) (clamp8_bounds _) (clamp8_bounds _)

theorem channels_yuvToRgb (y u v : Int) :
    channel2 (u32 (yuvToRgb y u v)) = clamp8 (y + asr (359 * (v - 128) + 128) 8) ∧
    channel1 (u32 (yuvToRgb y u v)) =
      clamp8 (y - asr (88 * (u - 128) + 183 * (v - 128) + 128) 8) ∧
    channel0 (u32 (yuvToRgb y u v)) = clamp8 (y + asr (454 * (u - 128) + 128) 8) :=
  channels_packChannels (clamp8_bounds _) (clamp8_bounds _) (clamp8_bounds _)

theorem channel2_bounds (w : BitVec 32) : 0 ≤ channel2 w ∧ channel2 w ≤ 255 := by
  rw [channel2_eq]
  omega

theorem channel1_bounds (w : BitVec 32) : 0 ≤ channel1 w ∧ channel1 w ≤ 255 := by
  rw [channel1_eq]
  omega

theorem channel0_bounds (w : BitVec 32) : 0 ≤ channel0 w ∧ channel0 w ≤ 255 := by
  rw [channel0_eq]
  omega

/-! ### The two commands (R202, R203) -/

/-- The answer of `CSC.RGB2YUV` to a packed RGB word. -/
def yuvWord (rgb : BitVec 32) : ResultWord :=
  u32 (rgbToYuv (channel2 rgb) (channel1 rgb) (channel0 rgb))

/-- The answer of `CSC.YUV2RGB` to a packed YUV word. -/
def rgbWord (yuv : BitVec 32) : ResultWord :=
  u32 (yuvToRgb (channel2 yuv) (channel1 yuv) (channel0 yuv))

theorem exec_cscRgb2yuv (rgb : BitVec 32) (s : State) :
    exec (.cscRgb2yuv rgb) s = .next (s.respond .ok (yuvWord rgb)) := complete_ok s s _

theorem exec_cscYuv2rgb (yuv : BitVec 32) (s : State) :
    exec (.cscYuv2rgb yuv) s = .next (s.respond .ok (rgbWord yuv)) := complete_ok s s _

/-- Settles O55: the answer's channels, read as digits to base 256 and clamped by `max` and `min`. -/
theorem rgb2YuvEffect : Obligations.Rgb2YuvEffect := by
  refine ⟨fun imm => decode_pack (m := .cscRgb2yuv) rfl rfl rfl, fun s imm => ?_⟩
  rw [exec_cscRgb2yuv, yuvWord, rgbToYuv, channel2_eq, channel1_eq, channel0_eq]
  simp only [clamp8_eq_max_min, asr_eight]
  rfl

/-- Settles O56: as for `CSC.RGB2YUV`, with the green term floored before it is subtracted. -/
theorem yuv2RgbEffect : Obligations.Yuv2RgbEffect := by
  refine ⟨fun imm => decode_pack (m := .cscYuv2rgb) rfl rfl rfl, fun s imm => ?_⟩
  rw [exec_cscYuv2rgb, rgbWord, yuvToRgb, channel2_eq, channel1_eq, channel0_eq]
  simp only [clamp8_eq_max_min, asr_eight]
  rfl

/-! ### The round trip (R204) -/

/-- The round trip is a function of the word, in every state. -/
theorem colourRoundTrip_iff {s : State} {rgb back : ResultWord} :
    ColourRoundTrip s rgb back ↔ back = rgbWord (yuvWord rgb) := by
  constructor
  · rintro ⟨t, u, yuv, hthere, hyuv, hback, hrgb⟩
    obtain rfl := Host.Outcome.next.inj ((exec_cscRgb2yuv rgb s).symm.trans hthere)
    obtain rfl : yuvWord rgb = yuv := by simpa using hyuv
    obtain rfl := Host.Outcome.next.inj ((exec_cscYuv2rgb _ _).symm.trans hback)
    simpa using hrgb.symm
  · rintro rfl
    exact ⟨_, _, _, exec_cscRgb2yuv rgb s, rfl, exec_cscYuv2rgb _ _, rfl⟩

/-- Rounding to a multiple of 256 is off by at most a half, 128. -/
theorem asr_rounds (x : Int) : |256 * asr (x + 128) 8 - x| ≤ 128 := by
  rw [asr_eight, abs_le]
  omega

/-- Rounding stays within a half also when the clamp bites: up to 255 * 256 + 128 the number 255 is
as near as the rounded one. -/
theorem clamp8_asr_rounds {x : Int} (h0 : 0 ≤ x) (h1 : x ≤ 65408) :
    |256 * clamp8 (asr (x + 128) 8) - x| ≤ 128 := by
  rw [asr_eight, clamp8, abs_le]
  omega

/-- R202: a chroma sum lies in [-32640, 32640]; at its upper end the clamp bites. -/
theorem clamp8_chroma_rounds {x : Int} (h0 : -32640 ≤ x) (h1 : x ≤ 32640) :
    |256 * (clamp8 (asr (x + 128) 8 + 128) - 128) - x| ≤ 128 := by
  have hshift : asr (x + 128) 8 + 128 = asr (x + 32768 + 128) 8 := by
    rw [asr_eight, asr_eight]
    omega
  have hnear := clamp8_asr_rounds (x := x + 32768) (by omega) (by omega)
  rw [hshift]
  rw [abs_le] at hnear ⊢
  omega

/-- R13: the clamp moves no value away from a channel. -/
theorem abs_clamp8_sub_le {c a n : Int} (hc : 0 ≤ c ∧ c ≤ 255) (hlo : -n ≤ a - c) (hhi : a - c ≤ n) :
    |clamp8 a - c| ≤ n := by
  rw [clamp8, abs_le]
  omega

/-- R204 on the numbers: each of the three sums there is rounded by at most a half, and so is each
term back. With the products of the coefficients, which nearly cancel, that leaves less than 3, 2
and 3. -/
theorem yuv_round_trip_error {r g b : Int} (hr : 0 ≤ r ∧ r ≤ 255) (hg : 0 ≤ g ∧ g ≤ 255)
    (hb : 0 ≤ b ∧ b ≤ 255) {y u v : Int}
    (hy : y = clamp8 (asr (77 * r + 150 * g + 29 * b + 128) 8))
    (hu : u = clamp8 (asr (-43 * r - 85 * g + 128 * b + 128) 8 + 128))
    (hv : v = clamp8 (asr (128 * r - 107 * g - 21 * b + 128) 8 + 128)) :
    |clamp8 (y + asr (359 * (v - 128) + 128) 8) - r| ≤ 2 ∧
    |clamp8 (y - asr (88 * (u - 128) + 183 * (v - 128) + 128) 8) - g| ≤ 1 ∧
    |clamp8 (y + asr (454 * (u - 128) + 128) 8) - b| ≤ 2 := by
  have hluma := clamp8_asr_rounds (x := 77 * r + 150 * g + 29 * b) (by omega) (by omega)
  have hblue := clamp8_chroma_rounds (x := -43 * r - 85 * g + 128 * b) (by omega) (by omega)
  have hred := clamp8_chroma_rounds (x := 128 * r - 107 * g - 21 * b) (by omega) (by omega)
  rw [← hy, abs_le] at hluma
  rw [← hu, abs_le] at hblue
  rw [← hv, abs_le] at hred
  have hr' := abs_le.1 (asr_rounds (359 * (v - 128)))
  have hg' := abs_le.1 (asr_rounds (88 * (u - 128) + 183 * (v - 128)))
  have hb' := abs_le.1 (asr_rounds (454 * (u - 128)))
  refine ⟨abs_clamp8_sub_le hr ?_ ?_, abs_clamp8_sub_le hg ?_ ?_, abs_clamp8_sub_le hb ?_ ?_⟩ <;> omega

/-- The answer there and back, channel by channel, is within 2, 1 and 2. -/
theorem channels_round_trip (rgb : ResultWord) :
    |channel2 (rgbWord (yuvWord rgb)) - channel2 rgb| ≤ 2 ∧
    |channel1 (rgbWord (yuvWord rgb)) - channel1 rgb| ≤ 1 ∧
    |channel0 (rgbWord (yuvWord rgb)) - channel0 rgb| ≤ 2 := by
  obtain ⟨hy, hu, hv⟩ := channels_rgbToYuv (channel2 rgb) (channel1 rgb) (channel0 rgb)
  obtain ⟨hr, hg, hb⟩ := channels_yuvToRgb (channel2 (yuvWord rgb)) (channel1 (yuvWord rgb))
    (channel0 (yuvWord rgb))
  rw [rgbWord, hr, hg, hb]
  exact yuv_round_trip_error (channel2_bounds rgb) (channel1_bounds rgb) (channel0_bounds rgb)
    hy hu hv

/-- `channelError` is the distance of the channels that the commands read. -/
theorem channelError_eq (a b : ResultWord) :
    (channelError a b 65536 : Int) = |channel2 b - channel2 a| ∧
    (channelError a b 256 : Int) = |channel1 b - channel1 a| ∧
    (channelError a b 1 : Int) = |channel0 b - channel0 a| := by
  simp [channelError, channel2_eq, channel1_eq, channel0_eq]

/-- Settles O57: the bounds are those of the channels; two words reach the three maxima. -/
theorem colourRoundTripBound : Obligations.ColourRoundTripBound := by
  refine ⟨fun s rgb back h => ?_, fun s => ⟨0x023FF6, 0x003FF6, 0x00C36C, 0x00C26A,
    0x00C36C, 0x00C26A, ?_⟩⟩
  · obtain rfl := colourRoundTrip_iff.1 h
    obtain ⟨hr, hg, hb⟩ := channels_round_trip rgb
    obtain ⟨er, eg, eb⟩ := channelError_eq rgb (rgbWord (yuvWord rgb))
    omega
  · simp only [colourRoundTrip_iff]
    decide

end Sys2Proof.Machine

/-! The error responses (60_exceptions.md R210 to R221): which error a meaning can raise, when a
check raises one, and what an error response leaves. -/

namespace Sys2Proof

/-! ### Illegal words (R77, R213) -/

/-- R71, format Y: the mask's ones in `imm` are the 24 bits above the byte. -/
theorem and_upper_eq_zero {imm : BitVec 32} (h : imm.extractLsb' 8 24 = 0#24) :
    imm &&& 0xFFFFFF00#32 = 0#32 := by
  have hsplit : imm = imm.extractLsb' 8 24 ++ imm.extractLsb' 0 8 := by
    apply BitVec.eq_of_toNat_eq
    rw [append_toNat, BitVec.extractLsb'_toNat, BitVec.extractLsb'_toNat, Nat.shiftRight_eq_div_pow,
      Nat.shiftRight_zero]
    omega
  have hmask : 0xFFFFFF00#32 = 0xFFFFFF#24 ++ 0#8 := by decide
  calc imm &&& 0xFFFFFF00#32
      = (0#24 ++ imm.extractLsb' 0 8) &&& (0xFFFFFF#24 ++ 0#8) := by rw [← h, ← hsplit, ← hmask]
    _ = 0#32 := by rw [BitVec.and_append, BitVec.and_zero, BitVec.zero_and]; rfl

/-- R71: with a zero in every field that a row must leave zero, the row's mask keeps `op` alone. -/
theorem pack_and_mask {f : CommandFields} {format : Format} (hrsv : f.rsv = 0)
    (hzero : format.unusedZero f = true) : pack f &&& format.mask = pack ⟨f.op, 0, 0, 0, 0⟩ := by
  have hop : f.op &&& 255#8 = f.op := BitVec.and_allOnes
  rw [mask_eq_pack, pack_and]
  cases format with
  | y =>
    simp only [Format.unusedZero, Bool.and_eq_true, beq_iff_eq] at hzero
    obtain ⟨⟨hnf, hb⟩, hupper⟩ := hzero
    simp [Format.maskFields, hop, hnf, hrsv, hb, and_upper_eq_zero hupper]
  | _ =>
    simp only [Format.unusedZero, Bool.and_eq_true, beq_iff_eq] at hzero
    simp [Format.maskFields, hop, hzero, hrsv]

/-- The row that an `op` byte selects has that `op`. -/
theorem op_of_ofOp {op : BitVec 8} {m : Mnemonic} (h : Mnemonic.ofOp op = some m) : m.op = op := by
  unfold Mnemonic.ofOp at h
  have hfound := List.find?_some h
  exact beq_iff_eq.1 hfound

/-- What the decoder checked of a word that it accepts. -/
theorem fields_of_decode_ok {cw : CommandWord} {i : Instr} (h : decode cw = .ok i) :
    ∃ m : Mnemonic, (unpack cw).op = m.op ∧ (unpack cw).rsv = 0 ∧
      m.format.unusedZero (unpack cw) = true := by
  unfold decode at h
  split at h
  · cases h
  · next m hrow =>
    split at h
    · cases h
    · next hrsv =>
      split at h
      · next hzero => exact ⟨m, (op_of_ofOp hrow).symm, not_not.1 hrsv, hzero⟩
      · cases h

/-- R75: a word that decodes passes the mask-and-match test of some row. -/
theorem row_test_of_decode_ok {cw : CommandWord} {i : Instr} (h : decode cw = .ok i) :
    ∃ m : Mnemonic, cw &&& m.format.mask = m.matchWord := by
  obtain ⟨m, hop, hrsv, hzero⟩ := fields_of_decode_ok h
  have htest := pack_and_mask hrsv hzero
  rw [pack_unpack, hop, ← matchWord_eq_pack] at htest
  exact ⟨m, htest⟩

end Sys2Proof

namespace Sys2Proof.Machine

/-- Settles O8: a word that decoded would pass the test of its row. -/
theorem illegalWordIsRefused : Obligations.IllegalWordIsRefused := by
  intro s cw rest hport hnone
  rw [step_of_command hport]
  match hdec : decode cw with
  | .error _ => exact execWord_of_decode_error hdec _
  | .ok _ =>
    obtain ⟨m, htest⟩ := row_test_of_decode_ok hdec
    exact absurd htest (hnone m)

/-! ### The checks that raise (R214, R216) -/

section Checks

variable (s : State) (r : Unit → Except Stop (State × Int))

theorem complete_of_probability_outside {p : Int} (h : p < 0 ∨ p > 255) :
    complete s (checkProbability p >>= r) = .next (s.respond (.err .arg) 0) := by
  rw [checkProbability, if_pos h, error_bind, complete_raise]

theorem complete_of_probability_inside {p : Int} (h : 0 ≤ p ∧ p ≤ 255) :
    complete s (checkProbability p >>= r) = complete s (r ()) := by
  rw [checkProbability_eq_ok.2 h, ok_bind]

theorem complete_of_width_outside {n : Int} (h : n < 1 ∨ n > 32) :
    complete s (checkNumBits n >>= r) = .next (s.respond (.err .arg) 0) := by
  rw [checkNumBits, if_pos h, error_bind, complete_raise]

theorem complete_of_width_inside {n : Int} (h : 1 ≤ n ∧ n ≤ 32) :
    complete s (checkNumBits n >>= r) = complete s (r ()) := by
  rw [checkNumBits_eq_ok.2 h, ok_bind]

theorem complete_of_finished {e : EncContext} (h : e.phase = .finished) :
    complete s (checkActive e >>= r) = .next (s.respond (.err .state) 0) := by
  rw [checkActive, h, error_bind, complete_raise]

theorem complete_of_loading {d : DecContext} (h : d.phase = .loading) :
    complete s (checkDecoding d >>= r) = .next (s.respond (.err .state) 0) := by
  rw [checkDecoding, h, error_bind, complete_raise]

end Checks

/-- Settles O20: each of the six commands begins with the check of its argument. -/
theorem invalidArgumentsAreRefused : Obligations.InvalidArgumentsAreRefused := by
  refine ⟨fun s p h => ⟨fun b => ?_, ?_⟩, fun s n h => ⟨fun v => ?_, fun v => ?_, ?_, ?_⟩⟩
  · exact complete_of_probability_outside s _ h
  · exact complete_of_probability_outside s _ h
  · exact complete_of_width_outside s _ h
  · exact complete_of_width_outside s _ h
  · exact complete_of_width_outside s _ h
  · exact complete_of_width_outside s _ h

/-! ### Which errors a meaning can raise (R221) -/

/-- Every error that the computation raises is one of `es`; a fault is no error response. -/
def RaisesOnly {α : Type} (es : List Err) (r : Except Stop α) : Prop :=
  ∀ e, r = .error (.raise e) → e ∈ es

namespace RaisesOnly

variable {α β : Type} {es : List Err}

theorem ok (a : α) : RaisesOnly es (.ok a) := by
  intro e h
  cases h

theorem fault (f : Fault) : RaisesOnly (α := α) es (.error (.fault f)) := by
  intro e h
  cases h

theorem raise {e : Err} (he : e ∈ es) : RaisesOnly (α := α) es (.error (.raise e)) := by
  intro e' h
  cases h
  exact he

theorem bind {x : Except Stop α} {f : α → Except Stop β} (hx : RaisesOnly es x)
    (hf : ∀ a, RaisesOnly es (f a)) : RaisesOnly es (x >>= f) := by
  cases x with
  | ok a => exact hf a
  | error stop =>
    intro e h
    cases h
    exact hx e rfl

theorem ite {c : Prop} [Decidable c] {x y : Except Stop α} (hx : RaisesOnly es x)
    (hy : RaisesOnly es y) : RaisesOnly es (if c then x else y) := by
  split
  · exact hx
  · exact hy

end RaisesOnly

section Helpers

variable {es : List Err}

theorem checkProbability_raisesOnly (h : .arg ∈ es) (p : Int) :
    RaisesOnly es (checkProbability p) :=
  .ite (.raise h) (.ok ())

theorem checkNumBits_raisesOnly (h : .arg ∈ es) (n : Int) : RaisesOnly es (checkNumBits n) :=
  .ite (.raise h) (.ok ())

theorem checkElement_raisesOnly (h : .range ∈ es) (n : Int) : RaisesOnly es (checkElement n) :=
  .ite (.raise h) (.ok ())

theorem checkActive_raisesOnly (h : .state ∈ es) (e : EncContext) :
    RaisesOnly es (checkActive e) := by
  unfold checkActive
  split
  · exact .ok ()
  · exact .raise h

theorem checkLoading_raisesOnly (h : .state ∈ es) (d : DecContext) :
    RaisesOnly es (checkLoading d) := by
  unfold checkLoading
  split
  · exact .ok ()
  · exact .raise h

theorem checkDecoding_raisesOnly (h : .state ∈ es) (d : DecContext) :
    RaisesOnly es (checkDecoding d) := by
  unfold checkDecoding
  split
  · exact .raise h
  · exact .ok ()

/-! The accesses to the stream memories and the decoder's helpers raise nothing. -/

theorem load_raisesOnly (cap : Nat) (m : Memory) (a : Nat) : RaisesOnly es (load cap m a) :=
  .ite (.ok _) (.fault _)

theorem store_raisesOnly (cap : Nat) (m : Memory) (a : Nat) (v : Byte) :
    RaisesOnly es (store cap m a v) := .ite (.ok _) (.fault _)

theorem copyBytes_raisesOnly (cap : Nat) (src dst : Memory) : ∀ n,
    RaisesOnly es (copyBytes cap src dst n) := by
  intro n
  induction n with
  | zero => exact .ok dst
  | succ n ih =>
    exact ih.bind fun m => (load_raisesOnly cap src n).bind fun v => store_raisesOnly cap m n v

theorem nextByte_raisesOnly (cap : Nat) (d : DecContext) : RaisesOnly es (nextByte cap d) :=
  .ite ((load_raisesOnly cap d.buf d.pos).bind fun _ => .ok _) (.ok _)

theorem decShift_raisesOnly (cap : Nat) (d : DecContext) : RaisesOnly es (decShift cap d) :=
  .ite ((nextByte_raisesOnly cap d).bind fun _ => .ok _) (.ok _)

theorem decRenorm_raisesOnly (cap : Nat) : ∀ (n : Nat) (d : DecContext),
    RaisesOnly es (decRenorm cap n d) := by
  intro n
  induction n with
  | zero => exact fun d => .ite (.fault _) (.ok d)
  | succ n ih => exact fun d => .ite ((decShift_raisesOnly cap d).bind ih) (.ok d)

theorem decodeBool_raisesOnly (cap p : Nat) (d : DecContext) : RaisesOnly es (decodeBool cap p d) :=
  .ite (.fault _) ((decRenorm_raisesOnly cap 7 _).bind fun _ => .ok _)

theorem getBits_raisesOnly (cap : Nat) : ∀ (n v : Nat) (d : DecContext),
    RaisesOnly es (getBits cap n v d) := by
  intro n
  induction n with
  | zero => exact fun v d => .ok (v, d)
  | succ n ih => exact fun v d => (decodeBool_raisesOnly cap 128 d).bind fun r => ih _ r.2

theorem decStart_raisesOnly (cap : Nat) (d : DecContext) : RaisesOnly es (decStart cap d) :=
  (nextByte_raisesOnly cap _).bind fun r => (nextByte_raisesOnly cap r.2).bind fun _ => .ok _

/-! The encoder's helpers raise an overflow at most (R218). -/

theorem narrowLow_raisesOnly (v : Nat) : RaisesOnly es (narrowLow v) := .ite (.ok _) (.fault _)

theorem addCarry_raisesOnly (cap : Nat) : ∀ (n : Nat) (m : Memory),
    RaisesOnly es (addCarry cap m n) := by
  intro n
  induction n with
  | zero => exact fun _ => .fault _
  | succ n ih =>
    exact fun m => (load_raisesOnly cap m n).bind fun v =>
      .ite ((store_raisesOnly cap m n 0).bind ih) (store_raisesOnly cap m n _)

theorem encUpdate_raisesOnly (cap : Nat) (bit : Bool) (p : Nat) (e : EncContext) :
    RaisesOnly es (encUpdate cap bit p e) := by
  refine .ite (.ite ?_ ?_) (.ok _)
  · exact (narrowLow_raisesOnly _).bind fun _ => (addCarry_raisesOnly cap _ _).bind fun _ => .ok _
  · exact (narrowLow_raisesOnly _).bind fun _ => .ok _

theorem encShift_raisesOnly (h : .overflow ∈ es) (cap : Nat) (e : EncContext) :
    RaisesOnly es (encShift cap e) :=
  (narrowLow_raisesOnly _).bind fun _ =>
    .ite (.ite (.raise h) ((store_raisesOnly cap _ _ _).bind fun _ => .ok _)) (.ok _)

theorem encRenorm_raisesOnly (h : .overflow ∈ es) (cap : Nat) : ∀ (n : Nat) (e : EncContext),
    RaisesOnly es (encRenorm cap n e) := by
  intro n
  induction n with
  | zero => exact fun e => .ite (.fault _) (.ok e)
  | succ n ih => exact fun e => .ite ((encShift_raisesOnly h cap e).bind ih) (.ok e)

theorem encodeBool_raisesOnly (h : .overflow ∈ es) (cap : Nat) (bit : Bool) (p : Nat)
    (e : EncContext) : RaisesOnly es (encodeBool cap bit p e) :=
  .ite (.fault _) ((encUpdate_raisesOnly cap bit p e).bind (encRenorm_raisesOnly h cap 7))

theorem putBits_raisesOnly (h : .overflow ∈ es) (cap v : Nat) : ∀ (n : Nat) (e : EncContext),
    RaisesOnly es (putBits cap v n e) := by
  intro n
  induction n with
  | zero => exact fun e => .ok e
  | succ n ih => exact fun e => (encodeBool_raisesOnly h cap _ 128 e).bind ih

theorem encFlush_raisesOnly (h : .overflow ∈ es) (cap : Nat) (e : EncContext) :
    RaisesOnly es (encFlush cap e) := by
  refine .ite (.ite (.raise h) ?_) (.ite (.raise h) ?_)
  · exact (store_raisesOnly cap _ _ _).bind fun _ => .ok _
  · exact (narrowLow_raisesOnly _).bind fun _ => (store_raisesOnly cap _ _ _).bind fun _ =>
      (store_raisesOnly cap _ _ _).bind fun _ => .ok _

end Helpers

/-! ### Which errors a command can answer (R212, R221) -/

/-- The outcome is the answer to a meaning that raises nothing but `es`. -/
def AnswersOnly (es : List Err) (s : State) (out : Host.Outcome State Fault Refusal) : Prop :=
  ∃ r, out = complete s r ∧ RaisesOnly es r

/-- R212: an error response shows an error that the meaning can raise, and nothing but the response
has changed. -/
theorem AnswersOnly.of_error {es : List Err} {s t : State} {e : Err} {rw : ResultWord}
    (h : AnswersOnly es s (.next t)) (hresp : t.responses = s.responses ++ [⟨.err e, rw⟩]) :
    e ∈ es ∧ rw = 0 ∧ t = s.respond (.err e) 0 := by
  obtain ⟨r, hr, honly⟩ := h
  obtain ⟨s', v, -, rfl⟩ | ⟨e', rfl, rfl⟩ := complete_eq_next.1 hr.symm
  · have hlast := List.append_inj_right' hresp rfl
    simp at hlast
  · have hlast := List.append_inj_right' hresp rfl
    simp only [List.cons.injEq, Response.mk.injEq, Status.err.injEq, and_true] at hlast
    obtain ⟨rfl, rfl⟩ := hlast
    exact ⟨honly _ rfl, rfl, rfl⟩

section Commands

variable (s : State)

/-- A meaning without a `raise`. -/
theorem complete_ok_answersOnly (s' : State) (v : Int) :
    AnswersOnly [] s (complete s (.ok (s', v))) := ⟨_, rfl, .ok _⟩

theorem illegalWord_answersOnly : AnswersOnly [.illegal] s (illegalWord s) :=
  ⟨_, rfl, .raise (by decide)⟩

theorem execEncBool_answersOnly (b : Bool) (p : Int) :
    AnswersOnly [.arg, .state, .overflow] s (execEncBool b p s) :=
  ⟨_, rfl, (checkProbability_raisesOnly (by decide) p).bind fun _ =>
    (checkActive_raisesOnly (by decide) s.enc).bind fun _ =>
    (encodeBool_raisesOnly (by decide) s.cap b _ s.enc).bind fun _ => .ok _⟩

theorem execEncFinish_answersOnly : AnswersOnly [.overflow] s (execEncFinish s) := by
  refine ⟨_, rfl, ?_⟩
  split
  · exact .ok _
  · exact (encFlush_raisesOnly (by decide) s.cap s.enc).bind fun _ => .ok _

theorem execEncRdb_answersOnly (idx : Nat) : AnswersOnly [.range] s (execEncRdb idx s) :=
  ⟨_, rfl, .ite (.raise (by decide)) ((load_raisesOnly s.cap s.enc.buf idx).bind fun _ => .ok _)⟩

theorem execDecWrb_answersOnly (byte : Byte) :
    AnswersOnly [.state, .overflow] s (execDecWrb byte s) :=
  ⟨_, rfl, (checkLoading_raisesOnly (by decide) s.dec).bind fun _ =>
    .ite (.raise (by decide)) ((store_raisesOnly s.cap _ _ byte).bind fun _ => .ok _)⟩

theorem execDecInit_answersOnly : AnswersOnly [] s (execDecInit s) :=
  ⟨_, rfl, (decStart_raisesOnly s.cap s.dec).bind fun _ => .ok _⟩

theorem execDecBool_answersOnly (p : Int) : AnswersOnly [.arg, .state] s (execDecBool p s) :=
  ⟨_, rfl, (checkProbability_raisesOnly (by decide) p).bind fun _ =>
    (checkDecoding_raisesOnly (by decide) s.dec).bind fun _ =>
    (decodeBool_raisesOnly s.cap _ s.dec).bind fun _ => .ok _⟩

theorem execDecLdenc_answersOnly : AnswersOnly [] s (execDecLdenc s) :=
  ⟨_, rfl, (copyBytes_raisesOnly s.cap s.enc.buf s.dec.buf s.enc.len).bind fun _ => .ok _⟩

theorem execLitPutu_answersOnly (n : Int) (v : Nat) :
    AnswersOnly [.arg, .state, .overflow] s (execLitPutu n v s) :=
  ⟨_, rfl, (checkNumBits_raisesOnly (by decide) n).bind fun _ =>
    (checkActive_raisesOnly (by decide) s.enc).bind fun _ =>
    (putBits_raisesOnly (by decide) s.cap v n.toNat s.enc).bind fun _ => .ok _⟩

theorem execLitPuts_answersOnly (n v : Int) :
    AnswersOnly [.arg, .state, .overflow] s (execLitPuts n v s) :=
  ⟨_, rfl, (checkNumBits_raisesOnly (by decide) n).bind fun _ =>
    (checkActive_raisesOnly (by decide) s.enc).bind fun _ =>
    (encodeBool_raisesOnly (by decide) s.cap _ 128 s.enc).bind fun e =>
    (putBits_raisesOnly (by decide) s.cap v.natAbs _ e).bind fun _ => .ok _⟩

theorem execLitGetu_answersOnly (n : Int) : AnswersOnly [.arg, .state] s (execLitGetu n s) :=
  ⟨_, rfl, (checkNumBits_raisesOnly (by decide) n).bind fun _ =>
    (checkDecoding_raisesOnly (by decide) s.dec).bind fun _ =>
    (getBits_raisesOnly s.cap n.toNat 0 s.dec).bind fun _ => .ok _⟩

theorem execLitGets_answersOnly (n : Int) : AnswersOnly [.arg, .state] s (execLitGets n s) :=
  ⟨_, rfl, (checkNumBits_raisesOnly (by decide) n).bind fun _ =>
    (checkDecoding_raisesOnly (by decide) s.dec).bind fun _ =>
    (decodeBool_raisesOnly s.cap 128 s.dec).bind fun sign =>
    (getBits_raisesOnly s.cap _ 0 sign.2).bind fun _ => .ok _⟩

/-- BLK.WR, BLK.RD and SCR.RD raise nothing past the check of their index. -/
theorem complete_checkElement_answersOnly (n : Int) (r : State × Int) :
    AnswersOnly [.range] s (complete s (checkElement n >>= fun _ => .ok r)) :=
  ⟨_, rfl, (checkElement_raisesOnly (by decide) n).bind fun _ => .ok r⟩

/-- R221, its blanks: a command answers no error that the table does not give its row. -/
theorem exec_answersOnly (i : Instr) : AnswersOnly (mayAnswer i.mnemonic) s (exec i s) := by
  cases i with
  | nop => exact complete_ok_answersOnly s _ _
  | reset => exact complete_ok_answersOnly s _ _
  | encInit => exact complete_ok_answersOnly s _ _
  | encBool b p => exact execEncBool_answersOnly s b p
  | encFinish => exact execEncFinish_answersOnly s
  | encLen => exact complete_ok_answersOnly s _ _
  | encRdb idx => exact execEncRdb_answersOnly s idx
  | decClr => exact complete_ok_answersOnly s _ _
  | decWrb byte => exact execDecWrb_answersOnly s byte
  | decInit => exact execDecInit_answersOnly s
  | decBool p => exact execDecBool_answersOnly s p
  | decLdenc => exact execDecLdenc_answersOnly s
  | litPutu n v => exact execLitPutu_answersOnly s n v
  | litPuts n v => exact execLitPuts_answersOnly s n v
  | litGetu n => exact execLitGetu_answersOnly s n
  | litGets n => exact execLitGets_answersOnly s n
  | blkWr n v => exact complete_checkElement_answersOnly s n _
  | blkRd n => exact complete_checkElement_answersOnly s n _
  | scrRd n => exact complete_checkElement_answersOnly s n _
  | xfmWht => exact complete_ok_answersOnly s _ _
  | xfmIwht => exact complete_ok_answersOnly s _ _
  | xfmDct => exact complete_ok_answersOnly s _ _
  | xfmIdct => exact complete_ok_answersOnly s _ _
  | xfmDct0 => exact complete_ok_answersOnly s _ _
  | cscRgb2yuv rgb => exact complete_ok_answersOnly s _ _
  | cscYuv2rgb yuv => exact complete_ok_answersOnly s _ _

/-- Every command word, legal or not, is answered by one shared operation (R15, R210). -/
theorem execWord_answersOnly (cw : CommandWord) : ∃ es, AnswersOnly es s (execWord cw s) := by
  unfold execWord
  cases decode cw with
  | ok i => exact ⟨_, exec_answersOnly s i⟩
  | error r => exact ⟨_, illegalWord_answersOnly s⟩

end Commands

/-- Settles O18: an error is answered from the state before the command, the word taken. -/
theorem errorsLeaveNoTrace : Obligations.ErrorsLeaveNoTrace := by
  intro s t cw rest e rw hport hstep hresp
  obtain ⟨es, honly⟩ := execWord_answersOnly (s.setPort rest) cw
  rw [← step_of_command hport, hstep] at honly
  obtain ⟨-, hrw, ht⟩ := honly.of_error hresp
  exact ⟨hrw, ht⟩

/-- The error of an answered command is one of its row's. -/
theorem mem_mayAnswer_of_exec {i : Instr} {s t : State} {e : Err} {rw : ResultWord}
    (hexec : exec i s = .next t) (hresp : t.responses = s.responses ++ [⟨.err e, rw⟩]) :
    e ∈ mayAnswer i.mnemonic := by
  have honly := exec_answersOnly s i
  rw [hexec] at honly
  exact (honly.of_error hresp).1

/-! ### The phase (R216) -/

section Phase

variable {s : State}

theorem exec_encBool_of_finished (h : s.enc.phase = .finished) {p : Int} (hp : 0 ≤ p ∧ p ≤ 255)
    (b : Bool) : exec (.encBool b p) s = .next (s.respond (.err .state) 0) :=
  (complete_of_probability_inside s _ hp).trans (complete_of_finished s _ h)

theorem exec_litPutu_of_finished (h : s.enc.phase = .finished) {n : Int} (hn : 1 ≤ n ∧ n ≤ 32)
    (v : Nat) : exec (.litPutu n v) s = .next (s.respond (.err .state) 0) :=
  (complete_of_width_inside s _ hn).trans (complete_of_finished s _ h)

theorem exec_litPuts_of_finished (h : s.enc.phase = .finished) {n : Int} (hn : 1 ≤ n ∧ n ≤ 32)
    (v : Int) : exec (.litPuts n v) s = .next (s.respond (.err .state) 0) :=
  (complete_of_width_inside s _ hn).trans (complete_of_finished s _ h)

theorem exec_decBool_of_loading (h : s.dec.phase = .loading) {p : Int} (hp : 0 ≤ p ∧ p ≤ 255) :
    exec (.decBool p) s = .next (s.respond (.err .state) 0) :=
  (complete_of_probability_inside s _ hp).trans (complete_of_loading s _ h)

theorem exec_litGetu_of_loading (h : s.dec.phase = .loading) {n : Int} (hn : 1 ≤ n ∧ n ≤ 32) :
    exec (.litGetu n) s = .next (s.respond (.err .state) 0) :=
  (complete_of_width_inside s _ hn).trans (complete_of_loading s _ h)

theorem exec_litGets_of_loading (h : s.dec.phase = .loading) {n : Int} (hn : 1 ≤ n ∧ n ≤ 32) :
    exec (.litGets n) s = .next (s.respond (.err .state) 0) :=
  (complete_of_width_inside s _ hn).trans (complete_of_loading s _ h)

end Phase

/-- R216: the rows of R221 that can answer ERR_STATE. -/
theorem row_of_state_mem_mayAnswer {m : Mnemonic} (h : .state ∈ mayAnswer m) :
    m ∈ [Mnemonic.encBool, .litPutu, .litPuts, .decWrb, .decBool, .litGetu, .litGets] := by
  revert h
  cases m <;> decide

/-- Settles O21: past the check of the argument comes that of the phase, before any overflow. -/
theorem wrongPhaseIsRefused : Obligations.WrongPhaseIsRefused := by
  refine ⟨fun s h => ⟨fun b p h0 h255 => ?_, fun n h1 h32 => ⟨fun v => ?_, fun v => ?_⟩⟩,
    fun s h byte => exec_decWrb_of_decoding h byte,
    fun s h => ⟨fun p h0 h255 => ?_, fun n h1 h32 => ⟨?_, ?_⟩⟩,
    fun i s t rw hexec hresp => row_of_state_mem_mayAnswer (mem_mayAnswer_of_exec hexec hresp)⟩
  · exact exec_encBool_of_finished h ⟨h0, h255⟩ b
  · exact exec_litPutu_of_finished h ⟨h1, h32⟩ v
  · exact exec_litPuts_of_finished h ⟨h1, h32⟩ v
  · exact exec_decBool_of_loading h ⟨h0, h255⟩
  · exact exec_litGetu_of_loading h ⟨h1, h32⟩
  · exact exec_litGets_of_loading h ⟨h1, h32⟩

end Sys2Proof.Machine

/-! Every status of the table R221 is answered: a command and a state for each of its entries. -/

namespace Sys2Proof.Machine

/-- A well-formed command of the row, in a state that meets the invariant, is answered with `st`. -/
def Answerable (m : Mnemonic) (st : Status) (rw : ResultWord) : Prop :=
  ∃ (i : Instr) (s t : State), i.mnemonic = m ∧ i.wellFormed = true ∧ s.Inv ∧
    exec i s = .next t ∧ t.responses = s.responses ++ [⟨st, rw⟩]

theorem Answerable.intro (i : Instr) {s s' : State} {st : Status} {rw : ResultWord}
    (hwf : i.wellFormed = true) (hinv : s.Inv) (hexec : exec i s = .next (s'.respond st rw))
    (hresp : s'.responses = s.responses) : Answerable i.mnemonic st rw :=
  ⟨i, s, _, rfl, hwf, hinv, hexec, by rw [State.respond_responses, hresp]⟩

/-! ### Three states with the smallest capacity (R11) -/

/-- After reset: no byte in either memory. -/
def emptyState : State := State.resetWith 2

/-- Both memories are full, and the next shift of the encoder needs a byte. -/
def fullState : State :=
  { State.resetWith 2 with
    enc := { range := 254, low := 22200, cnt := 7, len := 2, phase := .active,
             buf := [(0, 0xAB), (1, 0x75)] }
    dec := { range := 255, value := 0, bc := 0, pos := 0, len := 2, phase := .loading, buf := [] } }

/-- The encoder has finished a stream of one byte, and the decoder is decoding that stream. -/
def decodingState : State :=
  { State.resetWith 2 with
    enc := { range := 234, low := 10, cnt := 0, len := 1, phase := .finished, buf := [(0, 0x0A)] }
    dec := { range := 255, value := 0x0A00, bc := 0, pos := 1, len := 1, phase := .decoding,
             buf := [(0, 0x0A)] } }

theorem emptyState_inv : emptyState.Inv := by decide

theorem fullState_inv : fullState.Inv := by decide

theorem decodingState_inv : decodingState.Inv := by decide

/-! ### The columns of the table

Each entry is a concrete command in one of the three states, evaluated. -/

theorem answerable_ok (m : Mnemonic) : ∃ rw, Answerable m .ok rw := by
  cases m with
  | nop => exact ⟨0, .intro .nop rfl emptyState_inv rfl rfl⟩
  | reset => exact ⟨0, .intro .reset rfl emptyState_inv rfl rfl⟩
  | encInit => exact ⟨0, .intro .encInit rfl emptyState_inv rfl rfl⟩
  | encBool => exact ⟨0, .intro (.encBool true 128) rfl emptyState_inv rfl rfl⟩
  | encFinish => exact ⟨1, .intro .encFinish rfl decodingState_inv rfl rfl⟩
  | encLen => exact ⟨1, .intro .encLen rfl decodingState_inv rfl rfl⟩
  | encRdb => exact ⟨0x0A, .intro (.encRdb 0) rfl decodingState_inv rfl rfl⟩
  | decClr => exact ⟨0, .intro .decClr rfl emptyState_inv rfl rfl⟩
  | decWrb => exact ⟨0, .intro (.decWrb 0) rfl emptyState_inv rfl rfl⟩
  | decInit => exact ⟨0, .intro .decInit rfl emptyState_inv rfl rfl⟩
  | decBool => exact ⟨1, .intro (.decBool 10) rfl decodingState_inv rfl rfl⟩
  | decLdenc => exact ⟨1, .intro .decLdenc rfl decodingState_inv rfl rfl⟩
  | litPutu => exact ⟨0, .intro (.litPutu 1 0) rfl emptyState_inv rfl rfl⟩
  | litPuts => exact ⟨0, .intro (.litPuts 1 0) rfl emptyState_inv rfl rfl⟩
  | litGetu => exact ⟨0, .intro (.litGetu 1) rfl decodingState_inv rfl rfl⟩
  | litGets => exact ⟨0, .intro (.litGets 1) rfl decodingState_inv rfl rfl⟩
  | blkWr => exact ⟨0, .intro (.blkWr 0 0) rfl emptyState_inv rfl rfl⟩
  | blkRd => exact ⟨0, .intro (.blkRd 0) rfl emptyState_inv rfl rfl⟩
  | scrRd => exact ⟨0, .intro (.scrRd 0) rfl emptyState_inv rfl rfl⟩
  | xfmWht => exact ⟨0, .intro .xfmWht rfl emptyState_inv rfl rfl⟩
  | xfmIwht => exact ⟨0, .intro .xfmIwht rfl emptyState_inv rfl rfl⟩
  | xfmDct => exact ⟨0, .intro .xfmDct rfl emptyState_inv rfl rfl⟩
  | xfmIdct => exact ⟨0, .intro .xfmIdct rfl emptyState_inv rfl rfl⟩
  | xfmDct0 => exact ⟨0, .intro .xfmDct0 rfl emptyState_inv rfl rfl⟩
  | cscRgb2yuv => exact ⟨0x008080, .intro (.cscRgb2yuv 0) rfl emptyState_inv rfl rfl⟩
  | cscYuv2rgb => exact ⟨0, .intro (.cscYuv2rgb 0x008080) rfl emptyState_inv rfl rfl⟩

/-- R214: a probability or a width past its range. -/
theorem answerable_arg {m : Mnemonic} (h : .arg ∈ mayAnswer m) :
    Answerable m (.err .arg) 0 := by
  cases m with
  | encBool => exact .intro (.encBool true 256) rfl emptyState_inv rfl rfl
  | decBool => exact .intro (.decBool 256) rfl decodingState_inv rfl rfl
  | litPutu => exact .intro (.litPutu 33 0) rfl emptyState_inv rfl rfl
  | litPuts => exact .intro (.litPuts 33 0) rfl emptyState_inv rfl rfl
  | litGetu => exact .intro (.litGetu 33) rfl decodingState_inv rfl rfl
  | litGets => exact .intro (.litGets 33) rfl decodingState_inv rfl rfl
  | _ => simp [mayAnswer] at h

/-- R216: a coder command in the phase that cannot serve it. -/
theorem answerable_state {m : Mnemonic} (h : .state ∈ mayAnswer m) :
    Answerable m (.err .state) 0 := by
  cases m with
  | encBool => exact .intro (.encBool true 128) rfl decodingState_inv rfl rfl
  | decWrb => exact .intro (.decWrb 0) rfl decodingState_inv rfl rfl
  | decBool => exact .intro (.decBool 128) rfl emptyState_inv rfl rfl
  | litPutu => exact .intro (.litPutu 1 0) rfl decodingState_inv rfl rfl
  | litPuts => exact .intro (.litPuts 1 0) rfl decodingState_inv rfl rfl
  | litGetu => exact .intro (.litGetu 1) rfl emptyState_inv rfl rfl
  | litGets => exact .intro (.litGets 1) rfl emptyState_inv rfl rfl
  | _ => simp [mayAnswer] at h

/-- R217: an index past the live bytes or past the block. -/
theorem answerable_range {m : Mnemonic} (h : .range ∈ mayAnswer m) :
    Answerable m (.err .range) 0 := by
  cases m with
  | encRdb => exact .intro (.encRdb 0) rfl emptyState_inv rfl rfl
  | blkWr => exact .intro (.blkWr 16 0) rfl emptyState_inv rfl rfl
  | blkRd => exact .intro (.blkRd 16) rfl emptyState_inv rfl rfl
  | scrRd => exact .intro (.scrRd 16) rfl emptyState_inv rfl rfl
  | _ => simp [mayAnswer] at h

/-- R218: a byte that has no place. -/
theorem answerable_overflow {m : Mnemonic} (h : .overflow ∈ mayAnswer m) :
    Answerable m (.err .overflow) 0 := by
  cases m with
  | encBool => exact .intro (.encBool true 128) rfl fullState_inv rfl rfl
  | encFinish => exact .intro .encFinish rfl fullState_inv rfl rfl
  | decWrb => exact .intro (.decWrb 0) rfl fullState_inv rfl rfl
  | litPutu => exact .intro (.litPutu 1 1) rfl fullState_inv rfl rfl
  | litPuts => exact .intro (.litPuts 1 (-1)) rfl fullState_inv rfl rfl
  | _ => simp [mayAnswer] at h

/-- No row answers ERR_ILLEGAL: it is the answer to a word of no row (R213). -/
theorem illegal_not_mem_mayAnswer (m : Mnemonic) : .illegal ∉ mayAnswer m := by
  cases m <;> decide

/-- Settles O19: the blanks hold for every command and state, and each entry has its command. -/
theorem statusTable : Obligations.StatusTable := by
  refine ⟨fun i s t e rw => mem_mayAnswer_of_exec, fun m => ?_, fun m e he => ?_⟩
  · obtain ⟨rw, i, s, t, h⟩ := answerable_ok m
    exact ⟨i, s, t, rw, h⟩
  · cases e with
    | illegal => exact absurd he (illegal_not_mem_mayAnswer m)
    | arg => exact answerable_arg he
    | state => exact answerable_state he
    | range => exact answerable_range he
    | overflow => exact answerable_overflow he

end Sys2Proof.Machine

/-! The reset event and the idle block (70_reset_and_hazards.md R234, R240, R251). -/

namespace Sys2Proof.Machine

theorem step_of_idle {s : State} (hport : s.port = []) : step s = .next s := by
  simp only [step, hport, waitForCommand]

/-- Settles O9: the event takes itself from the port and restarts, whichever command it cuts short;
an empty port is the waiting branch of the step. -/
theorem resetEventAndWaiting : Obligations.ResetEventAndWaiting := by
  refine ⟨fun s c rest hport => ⟨(s.setPort rest).restart, step_of_reset hport, ?_, ?_, ?_, ?_⟩,
    fun s => step_of_idle⟩
  · exact (s.setPort rest).restart_atResetValues
  · rw [State.restart_responses, State.setPort_responses]
  · rw [State.restart_port, State.setPort_port]
  · rw [State.restart_cap, State.setPort_cap]

end Sys2Proof.Machine

/-! Decode and encode as inverses (30_encoding.md R70 to R78): a row's operands and the fields of its
word determine each other, and the mask-and-match test says when a word is in a row. -/

namespace Sys2Proof

/-- Settles O3: nine closed words, evaluated. -/
theorem exampleWordsDecode : Obligations.ExampleWordsDecode := by
  unfold Obligations.ExampleWordsDecode
  decide

/-! ### The mask-and-match test (R75) -/

/-- R71, format Y: the mask keeps every bit of `imm` above the byte. -/
theorem upper_eq_zero_of_and {imm : BitVec 32} (h : imm &&& 0xFFFFFF00#32 = 0#32) :
    imm.extractLsb' 8 24 = 0#24 := by
  have hmask : (0xFFFFFF00#32).extractLsb' 8 24 = BitVec.allOnes 24 := by decide
  calc imm.extractLsb' 8 24 = (imm &&& 0xFFFFFF00#32).extractLsb' 8 24 := by
        rw [BitVec.extractLsb'_and, hmask, BitVec.and_allOnes]
    _ = 0#24 := by rw [h]; rfl

/-- R71, R75: a word that passes the test of a row has the row's `op`, and zeros where the row must
have them. -/
theorem fields_of_row_test {cw : CommandWord} {m : Mnemonic}
    (h : cw &&& m.format.mask = m.matchWord) :
    (unpack cw).op = m.op ∧ (unpack cw).rsv = 0 ∧ m.format.unusedZero (unpack cw) = true := by
  rw [← pack_unpack cw, mask_eq_pack, pack_and, matchWord_eq_pack] at h
  have hfields := pack_injective h
  generalize unpack cw = f at hfields ⊢
  have hop : f.op &&& 255#8 = f.op := BitVec.and_allOnes
  have hnf : f.nf &&& 255#8 = f.nf := BitVec.and_allOnes
  have hrsv : f.rsv &&& 32767#15 = f.rsv := BitVec.and_allOnes
  have hb : f.b &&& 1#1 = f.b := BitVec.and_allOnes
  have himm : f.imm &&& 4294967295#32 = f.imm := BitVec.and_allOnes
  cases hformat : m.format with
  | y =>
    simp only [hformat, Format.maskFields, CommandFields.mk.injEq, BitVec.ofNat_eq_ofNat, hop, hnf,
      hrsv, hb] at hfields
    obtain ⟨h1, h2, h3, h4, h5⟩ := hfields
    simp [Format.unusedZero, h1, h2, h3, h4, upper_eq_zero_of_and h5]
  | _ =>
    simp only [hformat, Format.maskFields, CommandFields.mk.injEq, BitVec.ofNat_eq_ofNat, hop, hnf,
      hrsv, hb, himm] at hfields
    simp [Format.unusedZero, hfields]

theorem mnemonic_assemble (m : Mnemonic) (f : CommandFields) : (m.assemble f).mnemonic = m := by
  cases m <;> rfl

/-- What the decoder made of a word that it accepts: the command of the word's row. -/
theorem assemble_of_decode_ok {cw : CommandWord} {i : Instr} (h : decode cw = .ok i) :
    ∃ m : Mnemonic, (unpack cw).op = m.op ∧ (unpack cw).rsv = 0 ∧
      m.format.unusedZero (unpack cw) = true ∧ i = m.assemble (unpack cw) := by
  obtain ⟨m, hop, hrsv, hzero⟩ := fields_of_decode_ok h
  rw [decode_of_op_eq hop, if_neg (not_not.2 hrsv), if_pos hzero] at h
  exact ⟨m, hop, hrsv, hzero, (Except.ok.inj h).symm⟩

/-- Settles O4: both sides say that the word has the row's `op`, and zeros in `rsv` and in the fields
that the row does not use. -/
theorem decodeFollowsMaskAndMatch : Obligations.DecodeFollowsMaskAndMatch := by
  intro cw m
  constructor
  · intro htest
    obtain ⟨hop, hrsv, hzero⟩ := fields_of_row_test htest
    have hdecode := decode_pack hop hrsv hzero
    rw [pack_unpack] at hdecode
    exact ⟨_, hdecode, mnemonic_assemble m _⟩
  · rintro ⟨i, hdecode, rfl⟩
    obtain ⟨m, hop, hrsv, hzero, rfl⟩ := assemble_of_decode_ok hdecode
    have htest := pack_and_mask hrsv hzero
    rwa [pack_unpack, hop, ← matchWord_eq_pack, ← mnemonic_assemble m (unpack cw)] at htest

/-! ### Operands and their fields (R72) -/

theorem toInt_ofInt_of_fitsSigned {w : Nat} {v : Int} (hw : 0 < w) (h : fitsSigned w v = true) :
    (BitVec.ofInt w v).toInt = v := by
  simp only [fitsSigned, Bool.and_eq_true, decide_eq_true_eq] at h
  have htwice : (2 : Int) ^ w = 2 * 2 ^ (w - 1) := by
    rw [← pow_succ', Nat.sub_add_cancel hw]
  rw [BitVec.toInt_ofInt]
  refine Int.bmod_eq_of_le ?_ ?_ <;> push_cast <;> omega

theorem toNat_ofNat_of_fitsUnsigned {w v : Nat} (h : fitsUnsigned w v = true) :
    (BitVec.ofNat w v).toNat = v :=
  (BitVec.toNat_ofNat v w).trans (Nat.mod_eq_of_lt (of_decide_eq_true h))

theorem fitsSigned_toInt {w : Nat} (x : BitVec w) (hw : 0 < w) :
    fitsSigned w x.toInt = true := by
  have htwice : (2 : Int) ^ w = 2 * 2 ^ (w - 1) := by
    rw [← pow_succ', Nat.sub_add_cancel hw]
  have hlow := x.le_two_mul_toInt
  have hhigh := x.two_mul_toInt_lt
  simp only [fitsSigned, Bool.and_eq_true, decide_eq_true_eq]
  omega

theorem fitsUnsigned_toNat {w : Nat} (x : BitVec w) : fitsUnsigned w x.toNat = true :=
  decide_eq_true x.isLt

theorem setWidth_lower (byte : Byte) : (byte.setWidth 32).extractLsb' 0 8 = byte := by
  revert byte; decide

theorem setWidth_upper (byte : Byte) : (byte.setWidth 32).extractLsb' 8 24 = 0#24 := by
  revert byte; decide

theorem ofBool_beq_one (b : Bool) : (BitVec.ofBool b == 1#1) = b := by cases b <;> rfl

theorem ofBool_of_beq_one (b : BitVec 1) : BitVec.ofBool (b == 1#1) = b := by revert b; decide

/-- The decoder reads a command's operands back from its fields. -/
theorem assemble_fields {i : Instr} (h : i.wellFormed = true) :
    i.mnemonic.assemble i.fields = i := by
  cases i with
  | encBool b p =>
    exact congrArg₂ Instr.encBool (ofBool_beq_one b) (toInt_ofInt_of_fitsSigned (by decide) h)
  | encRdb idx => exact congrArg Instr.encRdb (toNat_ofNat_of_fitsUnsigned h)
  | decWrb byte => exact congrArg Instr.decWrb (setWidth_lower byte)
  | decBool p => exact congrArg Instr.decBool (toInt_ofInt_of_fitsSigned (by decide) h)
  | litPutu n v =>
    obtain ⟨hn, hv⟩ := Bool.and_eq_true_iff.1 h
    exact congrArg₂ Instr.litPutu (toInt_ofInt_of_fitsSigned (by decide) hn)
      (toNat_ofNat_of_fitsUnsigned hv)
  | litPuts n v =>
    obtain ⟨hn, hv⟩ := Bool.and_eq_true_iff.1 h
    exact congrArg₂ Instr.litPuts (toInt_ofInt_of_fitsSigned (by decide) hn)
      (toInt_ofInt_of_fitsSigned (by decide) hv)
  | blkWr n v =>
    obtain ⟨hn, hv⟩ := Bool.and_eq_true_iff.1 h
    exact congrArg₂ Instr.blkWr (toInt_ofInt_of_fitsSigned (by decide) hn)
      (toInt_ofInt_of_fitsSigned (by decide) hv)
  | litGetu n => exact congrArg Instr.litGetu (toInt_ofInt_of_fitsSigned (by decide) h)
  | litGets n => exact congrArg Instr.litGets (toInt_ofInt_of_fitsSigned (by decide) h)
  | blkRd n => exact congrArg Instr.blkRd (toInt_ofInt_of_fitsSigned (by decide) h)
  | scrRd n => exact congrArg Instr.scrRd (toInt_ofInt_of_fitsSigned (by decide) h)
  | _ => rfl

/-- A command leaves the fields that its row does not use zero. -/
theorem unusedZero_fields (i : Instr) : i.mnemonic.format.unusedZero i.fields = true := by
  cases i with
  | decWrb byte => exact beq_iff_eq.2 (setWidth_upper byte)
  | _ => rfl

/-- Settles O5: past the row test, the operands are those of the fields. -/
theorem decodeOfEncode : Obligations.DecodeOfEncode := by
  intro i hwf
  rw [encode, decode_pack (m := i.mnemonic) rfl rfl (unusedZero_fields i), assemble_fields hwf]

theorem wellFormed_assemble (m : Mnemonic) (f : CommandFields) :
    (m.assemble f).wellFormed = true := by
  have hn := fitsSigned_toInt f.nf (by decide)
  have hv := fitsSigned_toInt f.imm (by decide)
  have hu := fitsUnsigned_toNat f.imm
  cases m with
  | encBool | decBool => exact hv
  | encRdb => exact hu
  | litPutu => exact Bool.and_eq_true_iff.2 ⟨hn, hu⟩
  | litPuts | blkWr => exact Bool.and_eq_true_iff.2 ⟨hn, hv⟩
  | litGetu | litGets | blkRd | scrRd => exact hn
  | _ => rfl

/-- R71, format Y: a field with nothing above the byte is the byte. -/
theorem setWidth_of_upper_eq_zero {imm : BitVec 32} (h : imm.extractLsb' 8 24 = 0#24) :
    (imm.extractLsb' 0 8).setWidth 32 = imm := by
  have hdiv := congrArg BitVec.toNat h
  rw [BitVec.extractLsb'_toNat, Nat.shiftRight_eq_div_pow] at hdiv
  apply BitVec.eq_of_toNat_eq
  rw [BitVec.toNat_setWidth, BitVec.extractLsb'_toNat, Nat.shiftRight_zero]
  simp only [BitVec.toNat_ofNat] at hdiv
  omega

/-- The fields of the command that the decoder assembles are the word's. -/
theorem fields_assemble {m : Mnemonic} {f : CommandFields} (hop : f.op = m.op) (hrsv : f.rsv = 0)
    (hzero : m.format.unusedZero f = true) : (m.assemble f).fields = f := by
  obtain ⟨op, nf, rsv, b, imm⟩ := f
  obtain rfl : op = m.op := hop
  obtain rfl : rsv = 0 := hrsv
  cases m with
  | decWrb =>
    simp only [Mnemonic.format, Format.unusedZero, Bool.and_eq_true, beq_iff_eq] at hzero
    obtain ⟨⟨rfl, rfl⟩, hupper⟩ := hzero
    simp only [Mnemonic.assemble, Instr.fields, Instr.immField, setWidth_of_upper_eq_zero hupper]
    rfl
  | _ =>
    simp only [Mnemonic.format, Format.unusedZero, Bool.and_eq_true, beq_iff_eq] at hzero
    simp [Mnemonic.assemble, Instr.fields, Instr.mnemonic, Instr.nfField, Instr.bField,
      Instr.immField, ofBool_of_beq_one, hzero]

/-- Settles O6: the fields of the assembled command are those the word was read from. -/
theorem encodeOfDecode : Obligations.EncodeOfDecode := by
  intro cw i hdecode
  obtain ⟨m, hop, hrsv, hzero, rfl⟩ := assemble_of_decode_ok hdecode
  refine ⟨wellFormed_assemble m _, ?_⟩
  rw [encode, fields_assemble hop hrsv hzero, pack_unpack]

end Sys2Proof

/-! The units of the block as frames (R38, R200, R232): which part of the state a command reads and
writes, whatever the rest holds. -/

namespace Sys2Proof.Machine

/-! ### Commands of one unit -/

/-- The command is a function of the encoder context (and `CAP`) to the encoder context. -/
def EncLocal (i : Instr) : Prop :=
  ∃ f : Nat → EncContext → Except Stop (EncContext × Int), ∀ s, exec i s =
    complete s (f s.cap s.enc >>= fun r => .ok (s.setEnc r.1, r.2))

/-- The command is a function of the decoder context (and `CAP`) to the decoder context. -/
def DecLocal (i : Instr) : Prop :=
  ∃ f : Nat → DecContext → Except Stop (DecContext × Int), ∀ s, exec i s =
    complete s (f s.cap s.dec >>= fun r => .ok (s.setDec r.1, r.2))

/-- The command is a function of `BLK` to `BLK`. -/
def BlkLocal (i : Instr) : Prop :=
  ∃ f : Block → Except Stop (Block × Int), ∀ s, exec i s =
    complete s (f s.blk >>= fun r => .ok (s.setBlk r.1, r.2))

/-- The command is a transform in two passes, which fill `SCR` and then `BLK` from `BLK` alone
(R177). -/
def TwoPassLocal (i : Instr) : Prop :=
  ∃ f1 f2 q, ∀ s, exec i s = complete s (.ok (twoPass f1 f2 q s, 0))

/-- The command reads one element of `SCR` and writes nothing (R174). -/
def ReadsScr (i : Instr) : Prop :=
  ∃ f : Block → Except Stop Int, ∀ s, exec i s = complete s (f s.scr >>= fun v => .ok (s, v))

/-- The command touches no state (R100, R200). -/
def Stateless (i : Instr) : Prop := ∃ v, ∀ s, exec i s = complete s (.ok (s, v))

theorem encLocal_of_row {i : Instr} (h : i.mnemonic ∈
    [Mnemonic.encInit, .encBool, .encFinish, .encLen, .encRdb, .litPutu, .litPuts]) : EncLocal i := by
  cases i with
  | encInit => exact ⟨fun _ e => .ok (e.fresh, 0), fun _ => rfl⟩
  | encBool b p =>
    refine ⟨fun cap e => do
      checkProbability p
      checkActive e
      let e ← encodeBool cap b p.toNat e
      .ok (e, 0), fun s => ?_⟩
    simp only [exec, execEncBool, bind_assoc, ok_bind]
  | encFinish =>
    refine ⟨fun cap e => match e.phase with
      | .finished => .ok (e, e.len)
      | .active => do
        let e ← encFlush cap e
        .ok (e, e.len), fun s => ?_⟩
    simp only [exec, execEncFinish]
    cases s.enc.phase with
    | finished => rfl
    | active => simp only [bind_assoc, ok_bind]
  | encLen => exact ⟨fun _ e => .ok (e, e.len), fun _ => rfl⟩
  | encRdb idx =>
    refine ⟨fun cap e => if idx ≥ e.len then .error (.raise .range) else do
      let v ← load cap e.buf idx
      .ok (e, v.toNat), fun s => ?_⟩
    simp only [exec, execEncRdb]
    split
    · rfl
    · simp only [bind_assoc, ok_bind]
      rfl
  | litPutu n v =>
    refine ⟨fun cap e => do
      checkNumBits n
      checkActive e
      let e ← putBits cap v n.toNat e
      .ok (e, 0), fun s => ?_⟩
    simp only [exec, execLitPutu, bind_assoc, ok_bind]
  | litPuts n v =>
    refine ⟨fun cap e => do
      checkNumBits n
      checkActive e
      let e ← encodeBool cap (decide (v < 0)) 128 e
      let e ← putBits cap v.natAbs (n.toNat - 1) e
      .ok (e, 0), fun s => ?_⟩
    simp only [exec, execLitPuts, bind_assoc, ok_bind]
  | _ => simp [Instr.mnemonic] at h

theorem decLocal_of_row {i : Instr} (h : i.mnemonic ∈
    [Mnemonic.decClr, .decWrb, .decInit, .decBool, .litGetu, .litGets]) : DecLocal i := by
  cases i with
  | decClr => exact ⟨fun _ d => .ok (d.loaded 0, 0), fun _ => rfl⟩
  | decWrb byte =>
    refine ⟨fun cap d => do
      checkLoading d
      if d.len = cap then .error (.raise .overflow)
      else
        let buf ← store cap d.buf d.len byte
        .ok ({ d with buf := buf, len := d.len + 1 }, 0), fun s => ?_⟩
    simp only [exec, execDecWrb, bind_assoc]
    split <;> simp only [bind_assoc, ok_bind, error_bind]
  | decInit =>
    refine ⟨fun cap d => do
      let d ← decStart cap d
      .ok (d, 0), fun s => ?_⟩
    simp only [exec, execDecInit, bind_assoc, ok_bind]
  | decBool p =>
    refine ⟨fun cap d => do
      checkProbability p
      checkDecoding d
      let (bit, d) ← decodeBool cap p.toNat d
      .ok (d, bit.toNat), fun s => ?_⟩
    simp only [exec, execDecBool, bind_assoc, ok_bind]
  | litGetu n =>
    refine ⟨fun cap d => do
      checkNumBits n
      checkDecoding d
      let (v, d) ← getBits cap n.toNat 0 d
      .ok (d, v), fun s => ?_⟩
    simp only [exec, execLitGetu, bind_assoc, ok_bind]
  | litGets n =>
    refine ⟨fun cap d => do
      checkNumBits n
      checkDecoding d
      let (neg, d) ← decodeBool cap 128 d
      let (m, d) ← getBits cap (n.toNat - 1) 0 d
      .ok (d, if neg then -(m : Int) else m), fun s => ?_⟩
    simp only [exec, execLitGets, bind_assoc, ok_bind]
  | _ => simp [Instr.mnemonic] at h

theorem blkLocal_of_row {i : Instr} (h : i.mnemonic ∈ [Mnemonic.blkWr, .blkRd, .xfmDct0]) :
    BlkLocal i := by
  cases i with
  | blkWr n v =>
    refine ⟨fun b => do
      checkElement n
      .ok (b.set n.toNat (wrap32 v), 0), fun s => ?_⟩
    simp only [exec, execBlkWr, bind_assoc, ok_bind]
  | blkRd n =>
    refine ⟨fun b => do
      checkElement n
      .ok (b, (b.get n.toNat).toInt), fun s => ?_⟩
    simp only [exec, execBlkRd, bind_assoc, ok_bind]
    rfl
  | xfmDct0 => exact ⟨fun b => .ok (b, (wrap32 (asr (blockSum b + 1) 1)).toInt), fun _ => rfl⟩
  | _ => simp [Instr.mnemonic] at h

theorem twoPassLocal_of_row {i : Instr}
    (h : i.mnemonic ∈ [Mnemonic.xfmWht, .xfmIwht, .xfmDct, .xfmIdct]) : TwoPassLocal i := by
  cases i with
  | xfmWht => exact ⟨_, _, _, fun _ => rfl⟩
  | xfmIwht => exact ⟨_, _, _, fun _ => rfl⟩
  | xfmDct => exact ⟨_, _, _, fun _ => rfl⟩
  | xfmIdct => exact ⟨_, _, _, fun _ => rfl⟩
  | _ => simp [Instr.mnemonic] at h

theorem scrRd_readsScr (n : Int) : ReadsScr (.scrRd n) := by
  refine ⟨fun b => do
    checkElement n
    .ok (b.get n.toNat).toInt, fun s => ?_⟩
  simp only [exec, execScrRd, bind_assoc, ok_bind]

theorem stateless_of_row {i : Instr} (h : i.mnemonic ∈ [Mnemonic.nop, .cscRgb2yuv, .cscYuv2rgb]) :
    Stateless i := by
  cases i with
  | nop => exact ⟨_, fun _ => rfl⟩
  | cscRgb2yuv rgb => exact ⟨_, fun _ => rfl⟩
  | cscYuv2rgb yuv => exact ⟨_, fun _ => rfl⟩
  | _ => simp [Instr.mnemonic] at h

/-! ### What a command of one unit leaves as it was, and does not depend on -/

section Frames

variable {i : Instr} {s t : State}

/-- What a command that answers did: it responded, from a state that its meaning made of some new
value `a` of its part, or from the state as it was, on an error that its part alone decides. -/
theorem complete_local {α : Type} {x : Except Stop (α × Int)} {g : State → α → State} {a₀ : α}
    (hg : g s a₀ = s) (h : complete s (x >>= fun r => .ok (g s r.1, r.2)) = .next t) :
    ∃ a st rw, t = (g s a).respond st rw ∧ ∀ s', g s' a₀ = s' →
      complete s' (x >>= fun r => .ok (g s' r.1, r.2)) = .next ((g s' a).respond st rw) := by
  match x with
  | .ok (a, v) => exact ⟨a, .ok, u32 v, (Host.Outcome.next.inj h).symm, fun _ _ => rfl⟩
  | .error (.raise e) =>
    refine ⟨a₀, .err e, 0, ?_, fun s' hs' => ?_⟩
    · rw [hg]
      exact (Host.Outcome.next.inj h).symm
    · rw [hs']
      rfl

theorem EncLocal.frame (hi : EncLocal i) (h : exec i s = .next t) :
    ∃ e st rw, t = (s.setEnc e).respond st rw ∧ ∀ s', s'.cap = s.cap → s'.enc = s.enc →
      exec i s' = .next ((s'.setEnc e).respond st rw) := by
  obtain ⟨f, hf⟩ := hi
  rw [hf] at h
  obtain ⟨e, st, rw', ht, hother⟩ := complete_local (g := State.setEnc) (a₀ := s.enc) rfl h
  refine ⟨e, st, rw', ht, fun s' hcap henc => ?_⟩
  rw [hf, hcap, henc]
  exact hother s' (by rw [← henc]; rfl)

theorem DecLocal.frame (hi : DecLocal i) (h : exec i s = .next t) :
    ∃ d st rw, t = (s.setDec d).respond st rw ∧ ∀ s', s'.cap = s.cap → s'.dec = s.dec →
      exec i s' = .next ((s'.setDec d).respond st rw) := by
  obtain ⟨f, hf⟩ := hi
  rw [hf] at h
  obtain ⟨d, st, rw', ht, hother⟩ := complete_local (g := State.setDec) (a₀ := s.dec) rfl h
  refine ⟨d, st, rw', ht, fun s' hcap hdec => ?_⟩
  rw [hf, hcap, hdec]
  exact hother s' (by rw [← hdec]; rfl)

theorem BlkLocal.frame (hi : BlkLocal i) (h : exec i s = .next t) :
    ∃ b st rw, t = (s.setBlk b).respond st rw ∧ ∀ s', s'.blk = s.blk →
      exec i s' = .next ((s'.setBlk b).respond st rw) := by
  obtain ⟨f, hf⟩ := hi
  rw [hf] at h
  obtain ⟨b, st, rw', ht, hother⟩ := complete_local (g := State.setBlk) (a₀ := s.blk) rfl h
  refine ⟨b, st, rw', ht, fun s' hblk => ?_⟩
  rw [hf, hblk]
  exact hother s' (by rw [← hblk]; rfl)

theorem TwoPassLocal.frame (hi : TwoPassLocal i) (h : exec i s = .next t) :
    ∃ b c, t = ((s.setScr c).setBlk b).respond .ok 0 ∧ ∀ s', s'.blk = s.blk →
      exec i s' = .next (((s'.setScr c).setBlk b).respond .ok 0) := by
  obtain ⟨f1, f2, q, hf⟩ := hi
  rw [hf] at h
  refine ⟨_, _, (Host.Outcome.next.inj h).symm, fun s' hblk => ?_⟩
  rw [hf, ← hblk]
  rfl

theorem ReadsScr.frame (hi : ReadsScr i) (h : exec i s = .next t) :
    ∃ st rw, t = s.respond st rw ∧ ∀ s', s'.scr = s.scr → exec i s' = .next (s'.respond st rw) := by
  obtain ⟨f, hf⟩ := hi
  simp only [hf] at h ⊢
  match hx : f s.scr with
  | .ok v =>
    rw [hx] at h
    refine ⟨.ok, u32 v, (Host.Outcome.next.inj h).symm, fun s' hscr => ?_⟩
    rw [hscr, hx]
    rfl
  | .error (.raise e) =>
    rw [hx] at h
    refine ⟨.err e, 0, (Host.Outcome.next.inj h).symm, fun s' hscr => ?_⟩
    rw [hscr, hx]
    rfl
  | .error (.fault _) =>
    rw [hx] at h
    cases h

theorem Stateless.frame (hi : Stateless i) (h : exec i s = .next t) :
    ∃ rw, t = s.respond .ok rw ∧ ∀ s', exec i s' = .next (s'.respond .ok rw) := by
  obtain ⟨v, hv⟩ := hi
  rw [hv] at h
  exact ⟨u32 v, (Host.Outcome.next.inj h).symm, hv⟩

end Frames

/-- Every command but RESET and DEC.LDENC belongs to one unit. -/
inductive OneUnit (i : Instr) : Prop where
  | enc (h : EncLocal i)
  | dec (h : DecLocal i)
  | blk (h : BlkLocal i)
  | twoPass (h : TwoPassLocal i)
  | scr (n : Int) (h : i = .scrRd n)
  | none (h : Stateless i)

theorem oneUnit_of_ne {i : Instr} (hreset : i ≠ .reset) (hldenc : i ≠ .decLdenc) : OneUnit i := by
  cases i with
  | reset => exact absurd rfl hreset
  | decLdenc => exact absurd rfl hldenc
  | encInit | encBool | encFinish | encLen | encRdb | litPutu | litPuts =>
    exact .enc (encLocal_of_row (by simp [Instr.mnemonic]))
  | decClr | decWrb | decInit | decBool | litGetu | litGets =>
    exact .dec (decLocal_of_row (by simp [Instr.mnemonic]))
  | blkWr | blkRd | xfmDct0 => exact .blk (blkLocal_of_row (by simp [Instr.mnemonic]))
  | xfmWht | xfmIwht | xfmDct | xfmIdct => exact .twoPass (twoPassLocal_of_row (by simp [Instr.mnemonic]))
  | scrRd n => exact .scr n rfl
  | nop | cscRgb2yuv | cscYuv2rgb => exact .none (stateless_of_row (by simp [Instr.mnemonic]))

/-- DEC.LDENC copies from one context to the other and does not look at the blocks. -/
theorem exec_decLdenc_cases {s t : State} (h : exec .decLdenc s = .next t) :
    ∃ m, copyBytes s.cap s.enc.buf s.dec.buf s.enc.len = .ok m ∧
      t = (s.setDec (DecContext.loaded { s.dec with buf := m } s.enc.len)).respond .ok
        (BitVec.ofNat 32 s.enc.len) := by
  obtain ⟨s', v, hok, rfl⟩ | ⟨e, hraise, -⟩ := complete_eq_next.1 h
  · obtain ⟨m, hcopy, -⟩ := bind_eq_ok.1 hok
    rw [exec_decLdenc hcopy] at h
    exact ⟨m, hcopy, (Host.Outcome.next.inj h).symm⟩
  · have hnone := (copyBytes_raisesOnly s.cap s.enc.buf s.dec.buf s.enc.len).bind
      (es := []) (f := fun m => .ok
        (s.setDec (DecContext.loaded { s.dec with buf := m } s.enc.len), (s.enc.len : Int)))
      (fun _ => .ok _) e hraise
    cases hnone

/-! ### One response a command (R74, R210) -/

/-- The command delivered one response and left the port and the configuration alone. -/
structure State.Responded (s t : State) : Prop where
  response : ∃ r, t.responses = s.responses ++ [r]
  port : t.port = s.port
  cap : t.cap = s.cap

theorem State.respond_responded (s : State) (st : Status) (rw : ResultWord) :
    s.Responded (s.respond st rw) := ⟨⟨_, rfl⟩, rfl, rfl⟩

theorem exec_responded {i : Instr} {s t : State} (h : exec i s = .next t) : s.Responded t := by
  by_cases hreset : i = .reset
  · subst hreset
    obtain rfl := Host.Outcome.next.inj ((exec_reset s).symm.trans h)
    exact ⟨⟨_, rfl⟩, rfl, rfl⟩
  by_cases hldenc : i = .decLdenc
  · subst hldenc
    obtain ⟨m, -, rfl⟩ := exec_decLdenc_cases h
    exact ⟨⟨_, rfl⟩, rfl, rfl⟩
  cases oneUnit_of_ne hreset hldenc with
  | enc hi =>
    obtain ⟨e, st, rw, rfl, -⟩ := hi.frame h
    exact ⟨⟨_, rfl⟩, rfl, rfl⟩
  | dec hi =>
    obtain ⟨d, st, rw, rfl, -⟩ := hi.frame h
    exact ⟨⟨_, rfl⟩, rfl, rfl⟩
  | blk hi =>
    obtain ⟨b, st, rw, rfl, -⟩ := hi.frame h
    exact ⟨⟨_, rfl⟩, rfl, rfl⟩
  | twoPass hi =>
    obtain ⟨b, c, rfl, -⟩ := hi.frame h
    exact ⟨⟨_, rfl⟩, rfl, rfl⟩
  | scr n hi =>
    subst hi
    obtain ⟨st, rw, rfl, -⟩ := (scrRd_readsScr n).frame h
    exact s.respond_responded st rw
  | none hi =>
    obtain ⟨rw, rfl, -⟩ := hi.frame h
    exact s.respond_responded .ok rw

/-- Settles O16: every meaning ends in `complete`, and none touches the port, the responses or
`CAP`. -/
theorem oneResponsePerCommand : Obligations.OneResponsePerCommand := by
  intro i s t h
  obtain ⟨hresponse, hport, hcap⟩ := exec_responded h
  exact ⟨hresponse, hport, hcap⟩

/-! ### Independence (R38, R177, R200, R232) -/

/-- Settles O54: no unit but that of SCR.RD reads `SCR`; RESET and the transforms write it, from what
they find elsewhere. -/
theorem scratchNeverMatters : Obligations.ScratchNeverMatters := by
  intro i s t scr h hne
  by_cases hreset : i = .reset
  · subst hreset
    obtain rfl := Host.Outcome.next.inj ((exec_reset s).symm.trans h)
    exact ⟨_, exec_reset _, rfl, by simp⟩
  by_cases hldenc : i = .decLdenc
  · subst hldenc
    obtain ⟨m, hcopy, rfl⟩ := exec_decLdenc_cases h
    exact ⟨_, exec_decLdenc (s := { s with scr := scr }) hcopy, rfl, by simp⟩
  by_cases htwo : i ∈ [.xfmWht, .xfmIwht, .xfmDct, .xfmIdct]
  · have hi : TwoPassLocal i := twoPassLocal_of_row (List.mem_map_of_mem (f := Instr.mnemonic) htwo)
    obtain ⟨b, c, rfl, hother⟩ := hi.frame h
    exact ⟨_, hother { s with scr := scr } rfl, rfl, fun _ => rfl⟩
  refine (?_ : ∃ t', exec i { s with scr := scr } = .next t' ∧ { t' with scr := t.scr } = t).imp
    fun t' ht' => ⟨ht'.1, ht'.2, fun hmem => absurd hmem htwo⟩
  cases oneUnit_of_ne hreset hldenc with
  | enc hi =>
    obtain ⟨e, st, rw, rfl, hother⟩ := hi.frame h
    exact ⟨_, hother { s with scr := scr } rfl rfl, rfl⟩
  | dec hi =>
    obtain ⟨d, st, rw, rfl, hother⟩ := hi.frame h
    exact ⟨_, hother { s with scr := scr } rfl rfl, rfl⟩
  | blk hi =>
    obtain ⟨b, st, rw, rfl, hother⟩ := hi.frame h
    exact ⟨_, hother { s with scr := scr } rfl, rfl⟩
  | twoPass hi =>
    obtain ⟨b, c, rfl, hother⟩ := hi.frame h
    exact ⟨_, hother { s with scr := scr } rfl, rfl⟩
  | scr n hi => exact absurd hi (hne n)
  | none hi =>
    obtain ⟨rw, rfl, hother⟩ := hi.frame h
    exact ⟨_, hother { s with scr := scr }, rfl⟩

/-- What a command of the block unit leaves as it was, and does not depend on. -/
theorem block_command_frame {i : Instr} {s t : State} (hrow : i.mnemonic ∈
    [Mnemonic.blkWr, .blkRd, .scrRd, .xfmWht, .xfmIwht, .xfmDct, .xfmIdct, .xfmDct0])
    (h : exec i s = .next t) :
    t.enc = s.enc ∧ t.dec = s.dec ∧
      ∀ e d, exec i { s with enc := e, dec := d } = .next { t with enc := e, dec := d } := by
  cases i with
  | blkWr | blkRd | xfmDct0 =>
    obtain ⟨b, st, rw, rfl, hother⟩ := (blkLocal_of_row (by simp [Instr.mnemonic])).frame h
    exact ⟨rfl, rfl, fun e d => hother { s with enc := e, dec := d } rfl⟩
  | xfmWht | xfmIwht | xfmDct | xfmIdct =>
    obtain ⟨b, c, rfl, hother⟩ := (twoPassLocal_of_row (by decide)).frame h
    exact ⟨rfl, rfl, fun e d => hother { s with enc := e, dec := d } rfl⟩
  | scrRd n =>
    obtain ⟨st, rw, rfl, hother⟩ := (scrRd_readsScr n).frame h
    exact ⟨rfl, rfl, fun e d => hother { s with enc := e, dec := d } rfl⟩
  | _ => simp [Instr.mnemonic] at hrow

/-- Settles O58: each row has its unit, and a unit's frame is what the clause says. -/
theorem unitsAreIndependent : Obligations.UnitsAreIndependent := by
  intro i s t h
  refine ⟨fun hrow => ?_, fun hrow => ?_, fun hrow => block_command_frame hrow h, fun hrow => ?_⟩
  · obtain ⟨e, st, rw, rfl, hother⟩ := (encLocal_of_row hrow).frame h
    exact ⟨rfl, rfl, rfl, fun d b c => hother { s with dec := d, blk := b, scr := c } rfl rfl⟩
  · obtain ⟨d, st, rw, rfl, hother⟩ := (decLocal_of_row hrow).frame h
    exact ⟨rfl, rfl, rfl, fun e b c => hother { s with enc := e, blk := b, scr := c } rfl rfl⟩
  · obtain ⟨rw, rfl, hother⟩ := (stateless_of_row hrow).frame h
    exact ⟨rfl, rfl, rfl, rfl, fun e d b c =>
      hother { s with enc := e, dec := d, blk := b, scr := c }⟩

end Sys2Proof.Machine

/-! The status codes, the reset values and the step of a legal word (R42, R73, R75, R120, R140). -/

namespace Sys2Proof.Machine

/-- Settles O7: the decoder's answer selects the branch of `execWord`. -/
theorem stepRunsDecodedCommand : Obligations.StepRunsDecodedCommand := by
  intro s cw rest i hport hdecode
  rw [step_of_command hport, execWord, hdecode]
  rfl

/-- Settles O10: there are six statuses. -/
theorem statusCodes : Obligations.StatusCodes := by
  refine ⟨rfl, rfl, rfl, rfl, rfl, rfl, fun st => ?_⟩
  match st with
  | .ok => decide
  | .err e => cases e <;> decide

theorem State.resetWith_atResetValues (cap : Nat) : (State.resetWith cap).AtResetValues := by
  have hblocks : ∀ i, i < 16 →
      (State.resetWith cap).blk.get i = 0 ∧ (State.resetWith cap).scr.get i = 0 :=
    fun i hi => ⟨Block.zero_get hi, Block.zero_get hi⟩
  exact ⟨rfl, rfl, rfl, rfl, rfl, rfl, rfl, rfl, rfl, rfl, rfl, hblocks⟩

/-- Settles O11: the reset state is `S0` with the default capacity. -/
theorem resetValues : Obligations.ResetValues :=
  ⟨State.resetWith_atResetValues Config.defaultCap, rfl, rfl, rfl⟩

/-- R120 of a fresh session: nothing is added up or emitted yet. -/
theorem EncContext.fresh_inv {cap : Nat} {e : EncContext} (hbuf : e.buf.Ok cap) :
    e.fresh.Inv cap := by
  refine ⟨?_, ?_, fun _ => ?_, Nat.zero_le _, hbuf⟩
  · exact (by decide : 128 ≤ (255 : BitVec 8).toNat)
  · simp
  · simp [lowFull, shifts, streamNumber]

/-- R140 of a loaded stream: nothing is decoded yet. -/
theorem DecContext.loaded_inv {cap len : Nat} {d : DecContext} (hlen : len ≤ cap)
    (hbuf : d.buf.Ok cap) : (d.loaded len).Inv cap := by
  exact ⟨(by decide : 128 ≤ (255 : BitVec 8).toNat), Nat.zero_mod _, Nat.zero_le _, hlen, hbuf⟩

theorem State.resetWith_inv {cap : Nat} (hcap : Config.capLegal cap = true) :
    (State.resetWith cap).Inv := by
  obtain ⟨henc, hdec⟩ := resetWith_buffers_ok cap
  exact ⟨hcap, EncContext.fresh_inv henc, DecContext.loaded_inv (Nat.zero_le _) hdec⟩

/-- Before DEC.INIT there is no window to speak of. -/
theorem DecContext.windowInv_of_loading {d : DecContext} (h : d.phase = .loading) :
    d.WindowInv := by
  intro hdecoding
  rw [h] at hdecoding
  cases hdecoding

/-- Settles O12: nothing is encoded, loaded or decoded yet. -/
theorem invariantsHoldAtReset : Obligations.InvariantsHoldAtReset :=
  ⟨State.resetWith_inv (by decide), DecContext.windowInv_of_loading rfl,
    fun _ hcap => ⟨State.resetWith_inv hcap, DecContext.windowInv_of_loading rfl⟩⟩

end Sys2Proof.Machine

/-! Lists of decisions, as the literals make them (R150, R156): the encoder against the unbounded
coder, and what stays of the bytes already emitted (R57, R120). -/

namespace Sys2Proof.Machine

/-! ### Several decisions in a row -/

/-- One `EncBool` after the other. -/
def encodeAll (cap : Nat) : List (Bool × Nat) → EncContext → Except Stop EncContext
  | [], e => .ok e
  | d :: ds, e => encodeBool cap d.1 d.2 e >>= encodeAll cap ds

/-- R151: the bits of a literal are decisions. -/
theorem putBits_eq_encodeAll (cap v : Nat) : ∀ (n : Nat) (e : EncContext),
    putBits cap v n e = encodeAll cap (bitDecisions v n) e := by
  intro n
  induction n with
  | zero => exact fun _ => rfl
  | succ n ih => exact fun e => congrArg (encodeBool cap (v.testBit n) 128 e >>= ·) (funext ih)

/-- R152: a sign and the bits of a magnitude. -/
theorem signed_eq_encodeAll (cap v : Nat) (sign : Bool) (n : Nat) (e : EncContext) :
    (encodeBool cap sign 128 e >>= putBits cap v n) =
      encodeAll cap ((sign, 128) :: bitDecisions v n) e :=
  congrArg (encodeBool cap sign 128 e >>= ·) (funext (putBits_eq_encodeAll cap v n))

theorem signed_probability (sign : Bool) (v n : Nat) :
    ∀ d ∈ (sign, 128) :: bitDecisions v n, d.2 ≤ 255 :=
  List.forall_mem_cons.2 ⟨(by decide : 128 ≤ 255), bitDecisions_probability v n⟩

theorem encodeAll_frame {cap : Nat} : ∀ {ds : List (Bool × Nat)} {e e' : EncContext},
    encodeAll cap ds e = .ok e' → EncFrame cap e e' := by
  intro ds
  induction ds with
  | nil =>
    intro e e' h
    obtain rfl := Except.ok.inj h
    exact .refl cap e
  | cons d ds ih =>
    intro e e' h
    obtain ⟨e1, hfirst, hrest⟩ := bind_eq_ok.1 h
    exact (encodeBool_frame hfirst).trans (ih hrest)

theorem UnboundedCoder.shifts_le_foldl : ∀ (ds : List (Bool × Nat)) (u : UnboundedCoder),
    u.shifts ≤ (ds.foldl decide u).shifts := by
  intro ds
  induction ds with
  | nil => exact fun _ => le_rfl
  | cons d ds ih =>
    intro u
    have hfirst := shifts_le_renorm 7 (u.select d.1 d.2)
    rw [← decide_eq] at hfirst
    exact hfirst.trans (ih _)

/-- R121 for several decisions: the registers hold the unbounded coder, or its whole bytes do not
fit. -/
theorem encodeAll_holds {cap : Nat} : ∀ {ds : List (Bool × Nat)} {e : EncContext}
    {u : UnboundedCoder}, e.Holds cap u → 128 ≤ u.range → (∀ d ∈ ds, d.2 ≤ 255) →
    HoldsOrOverflows cap (ds.foldl UnboundedCoder.decide u) (encodeAll cap ds e) := by
  intro ds
  induction ds with
  | nil => exact fun h _ _ => .holds h
  | cons d ds ih =>
    intro e u h hr hp
    obtain ⟨hd, hds⟩ := List.forall_mem_cons.1 hp
    have hr2 : 2 ≤ u.range := by omega
    have hfirst := encodeBool_holds h (bit := d.1) hr2 hd
    unfold encodeAll
    generalize encodeBool cap d.1 d.2 e = first at hfirst ⊢
    cases hfirst with
    | holds h1 => exact ih h1 (UnboundedCoder.le_range_decide hr2 hd) hds
    | overflows hfull =>
      have hle := UnboundedCoder.shifts_le_foldl ds (u.decide (d.1, d.2))
      exact .overflows (hfull.trans_le (Nat.div_le_div_right hle))

/-- R120 between two decisions. -/
theorem EncContext.Holds.inv {cap : Nat} {e : EncContext} {u : UnboundedCoder}
    (h : e.Holds cap u) (hr : 128 ≤ u.range) : e.Inv cap := by
  refine ⟨h.range_eq ▸ hr, h.low_lt, fun _ => ?_, h.len_le, h.buf_ok⟩
  rw [h.low_eq, h.range_eq, h.shifts_eq]
  exact h.room

/-! ### The interval of several decisions (R115) -/

/-- The coder `u'` has doubled `u` some times and lies within its interval. -/
def UnboundedCoder.Narrows (u u' : UnboundedCoder) : Prop :=
  ∃ k, u'.shifts = u.shifts + k ∧ u.low * 2 ^ k ≤ u'.low ∧
    u'.low + u'.range ≤ (u.low + u.range) * 2 ^ k

theorem UnboundedCoder.Narrows.trans {u u' u'' : UnboundedCoder} (h : u.Narrows u')
    (h' : u'.Narrows u'') : u.Narrows u'' := by
  obtain ⟨k, hshifts, hlow, hhigh⟩ := h
  obtain ⟨k', hshifts', hlow', hhigh'⟩ := h'
  refine ⟨k + k', by omega, ?_, ?_⟩
  · calc u.low * 2 ^ (k + k') = u.low * 2 ^ k * 2 ^ k' := by rw [pow_add, Nat.mul_assoc]
      _ ≤ u'.low * 2 ^ k' := Nat.mul_le_mul_right _ hlow
      _ ≤ u''.low := hlow'
  · calc u''.low + u''.range ≤ (u'.low + u'.range) * 2 ^ k' := hhigh'
      _ ≤ (u.low + u.range) * 2 ^ k * 2 ^ k' := Nat.mul_le_mul_right _ hhigh
      _ = (u.low + u.range) * 2 ^ (k + k') := by rw [pow_add, Nat.mul_assoc]

theorem UnboundedCoder.narrows_decide {u : UnboundedCoder} {bit : Bool} {p : Nat}
    (hr : 2 ≤ u.range) (hp : p ≤ 255) : u.Narrows (u.decide (bit, p)) := by
  have hpart := addedToLow_add_intervalAfter_le hr hp bit
  rw [decide_eq_closed hr hp]
  refine ⟨_, rfl, Nat.mul_le_mul_right _ (Nat.le_add_right _ _), ?_⟩
  rw [← Nat.add_mul]
  exact Nat.mul_le_mul_right _ (by omega)

theorem UnboundedCoder.narrows_foldl : ∀ {ds : List (Bool × Nat)} {u : UnboundedCoder},
    128 ≤ u.range → (∀ d ∈ ds, d.2 ≤ 255) → u.Narrows (ds.foldl decide u) := by
  intro ds
  induction ds with
  | nil => exact fun {u} _ _ => ⟨0, rfl, by simp, by simp⟩
  | cons d ds ih =>
    intro u hr hp
    obtain ⟨hd, hds⟩ := List.forall_mem_cons.1 hp
    have hr2 : 2 ≤ u.range := by omega
    exact (narrows_decide hr2 hd).trans (ih (le_range_decide hr2 hd) hds)

/-! ### The bytes already emitted (R57, R120) -/

/-- The first bytes of a stream are the upper digits of its number. -/
theorem streamNumber_add_div (m : Memory) (n i : Nat) :
    streamNumber m (n + i) / 256 ^ i = streamNumber m n := by
  induction i with
  | zero => exact Nat.div_one _
  | succ i ih =>
    have hlast : streamNumber m (n + i + 1) / 256 = streamNumber m (n + i) := by
      have hbyte := (m.read (n + i)).isLt
      rw [streamNumber]
      omega
    rw [pow_succ', ← Nat.div_div_eq_div_mul, ← Nat.add_assoc, hlast, ih]

/-- Emitted bytes are the upper bits of the accumulator. -/
theorem streamNumber_eq_lowFull_div {e : EncContext} (hlow : e.low.toNat < 2 ^ (8 + e.cnt.toNat))
    {n : Nat} (hn : n ≤ e.len) :
    streamNumber e.buf n = e.lowFull / 2 ^ (8 + e.shifts - 8 * n) := by
  obtain ⟨i, hi⟩ := Nat.exists_eq_add_of_le hn
  have hexp : 8 + e.shifts - 8 * n = 8 + e.cnt.toNat + 8 * i := by
    rw [EncContext.shifts]
    omega
  have hwhole : e.lowFull / 2 ^ (8 + e.cnt.toNat) = streamNumber e.buf e.len := by
    rw [EncContext.lowFull, Nat.mul_comm, Nat.mul_add_div (Nat.two_pow_pos _),
      Nat.div_eq_of_lt hlow, Nat.add_zero]
  rw [hexp, pow_add, ← Nat.div_div_eq_div_mul, hwhole, hi, pow_mul]
  exact (streamNumber_add_div e.buf n i).symm

/-- An interval of at most 255 units reaches into one more multiple of a larger power of two. -/
theorem div_eq_or_succ {low low' range k w : Nat} (hlow : low * 2 ^ k ≤ low')
    (hhigh : low' < (low + range) * 2 ^ k) (hrange : range ≤ 2 ^ w) :
    low' / 2 ^ (w + k) = low / 2 ^ w ∨ low' / 2 ^ (w + k) = low / 2 ^ w + 1 := by
  have hscaled : low' / 2 ^ (w + k) = low' / 2 ^ k / 2 ^ w := by
    rw [Nat.add_comm, pow_add, Nat.div_div_eq_div_mul]
  have hge : low ≤ low' / 2 ^ k := (Nat.le_div_iff_mul_le (Nat.two_pow_pos k)).2 hlow
  have hlt : low' / 2 ^ k < low + range := (Nat.div_lt_iff_lt_mul (Nat.two_pow_pos k)).2 hhigh
  have hfrom : low / 2 ^ w ≤ low' / 2 ^ k / 2 ^ w := Nat.div_le_div_right hge
  have hto : low' / 2 ^ k / 2 ^ w ≤ low / 2 ^ w + 1 := by
    rw [← Nat.add_div_right _ (Nat.two_pow_pos w)]
    exact Nat.div_le_div_right (by omega)
  omega

/-- The number in the first `n` bytes is as it was, or one higher. -/
def Memory.CarriedOnce (n : Nat) (m m' : Memory) : Prop :=
  streamNumber m' n = streamNumber m n ∨ streamNumber m' n = streamNumber m n + 1

/-- R120: whatever is added later, the accumulator stays within the interval, which is shorter than one
unit of the emitted bytes. -/
theorem encodeAll_carries_once {cap : Nat} {ds : List (Bool × Nat)} {e e' : EncContext}
    (hinv : e.Inv cap) (hactive : e.phase = .active) (hp : ∀ d ∈ ds, d.2 ≤ 255)
    (h : encodeAll cap ds e = .ok e') : e.buf.CarriedOnce e.len e'.buf := by
  have ⟨hr, hlow, _, _, _⟩ := hinv
  have hholds := encodeAll_holds (hinv.holds hactive) hr hp
  rw [h] at hholds
  cases hholds with
  | holds h' =>
    obtain ⟨k, hshifts, hfrom, hto⟩ := UnboundedCoder.narrows_foldl (u := e.unbounded) hr hp
    have hr' := UnboundedCoder.le_range_foldl (u := e.unbounded) hr hp
    rw [← h'.low_eq, ← h'.range_eq] at hto
    rw [← h'.low_eq] at hfrom
    rw [← h'.range_eq] at hr'
    change e.lowFull * 2 ^ k ≤ e'.lowFull at hfrom
    change e'.lowFull + e'.range.toNat ≤ (e.lowFull + e.range.toNat) * 2 ^ k at hto
    have hshifts' : e'.shifts = e.shifts + k := h'.shifts_eq.trans hshifts
    have hwidth : 8 + e.shifts - 8 * e.len = 8 + e.cnt.toNat := by
      rw [EncContext.shifts]
      omega
    have hwidth' : 8 + e'.shifts - 8 * e.len = 8 + e.cnt.toNat + k := by omega
    unfold Memory.CarriedOnce
    rw [streamNumber_eq_lowFull_div h'.low_lt (encodeAll_frame h).len_le,
      streamNumber_eq_lowFull_div hlow le_rfl, hwidth, hwidth']
    refine div_eq_or_succ hfrom (by omega) (range := e.range.toNat) ?_
    exact e.range.isLt.le.trans (le_two_pow_working e.cnt)

/-- R119: the flush appends, so it leaves the emitted bytes alone. -/
theorem encFlush_keeps_emitted {cap : Nat} {e e' : EncContext} (h : encFlush cap e = .ok e') :
    e.len ≤ e'.len ∧ streamNumber e'.buf e.len = streamNumber e.buf e.len := by
  obtain ⟨-, -, rfl⟩ | ⟨-, -, -, rfl⟩ := encFlush_cases h
  · exact ⟨Nat.le_add_right _ _, streamNumber_congr fun a ha => Memory.read_write_ne _ ha.ne⟩
  · refine ⟨Nat.le_add_right _ _, streamNumber_congr fun a ha => ?_⟩
    rw [Memory.read_write_ne _ (by omega), Memory.read_write_ne _ ha.ne]

/-- R120 after the flush, which keeps the registers. -/
theorem EncContext.Inv.flushed {cap : Nat} {e e' : EncContext} (hinv : e.Inv cap)
    (h : encFlush cap e = .ok e') : e'.Inv cap := by
  obtain ⟨hr, hlow, -, -, hbuf⟩ := hinv
  obtain ⟨-, hroom, rfl⟩ | ⟨-, hroom, -, rfl⟩ := encFlush_cases h
  · exact ⟨hr, hlow, nofun, hroom, Memory.write_ok hbuf hroom _⟩
  · exact ⟨hr, hlow, nofun, hroom,
      Memory.write_ok (Memory.write_ok hbuf (Nat.lt_of_succ_lt hroom) _) hroom _⟩

/-! ### What a command can do to the encoder -/

/-- Every way in which a command other than ENC.INIT and RESET leaves the encoder. -/
inductive EncMoved (s : State) (e' : EncContext) : Prop where
  | same (h : e' = s.enc)
  | decided (ds : List (Bool × Nat)) (hp : ∀ d ∈ ds, d.2 ≤ 255) (hactive : s.enc.phase = .active)
      (h : encodeAll s.cap ds s.enc = .ok e')
  | flushed (hactive : s.enc.phase = .active) (h : encFlush s.cap s.enc = .ok e')

/-- A command that makes decisions, after its checks. -/
theorem complete_decisions_moved {s t : State} {check : Except Stop Unit} {ds : List (Bool × Nat)}
    (hp : check = .ok () → ∀ d ∈ ds, d.2 ≤ 255)
    (h : complete s (do
      check
      checkActive s.enc
      let e ← encodeAll s.cap ds s.enc
      .ok (s.setEnc e, 0)) = .next t) : EncMoved s t.enc := by
  obtain ⟨s', v, hok, rfl⟩ | ⟨e, -, rfl⟩ := complete_eq_next.1 h
  · obtain ⟨_, hcheck, hok⟩ := bind_eq_ok.1 hok
    obtain ⟨_, hactive, hok⟩ := bind_eq_ok.1 hok
    obtain ⟨e, he, hok⟩ := bind_eq_ok.1 hok
    obtain ⟨rfl, rfl⟩ := Prod.mk.inj (Except.ok.inj hok)
    exact .decided ds (hp hcheck) (checkActive_eq_ok.1 hactive) he
  · exact .same rfl

theorem exec_encBool_eq (s : State) (b : Bool) (p : Int) :
    exec (.encBool b p) s = complete s (do
      checkProbability p
      checkActive s.enc
      let e ← encodeAll s.cap [(b, p.toNat)] s.enc
      .ok (s.setEnc e, 0)) := by
  have hone : encodeAll s.cap [(b, p.toNat)] s.enc = encodeBool s.cap b p.toNat s.enc := by
    unfold encodeAll
    exact bind_pure _
  rw [hone]
  rfl

theorem exec_litPutu_eq (s : State) (n : Int) (v : Nat) :
    exec (.litPutu n v) s = complete s (do
      checkNumBits n
      checkActive s.enc
      let e ← encodeAll s.cap (bitDecisions v n.toNat) s.enc
      .ok (s.setEnc e, 0)) := by
  rw [← putBits_eq_encodeAll]
  rfl

theorem exec_litPuts_eq (s : State) (n v : Int) :
    exec (.litPuts n v) s = complete s (do
      checkNumBits n
      checkActive s.enc
      let e ← encodeAll s.cap ((decide (v < 0), 128) :: bitDecisions v.natAbs (n.toNat - 1)) s.enc
      .ok (s.setEnc e, 0)) := by
  rw [← signed_eq_encodeAll]
  simp only [exec, execLitPuts, bind_assoc]

theorem exec_encFinish_moved {s t : State} (h : exec .encFinish s = .next t) :
    EncMoved s t.enc := by
  cases hphase : s.enc.phase with
  | finished =>
    rw [exec_encFinish_of_finished hphase] at h
    obtain rfl := Host.Outcome.next.inj h
    exact .same rfl
  | active =>
    rw [exec_encFinish_of_active hphase] at h
    obtain ⟨s', v, hok, rfl⟩ | ⟨e, -, rfl⟩ := complete_eq_next.1 h
    · obtain ⟨e, he, hok⟩ := bind_eq_ok.1 hok
      obtain ⟨rfl, rfl⟩ := Prod.mk.inj (Except.ok.inj hok)
      exact .flushed hphase he
    · exact .same rfl

theorem exec_encRdb_moved {s t : State} {idx : Nat} (h : exec (.encRdb idx) s = .next t) :
    EncMoved s t.enc := by
  obtain ⟨s', v, hok, rfl⟩ | ⟨e, -, rfl⟩ := complete_eq_next.1 h
  · split at hok
    · cases hok
    · obtain ⟨byte, -, hok⟩ := bind_eq_ok.1 hok
      obtain ⟨rfl, rfl⟩ := Prod.mk.inj (Except.ok.inj hok)
      exact .same rfl
  · exact .same rfl

theorem exec_encMoved {i : Instr} {s t : State} (h : exec i s = .next t) (hinit : i ≠ .encInit)
    (hreset : i ≠ .reset) : EncMoved s t.enc := by
  cases i with
  | encInit => exact absurd rfl hinit
  | reset => exact absurd rfl hreset
  | encBool b p =>
    rw [exec_encBool_eq] at h
    refine complete_decisions_moved (fun hcheck => ?_) h
    obtain ⟨h0, h255⟩ := checkProbability_eq_ok.1 hcheck
    exact List.forall_mem_singleton.2 (by simp only; omega)
  | encFinish => exact exec_encFinish_moved h
  | encLen =>
    obtain rfl := Host.Outcome.next.inj ((exec_encLen s).symm.trans h)
    exact .same rfl
  | encRdb idx => exact exec_encRdb_moved h
  | litPutu n v =>
    rw [exec_litPutu_eq] at h
    exact complete_decisions_moved (fun _ => bitDecisions_probability v _) h
  | litPuts n v =>
    rw [exec_litPuts_eq] at h
    exact complete_decisions_moved (fun _ => signed_probability _ _ _) h
  | decLdenc =>
    obtain ⟨m, -, rfl⟩ := exec_decLdenc_cases h
    exact .same rfl
  | decClr | decWrb | decInit | decBool | litGetu | litGets =>
    obtain ⟨d, st, rw, rfl, -⟩ := (decLocal_of_row (by simp [Instr.mnemonic])).frame h
    exact .same rfl
  | blkWr | blkRd | scrRd | xfmWht | xfmIwht | xfmDct | xfmIdct | xfmDct0 =>
    exact .same (block_command_frame (by simp [Instr.mnemonic]) h).1
  | nop | cscRgb2yuv | cscYuv2rgb =>
    obtain ⟨rw, rfl, -⟩ := (stateless_of_row (by simp [Instr.mnemonic])).frame h
    exact .same rfl

/-- Settles O30: decisions and the flush need phase ACTIVE. -/
theorem finishedStreamIsFinal : Obligations.FinishedStreamIsFinal := by
  intro i s t h hfinished hinit hreset
  cases exec_encMoved h hinit hreset with
  | same hsame => exact hsame
  | decided _ _ hactive _ => simp [hfinished] at hactive
  | flushed hactive _ => simp [hfinished] at hactive

/-- Settles O31: of the three ways, only decisions can carry into the emitted bytes. -/
theorem emittedBytesChangeByOneCarry : Obligations.EmittedBytesChangeByOneCarry := by
  intro i s t hinv hactive h hinit hreset
  obtain ⟨-, henc, -⟩ := hinv
  cases exec_encMoved h hinit hreset with
  | same hsame =>
    rw [hsame]
    exact ⟨le_rfl, .inl rfl⟩
  | decided ds hp _ hds =>
    exact ⟨(encodeAll_frame hds).len_le, encodeAll_carries_once henc hactive hp hds⟩
  | flushed _ hflush =>
    obtain ⟨hlen, hsame⟩ := encFlush_keeps_emitted hflush
    exact ⟨hlen, .inl hsame⟩

end Sys2Proof.Machine

/-! The decoder between commands (R140): a decision keeps the first and the second sentence of R140,
and the bits of a literal are a list of decisions (R153). -/

namespace Sys2Proof.Machine

/-! ### What the shifts of a decision keep (R138) -/

/-- What one shift of a small interval keeps, all the shifts of the loop keep. -/
theorem DecContext.shifted_induction {P : DecContext → Prop}
    (hstep : ∀ d, P d → d.range.toNat < 128 → P (d.shifted 1)) : ∀ {n : Nat} {d : DecContext},
    1 ≤ d.range.toNat → doublings d.range.toNat ≤ n → P d →
    P (d.shifted (doublings d.range.toNat)) := by
  intro n
  induction n with
  | zero =>
    intro d _ hn h
    rwa [Nat.le_zero.mp hn, shifted_zero]
  | succ n ih =>
    intro d hpos hn h
    by_cases hlt : d.range.toNat < 128
    · have hk := doublings_of_lt hpos hlt
      have hrange := range_shifted_one hlt
      have hrest := ih (by omega) (by rw [hrange]; omega) (hstep d h hlt)
      rwa [hrange, shifted_shifted d (by unfold doublings; omega), ← hk] at hrest
    · rwa [doublings_of_ge (by omega), shifted_zero]

theorem DecContext.decided_induction {P : DecContext → Prop} {d : DecContext} {p : Nat}
    (hr : 2 ≤ d.range.toNat) (hp : p ≤ 255) (hselect : P (d.select p))
    (hstep : ∀ d, P d → d.range.toNat < 128 → P (d.shifted 1)) : P (d.decided p) := by
  have hpos := (intervalAfter_bounds hr hp (d.nextBit p)).1
  have hrange := select_range hr hp
  have hshifted := shifted_induction hstep (hrange ▸ hpos) (Nat.sub_le _ _) hselect
  rwa [hrange] at hshifted

section Decision

variable {cap p : Nat} {d : DecContext}

theorem DecContext.Inv.two_le_range (h : d.Inv cap) : 2 ≤ d.range.toNat :=
  le_trans (by omega) h.1

/-- R140, first sentence, through a decision. -/
theorem DecContext.Inv.decided (h : d.Inv cap) (hp : p ≤ 255) : (d.decided p).Inv cap := by
  have ⟨_, _, _, _, hbuf⟩ := h
  have hr := h.two_le_range
  have haligned : (d.decided p).Aligned cap := decided_induction (P := Aligned cap) hr hp
    (h.aligned.select p) fun _ h _ => h.shifted_one
  exact ⟨le_decided_range hr hp, haligned.value_mod, haligned.pos_le, haligned.len_le, hbuf⟩

theorem DecContext.Inv.decodeBool_eq (h : d.Inv cap) (hp : p ≤ 255) :
    decodeBool cap p d = .ok (d.nextBit p, d.decided p) :=
  decodeBool_eq_decided h.aligned h.two_le_range hp

/-- The window lies in the interval (R140, second sentence). -/
def DecContext.InWindow (d : DecContext) : Prop := d.value.toNat < d.range.toNat * 256

/-- The part selected holds the window that decided for it (R137). -/
theorem DecContext.InWindow.select (h : d.InWindow) (hr : 2 ≤ d.range.toNat) (hp : p ≤ 255) :
    (d.select p).InWindow := by
  have hsplit := splitAt_bounds hr hp
  unfold InWindow at h ⊢
  rw [select_value, select_range hr hp, intervalAfter_eq, addedToLow_eq]
  cases hbit : d.nextBit p with
  | false =>
    have hlt : ¬splitAt d.range.toNat p * 256 ≤ d.value.toNat := of_decide_eq_false hbit
    rw [if_neg Bool.false_ne_true, if_neg Bool.false_ne_true, Nat.zero_mul, Nat.sub_zero]
    exact Nat.lt_of_not_le hlt
  | true =>
    rw [if_pos rfl, if_pos rfl]
    omega

/-- Doubling keeps the window inside: the bits that a fetch fills were zero (R138). -/
theorem DecContext.InWindow.shifted_one (haligned : d.Aligned cap) (h : d.InWindow)
    (hr : d.range.toNat < 128) : (d.shifted 1).InWindow := by
  unfold InWindow at h ⊢
  rw [range_shifted_one hr]
  by_cases h7 : d.bc = 7
  · have hmod := haligned.value_mod
    rw [h7, show 2 ^ (7 : BitVec 3).toNat = 128 from rfl] at hmod
    have hbyte := (d.byteAt d.pos).isLt
    rw [shifted_one_of_eq h7]
    simp only [BitVec.toNat_ofNat]
    omega
  · rw [shifted_one_of_ne h7]
    simp only [BitVec.toNat_ofNat]
    omega

theorem DecContext.InWindow.decided (hinv : d.Inv cap) (h : d.InWindow) (hp : p ≤ 255) :
    (d.decided p).InWindow := by
  have hr := hinv.two_le_range
  exact (decided_induction (P := fun d => d.Aligned cap ∧ d.InWindow) hr hp
    ⟨hinv.aligned.select p, h.select hr hp⟩
    fun _ h hlt => ⟨h.1.shifted_one, h.2.shifted_one h.1 hlt⟩).2

/-- R134: a window whose high byte is not 0xFF lies in an interval of 255 units. -/
theorem DecContext.started_windowInv (d : DecContext) : d.started.WindowInv := by
  intro _ hfirst
  have hlow := (d.byteAt 1).isLt
  have hhigh : (d.byteAt 0).toNat < 255 := by
    rcases Nat.eq_zero_or_pos d.len with hempty | hlen
    · rw [byteAt_of_ge (by omega)]
      decide
    · have hne : d.buf.read 0 ≠ 0xFF := hfirst.resolve_right hlen.ne'
      have hne' : (d.buf.read 0).toNat ≠ 255 := fun h => hne (BitVec.eq_of_toNat_eq h)
      have hlt := (d.buf.read 0).isLt
      rw [byteAt_of_lt hlen]
      omega
  rw [started_value]
  change _ < 255 * 256
  omega

end Decision

/-! ### Several decisions in a row (R153) -/

/-- The number that the next `n` decisions at probability 128 make, most significant bit first. -/
def DecContext.bitsRead : Nat → DecContext → Nat
  | 0, _ => 0
  | n + 1, d => (d.nextBit 128).toNat * 2 ^ n + bitsRead n (d.decided 128)

/-- The context after `n` decisions at probability 128. -/
def DecContext.afterBits (n : Nat) (d : DecContext) : DecContext :=
  (List.replicate n 128).foldl decided d

theorem DecContext.bitsRead_lt : ∀ (n : Nat) (d : DecContext), d.bitsRead n < 2 ^ n := by
  intro n
  induction n with
  | zero => exact fun _ => Nat.one_pos
  | succ n ih =>
    intro d
    have hrest := ih (d.decided 128)
    have hbit := Bool.toNat_le (d.nextBit 128)
    have hscaled : (d.nextBit 128).toNat * 2 ^ n ≤ 1 * 2 ^ n := Nat.mul_le_mul_right _ hbit
    rw [bitsRead, pow_succ]
    omega

theorem getBits_eq_bitsRead {cap : Nat} : ∀ {n acc : Nat} {d : DecContext}, d.Inv cap →
    getBits cap n acc d = .ok (acc * 2 ^ n + d.bitsRead n, d.afterBits n) := by
  intro n
  induction n with
  | zero =>
    intro acc d _
    simp [getBits, DecContext.bitsRead, DecContext.afterBits]
  | succ n ih =>
    intro acc d h
    have hnumber : (acc * 2 + (d.nextBit 128).toNat) * 2 ^ n + (d.decided 128).bitsRead n =
        acc * 2 ^ (n + 1) + d.bitsRead (n + 1) := by
      rw [DecContext.bitsRead]
      ring
    rw [getBits, h.decodeBool_eq (by omega), ok_bind]
    simp only
    rw [ih (h.decided (by omega)), hnumber]
    rfl

theorem replicate_probability (n : Nat) : ∀ p ∈ List.replicate n 128, p ≤ 255 :=
  fun _ hp => (List.eq_of_mem_replicate hp).trans_le (by omega)

/-- What every legal decision keeps, a list of them keeps. -/
theorem DecContext.foldl_decided_induction {P : DecContext → Prop}
    (hstep : ∀ d p, p ≤ 255 → P d → P (d.decided p)) : ∀ {ps : List Nat} {d : DecContext},
    (∀ p ∈ ps, p ≤ 255) → P d → P (ps.foldl decided d) := by
  intro ps
  induction ps with
  | nil => exact fun _ h => h
  | cons p ps ih =>
    intro d hp h
    obtain ⟨hp0, hps⟩ := List.forall_mem_cons.1 hp
    exact ih hps (hstep d p hp0 h)

theorem DecContext.Inv.afterBits {cap : Nat} {d : DecContext} (h : d.Inv cap) (n : Nat) :
    (d.afterBits n).Inv cap :=
  foldl_decided_induction (P := DecContext.Inv cap) (fun _ _ hp h => h.decided hp)
    (replicate_probability n) h

theorem DecContext.WindowInv.decided_all {cap : Nat} {ps : List Nat} {d : DecContext}
    (hinv : d.Inv cap) (hphase : d.phase = .decoding) (h : d.WindowInv) (hp : ∀ p ∈ ps, p ≤ 255) :
    (ps.foldl decided d).WindowInv := by
  refine (foldl_decided_induction (P := fun d => d.Inv cap ∧ d.phase = .decoding ∧ d.WindowInv)
    (fun d p hp h => ?_) hp ⟨hinv, hphase, h⟩).2.2
  obtain ⟨hinv, hphase, hwindow⟩ := h
  exact ⟨hinv.decided hp, hphase, fun _ hfirst =>
    InWindow.decided hinv (hwindow hphase hfirst) hp⟩

/-! ### The decoder's commands in a state that meets the invariant -/

section Commands

variable {s : State}

theorem exec_litGetu_eq (h : s.dec.Inv s.cap) (n : Int) :
    exec (.litGetu n) s = complete s (do
      checkNumBits n
      checkDecoding s.dec
      .ok (s.setDec (s.dec.afterBits n.toNat), (s.dec.bitsRead n.toNat : Int))) := by
  simp only [exec, execLitGetu, getBits_eq_bitsRead h, ok_bind, Nat.zero_mul, Nat.zero_add]

/-- R154: the first decision is the sign. -/
theorem exec_litGets_eq (h : s.dec.Inv s.cap) (n : Int) :
    exec (.litGets n) s = complete s (do
      checkNumBits n
      checkDecoding s.dec
      .ok (s.setDec (s.dec.afterBits (n.toNat - 1 + 1)),
        if s.dec.nextBit 128 then -((s.dec.decided 128).bitsRead (n.toNat - 1) : Int)
        else (s.dec.decided 128).bitsRead (n.toNat - 1))) := by
  have hsign := h.decodeBool_eq (p := 128) (by omega)
  have hbits := getBits_eq_bitsRead (n := n.toNat - 1) (acc := 0) (h.decided (p := 128) (by omega))
  rw [Nat.zero_mul, Nat.zero_add] at hbits
  simp only [exec, execLitGets, hsign, hbits, ok_bind]
  rfl

end Commands

end Sys2Proof.Machine

/-! Every command ends in a next state, and keeps the invariants (R16, R120, R140, R251). -/

namespace Sys2Proof.Machine

/-- The computation ends with a result that meets `P`, or with an error response; never with a
fault. -/
inductive Ends {α : Type} (P : α → Prop) : Except Stop α → Prop where
  | ok {a : α} (h : P a) : Ends P (.ok a)
  | raise (e : Err) : Ends P (.error (.raise e))

namespace Ends

variable {α β : Type} {P : α → Prop} {Q : β → Prop}

theorem bind {x : Except Stop α} {f : α → Except Stop β} (hx : Ends P x)
    (hf : ∀ a, P a → Ends Q (f a)) : Ends Q (x >>= f) := by
  cases hx with
  | ok h => exact hf _ h
  | raise e => exact .raise e

end Ends

/-! ### The checks and the encoder's helpers -/

theorem checkProbability_ends (p : Int) :
    Ends (fun _ => 0 ≤ p ∧ p ≤ 255) (checkProbability p) := by
  unfold checkProbability
  split
  · exact .raise _
  · exact .ok (by omega)

theorem checkNumBits_ends (n : Int) : Ends (fun _ => True) (checkNumBits n) := by
  unfold checkNumBits
  split
  · exact .raise _
  · exact .ok trivial

theorem checkElement_ends (n : Int) : Ends (fun _ => True) (checkElement n) := by
  unfold checkElement
  split
  · exact .raise _
  · exact .ok trivial

theorem checkActive_ends (e : EncContext) : Ends (fun _ => e.phase = .active) (checkActive e) := by
  unfold checkActive
  split
  · exact .ok ‹_›
  · exact .raise _

theorem checkDecoding_ends (d : DecContext) :
    Ends (fun _ => d.phase = .decoding) (checkDecoding d) := by
  unfold checkDecoding
  split
  · exact .raise _
  · exact .ok ‹_›

theorem encodeAll_ends {cap : Nat} {e : EncContext} {ds : List (Bool × Nat)} (hinv : e.Inv cap)
    (hactive : e.phase = .active) (hp : ∀ d ∈ ds, d.2 ≤ 255) :
    Ends (EncContext.Inv cap) (encodeAll cap ds e) := by
  have hholds := encodeAll_holds (hinv.holds hactive) hinv.1 hp
  have hr := UnboundedCoder.le_range_foldl (u := e.unbounded) hinv.1 hp
  generalize encodeAll cap ds e = result at hholds ⊢
  cases hholds with
  | holds h => exact .ok (h.inv hr)
  | overflows _ => exact .raise _

theorem encFlush_ends {cap : Nat} {e : EncContext} (hinv : e.Inv cap) :
    Ends (EncContext.Inv cap) (encFlush cap e) := by
  have ⟨_, hlow, _, _, hwf, _⟩ := hinv
  rcases Nat.lt_or_ge cap (e.len + e.flushCount) with hfull | hfits
  · rw [encFlush_of_full hfull]
    exact .raise _
  · obtain ⟨buf, hflush, -⟩ := encFlush_of_fits hlow hwf hfits
    have hflushed := hinv.flushed hflush
    rw [hflush]
    exact .ok hflushed

/-! ### The parts of the state -/

section Parts

variable {s : State}

theorem State.Inv.enc (h : s.Inv) : s.enc.Inv s.cap := h.2.1

theorem State.Inv.dec (h : s.Inv) : s.dec.Inv s.cap := h.2.2

theorem State.Inv.setEnc (h : s.Inv) {e : EncContext} (he : e.Inv s.cap) : (s.setEnc e).Inv :=
  ⟨h.1, he, h.2.2⟩

theorem State.Inv.setDec (h : s.Inv) {d : DecContext} (hd : d.Inv s.cap) : (s.setDec d).Inv :=
  ⟨h.1, h.2.1, hd⟩

theorem State.Inv.respond (h : s.Inv) (st : Status) (rw : ResultWord) : (s.respond st rw).Inv := h

theorem State.Inv.twoPass (h : s.Inv) (f1 f2 : Quad Int → Quad Int) (q : Int → Int) :
    (twoPass f1 f2 q s).Inv := h

theorem State.Inv.setPort (h : s.Inv) (events : List PortEvent) : (s.setPort events).Inv := h

theorem EncContext.Inv.fresh {cap : Nat} {e : EncContext} (h : e.Inv cap) : e.fresh.Inv cap := by
  obtain ⟨-, -, -, -, hbuf⟩ := h
  exact fresh_inv hbuf

theorem DecContext.Inv.loaded {cap len : Nat} {d : DecContext} (h : d.Inv cap) (hlen : len ≤ cap) :
    (d.loaded len).Inv cap := by
  obtain ⟨-, -, -, -, hbuf⟩ := h
  exact loaded_inv hlen hbuf

theorem DecContext.Inv.append {cap : Nat} {d : DecContext} (h : d.Inv cap) (hlen : d.len < cap)
    (byte : Byte) : (d.append byte).Inv cap := by
  obtain ⟨hr, hmod, hpos, -, hbuf⟩ := h
  exact ⟨hr, hmod, Nat.le_succ_of_le hpos, hlen, Memory.write_ok hbuf hlen byte⟩

theorem DecContext.Inv.started {cap : Nat} {d : DecContext} (h : d.Inv cap) :
    d.started.Inv cap := by
  obtain ⟨-, -, -, hlen, hbuf⟩ := h
  exact ⟨(by decide : 128 ≤ (255 : BitVec 8).toNat), Nat.mod_one _, Nat.min_le_right _ _, hlen, hbuf⟩

theorem State.Inv.restart (h : s.Inv) : s.restart.Inv :=
  ⟨h.1, h.enc.fresh, h.dec.loaded (Nat.zero_le _)⟩

end Parts

/-! ### Commands -/

/-- The outcome is a next state, and that state meets the invariant. -/
def Continues (out : Host.Outcome State Fault Refusal) : Prop := ∃ t, out = .next t ∧ t.Inv

theorem complete_continues {s : State} (hs : s.Inv) {r : Except Stop (State × Int)}
    (h : Ends (fun x => State.Inv x.1) r) : Continues (complete s r) := by
  cases h with
  | @ok x h => exact ⟨x.1.respond .ok (u32 x.2), rfl, h.respond _ _⟩
  | raise e => exact ⟨_, rfl, hs.respond _ _⟩

/-- A command that always succeeds. -/
theorem complete_ok_continues (s : State) {s' : State} (hs' : s'.Inv) (v : Int) :
    Continues (complete s (.ok (s', v))) := ⟨_, rfl, hs'.respond _ _⟩

section Commands

variable {s : State}

theorem exec_encFinish_continues (h : s.Inv) : Continues (exec .encFinish s) := by
  cases hphase : s.enc.phase with
  | finished =>
    rw [exec_encFinish_of_finished hphase]
    exact ⟨_, rfl, h.respond _ _⟩
  | active =>
    rw [exec_encFinish_of_active hphase]
    exact complete_continues h ((encFlush_ends h.enc).bind fun e he => .ok (h.setEnc he))

theorem exec_encRdb_continues (h : s.Inv) (idx : Nat) : Continues (exec (.encRdb idx) s) := by
  have ⟨_, _, _, hcap, _⟩ := h.enc
  rcases Nat.lt_or_ge idx s.enc.len with hlt | hge
  · rw [exec_encRdb_of_lt hlt hcap]
    exact ⟨_, rfl, h.respond _ _⟩
  · rw [exec_encRdb_of_ge hge]
    exact ⟨_, rfl, h.respond _ _⟩

theorem exec_decWrb_continues (h : s.Inv) (byte : Byte) : Continues (exec (.decWrb byte) s) := by
  have ⟨_, _, _, hlen, _⟩ := h.dec
  cases hphase : s.dec.phase with
  | decoding =>
    rw [exec_decWrb_of_decoding hphase]
    exact ⟨_, rfl, h.respond _ _⟩
  | loading =>
    rcases hlen.eq_or_lt with hfull | hroom
    · rw [exec_decWrb_of_full hphase hfull]
      exact ⟨_, rfl, h.respond _ _⟩
    · rw [exec_decWrb_of_room hphase hroom]
      exact ⟨_, rfl, (h.setDec (h.dec.append hroom byte)).respond _ _⟩

theorem exec_decInit_continues (h : s.Inv) : Continues (exec .decInit s) := by
  have ⟨_, _, _, hlen, _⟩ := h.dec
  rw [exec_decInit hlen]
  exact ⟨_, rfl, (h.setDec h.dec.started).respond _ _⟩

theorem exec_decLdenc_continues (h : s.Inv) : Continues (exec .decLdenc s) := by
  have ⟨_, _, _, hlen, _⟩ := h.enc
  have ⟨_, _, _, _, hbuf⟩ := h.dec
  obtain ⟨m, hcopy, hok, -⟩ := copyBytes_spec s.enc.buf hbuf hlen
  rw [exec_decLdenc hcopy]
  exact ⟨_, rfl, (h.setDec (DecContext.loaded_inv hlen hok)).respond _ _⟩

/-- R15, R16: every command answers, and its answer meets the invariant. -/
theorem exec_continues (i : Instr) (h : s.Inv) : Continues (exec i s) := by
  cases i with
  | nop => exact complete_ok_continues s h 0
  | reset => exact complete_ok_continues s h.restart 0
  | encInit => exact complete_ok_continues s (h.setEnc h.enc.fresh) 0
  | encBool b p =>
    rw [exec_encBool_eq]
    refine complete_continues h <| (checkProbability_ends p).bind fun _ hp =>
      (checkActive_ends s.enc).bind fun _ hactive => (encodeAll_ends h.enc hactive ?_).bind
        fun e he => .ok (h.setEnc he)
    exact List.forall_mem_singleton.2 (by simp only; omega)
  | encFinish => exact exec_encFinish_continues h
  | encLen => exact complete_ok_continues s h _
  | encRdb idx => exact exec_encRdb_continues h idx
  | decClr => exact complete_ok_continues s (h.setDec (h.dec.loaded (Nat.zero_le _))) 0
  | decWrb byte => exact exec_decWrb_continues h byte
  | decInit => exact exec_decInit_continues h
  | decBool p =>
    refine complete_continues h <| (checkProbability_ends p).bind fun _ hp =>
      (checkDecoding_ends s.dec).bind fun _ _ => ?_
    have hp255 : p.toNat ≤ 255 := by omega
    rw [h.dec.decodeBool_eq hp255, ok_bind]
    exact .ok (h.setDec (h.dec.decided hp255))
  | decLdenc => exact exec_decLdenc_continues h
  | litPutu n v =>
    rw [exec_litPutu_eq]
    exact complete_continues h <| (checkNumBits_ends n).bind fun _ _ =>
      (checkActive_ends s.enc).bind fun _ hactive =>
        (encodeAll_ends h.enc hactive (bitDecisions_probability v _)).bind
          fun e he => .ok (h.setEnc he)
  | litPuts n v =>
    rw [exec_litPuts_eq]
    exact complete_continues h <| (checkNumBits_ends n).bind fun _ _ =>
      (checkActive_ends s.enc).bind fun _ hactive =>
        (encodeAll_ends h.enc hactive (signed_probability _ _ _)).bind fun e he => .ok (h.setEnc he)
  | litGetu n =>
    rw [exec_litGetu_eq h.dec]
    exact complete_continues h <| (checkNumBits_ends n).bind fun _ _ =>
      (checkDecoding_ends s.dec).bind fun _ _ => .ok (h.setDec (h.dec.afterBits _))
  | litGets n =>
    rw [exec_litGets_eq h.dec]
    exact complete_continues h <| (checkNumBits_ends n).bind fun _ _ =>
      (checkDecoding_ends s.dec).bind fun _ _ => .ok (h.setDec (h.dec.afterBits _))
  | blkWr n v => exact complete_continues h <| (checkElement_ends n).bind fun _ _ => .ok h
  | blkRd n => exact complete_continues h <| (checkElement_ends n).bind fun _ _ => .ok h
  | scrRd n => exact complete_continues h <| (checkElement_ends n).bind fun _ _ => .ok h
  | xfmWht => exact complete_ok_continues s (h.twoPass _ _ _) 0
  | xfmIwht => exact complete_ok_continues s (h.twoPass _ _ _) 0
  | xfmDct => exact complete_ok_continues s (h.twoPass _ _ _) 0
  | xfmIdct => exact complete_ok_continues s (h.twoPass _ _ _) 0
  | xfmDct0 => exact complete_ok_continues s h _
  | cscRgb2yuv rgb => exact complete_ok_continues s h _
  | cscYuv2rgb yuv => exact complete_ok_continues s h _

/-! ### Steps and runs -/

theorem execWord_continues (cw : CommandWord) (h : s.Inv) : Continues (execWord cw s) := by
  unfold execWord
  cases decode cw with
  | ok i => exact exec_continues i h
  | error r => exact ⟨_, rfl, h.respond _ _⟩

theorem step_continues (h : s.Inv) : Continues (step s) := by
  match hport : s.port with
  | [] =>
    rw [step_of_idle hport]
    exact ⟨s, rfl, h⟩
  | .command cw :: rest =>
    rw [step_of_command hport]
    exact execWord_continues cw (h.setPort rest)
  | .reset _ :: rest =>
    rw [step_of_reset hport]
    exact ⟨_, rfl, (h.setPort rest).restart⟩

end Commands

/-- Settles O13: the next state of a step is the one it continues in. -/
theorem stepKeepsInvariant : Obligations.StepKeepsInvariant := by
  intro s t hinv hstep
  obtain ⟨t', hnext, hinv'⟩ := step_continues hinv
  obtain rfl := Host.Outcome.next.inj (hnext.symm.trans hstep)
  exact hinv'

theorem run_succ_of_next {s t : State} (h : step s = .next t) (k : Nat) :
    Host.Core.run core (k + 1) s = Host.Core.run core k t := by
  have hstep : core.step s = .next t := h
  simp only [Host.Core.run, hstep]

/-- Settles O15: the invariant that every step keeps is all that a step needs. -/
theorem noRunStops : Obligations.NoRunStops := by
  intro s hinv k
  induction k generalizing s with
  | zero => exact ⟨s, rfl⟩
  | succ k ih =>
    obtain ⟨t, hstep, hinv'⟩ := step_continues hinv
    rw [run_succ_of_next hstep]
    exact ih t hinv'

theorem execWord_responded {cw : CommandWord} {s t : State} (h : execWord cw s = .next t) :
    s.Responded t := by
  match hdecode : decode cw with
  | .ok i =>
    simp only [execWord, hdecode] at h
    exact exec_responded h
  | .error r =>
    rw [execWord_of_decode_error hdecode] at h
    obtain rfl := Host.Outcome.next.inj h
    exact s.respond_responded _ _

/-- Settles O17: a step takes one word from the port and delivers one response. -/
theorem runAnswersEveryWord : Obligations.RunAnswersEveryWord := by
  intro s cws
  induction cws generalizing s with
  | nil => exact fun _ hport => ⟨s, rfl, hport, [], (List.append_nil _).symm, rfl⟩
  | cons cw cws ih =>
    intro hinv hport
    obtain ⟨t, hstep, hinv'⟩ := step_continues hinv
    have hword : execWord cw (s.setPort (cws.map .command)) = .next t :=
      (step_of_command hport).symm.trans hstep
    obtain ⟨⟨r, hresponse⟩, hrest, -⟩ := execWord_responded hword
    obtain ⟨u, hrun, hempty, rs, hresponses, hlen⟩ := ih t hinv' hrest
    refine ⟨u, (run_succ_of_next hstep _).trans hrun, hempty, r :: rs, ?_, ?_⟩
    · rw [hresponses, hresponse, List.append_assoc]
      rfl
    · rw [List.length_cons, List.length_cons, hlen]

/-! ### The decoder's window (R140, second sentence) -/

/-- Every way in which a command leaves the decoder. -/
inductive DecMoved (s : State) (d : DecContext) : Prop where
  | same (h : d = s.dec)
  | loading (h : d.phase = .loading)
  | started (h : d = s.dec.started)
  | decided (ps : List Nat) (hp : ∀ p ∈ ps, p ≤ 255) (hphase : s.dec.phase = .decoding)
      (h : d = ps.foldl DecContext.decided s.dec)

section Window

variable {s t : State}

/-- A command that reads decisions, after its checks. -/
theorem complete_decoded_moved {check : Except Stop Unit} {ps : List Nat} {v : Int}
    (hp : ∀ p ∈ ps, p ≤ 255)
    (h : complete s (do
      check
      checkDecoding s.dec
      .ok (s.setDec (ps.foldl DecContext.decided s.dec), v)) = .next t) : DecMoved s t.dec := by
  obtain ⟨s', v', hok, rfl⟩ | ⟨e, -, rfl⟩ := complete_eq_next.1 h
  · obtain ⟨_, -, hok⟩ := bind_eq_ok.1 hok
    obtain ⟨_, hphase, hok⟩ := bind_eq_ok.1 hok
    obtain ⟨rfl, -⟩ := Prod.mk.inj (Except.ok.inj hok)
    exact .decided ps hp (checkDecoding_eq_ok.1 hphase) rfl
  · exact .same rfl

theorem exec_decBool_moved (hinv : s.Inv) {p : Int} (h : exec (.decBool p) s = .next t) :
    DecMoved s t.dec := by
  by_cases hp : 0 ≤ p ∧ p ≤ 255
  · have hp255 : p.toNat ≤ 255 := by omega
    refine complete_decoded_moved (check := checkProbability p) (ps := [p.toNat])
      (v := (s.dec.nextBit p.toNat).toNat) (List.forall_mem_singleton.2 hp255) ?_
    rw [← h]
    simp only [exec, execDecBool, hinv.dec.decodeBool_eq hp255, ok_bind]
    rfl
  · have hrefused : exec (.decBool p) s = .next (s.respond (.err .arg) 0) :=
      complete_of_probability_outside s _ (by omega)
    rw [hrefused] at h
    obtain rfl := Host.Outcome.next.inj h
    exact .same rfl

theorem exec_decWrb_moved {byte : Byte} (h : exec (.decWrb byte) s = .next t) :
    DecMoved s t.dec := by
  obtain ⟨s', v, hok, rfl⟩ | ⟨e, -, rfl⟩ := complete_eq_next.1 h
  · obtain ⟨_, hloading, hok⟩ := bind_eq_ok.1 hok
    split at hok
    · cases hok
    · obtain ⟨buf, -, hok⟩ := bind_eq_ok.1 hok
      obtain ⟨rfl, -⟩ := Prod.mk.inj (Except.ok.inj hok)
      exact .loading (checkLoading_eq_ok.1 hloading)
  · exact .same rfl

theorem exec_decMoved (hinv : s.Inv) {i : Instr} (h : exec i s = .next t) : DecMoved s t.dec := by
  cases i with
  | reset =>
    obtain rfl := Host.Outcome.next.inj ((exec_reset s).symm.trans h)
    exact .loading rfl
  | decClr =>
    obtain rfl := Host.Outcome.next.inj ((exec_decClr s).symm.trans h)
    exact .loading rfl
  | decWrb byte => exact exec_decWrb_moved h
  | decInit =>
    have ⟨_, _, _, hlen, _⟩ := hinv.dec
    obtain rfl := Host.Outcome.next.inj ((exec_decInit hlen).symm.trans h)
    exact .started rfl
  | decBool p => exact exec_decBool_moved hinv h
  | decLdenc =>
    obtain ⟨m, -, rfl⟩ := exec_decLdenc_cases h
    exact .loading rfl
  | litGetu n =>
    rw [exec_litGetu_eq hinv.dec] at h
    exact complete_decoded_moved (replicate_probability _) h
  | litGets n =>
    rw [exec_litGets_eq hinv.dec] at h
    exact complete_decoded_moved (replicate_probability _) h
  | encInit | encBool | encFinish | encLen | encRdb | litPutu | litPuts =>
    obtain ⟨e, st, rw, rfl, -⟩ := (encLocal_of_row (by simp [Instr.mnemonic])).frame h
    exact .same rfl
  | blkWr | blkRd | scrRd | xfmWht | xfmIwht | xfmDct | xfmIdct | xfmDct0 =>
    exact .same (block_command_frame (by simp [Instr.mnemonic]) h).2.1
  | nop | cscRgb2yuv | cscYuv2rgb =>
    obtain ⟨rw, rfl, -⟩ := (stateless_of_row (by simp [Instr.mnemonic])).frame h
    exact .same rfl

theorem exec_keeps_window (hinv : s.Inv) (hwindow : s.dec.WindowInv) {i : Instr}
    (h : exec i s = .next t) : t.dec.WindowInv := by
  cases exec_decMoved hinv h with
  | same hsame =>
    rw [hsame]
    exact hwindow
  | loading hphase => exact DecContext.windowInv_of_loading hphase
  | started hstarted =>
    rw [hstarted]
    exact s.dec.started_windowInv
  | decided ps hp hphase hdecided =>
    rw [hdecided]
    exact hwindow.decided_all hinv.dec hphase hp

end Window

/-- Settles O14: DEC.INIT loads a window inside the interval, and decisions keep it there. -/
theorem stepKeepsWindowInvariant : Obligations.StepKeepsWindowInvariant := by
  intro s t hinv hwindow hstep
  match hport : s.port with
  | [] =>
    obtain rfl := Host.Outcome.next.inj ((step_of_idle hport).symm.trans hstep)
    exact hwindow
  | .reset _ :: rest =>
    obtain rfl := Host.Outcome.next.inj ((step_of_reset hport).symm.trans hstep)
    exact DecContext.windowInv_of_loading rfl
  | .command cw :: rest =>
    rw [step_of_command hport] at hstep
    match hdecode : decode cw with
    | .ok i =>
      simp only [execWord, hdecode] at hstep
      exact exec_keeps_window (s := s.setPort rest) hinv hwindow hstep
    | .error r =>
      rw [execWord_of_decode_error hdecode] at hstep
      obtain rfl := Host.Outcome.next.inj hstep
      exact hwindow

end Sys2Proof.Machine

/-! The literal commands as lists of decisions at probability 128 (43_literal_codec.md R150 to
R159). -/

namespace Sys2Proof.Machine

/-! ### How often a literal shifts (R159) -/

theorem intervalAfter_half (range : Nat) (bit : Bool) : intervalAfter range 128 bit =
    if bit then range - (1 + (range - 1) / 2) else 1 + (range - 1) / 2 := by
  have hhalf : (range - 1) * 128 / 256 = (range - 1) / 2 := by omega
  rw [intervalAfter, hhalf]

theorem doublings_of_upper_quarter {r : Nat} (h64 : 64 ≤ r) (h128 : r < 128) : doublings r = 1 := by
  rw [doublings_of_lt (by omega) h128, doublings_of_ge (by omega)]

/-- A decision at probability 128 halves an interval below 255, so it shifts once; the result is even
then, so it is below 255 again. -/
theorem UnboundedCoder.decide_half {u : UnboundedCoder} (h128 : 128 ≤ u.range)
    (h254 : u.range ≤ 254) (bit : Bool) :
    (u.decide (bit, 128)).shifts = u.shifts + 1 ∧ 128 ≤ (u.decide (bit, 128)).range ∧
      (u.decide (bit, 128)).range ≤ 254 := by
  have hhalf := intervalAfter_half u.range bit
  have hbounds : 64 ≤ intervalAfter u.range 128 bit ∧ intervalAfter u.range 128 bit < 128 := by
    rw [hhalf]
    cases bit
    · rw [if_neg Bool.false_ne_true]
      omega
    · rw [if_pos rfl]
      omega
  rw [decide_eq_closed (by omega) (by omega),
    doublings_of_upper_quarter hbounds.1 hbounds.2]
  simp only [pow_one, true_and]
  omega

/-- From the 255 units of a fresh session the larger part needs no shift. -/
theorem UnboundedCoder.decide_fresh {u : UnboundedCoder} (h : u.range = 255) (bit : Bool) :
    (u.decide (bit, 128)).shifts = u.shifts + (if bit then 1 else 0) ∧
      128 ≤ (u.decide (bit, 128)).range ∧ (u.decide (bit, 128)).range ≤ 254 := by
  have hhalf := intervalAfter_half u.range bit
  rw [decide_eq_closed (by omega) (by omega)]
  cases bit with
  | false =>
    have hlarge : intervalAfter u.range 128 false = 128 := by
      rw [hhalf, h]
      rfl
    simp [hlarge, doublings_of_ge]
  | true =>
    have hsmall : intervalAfter u.range 128 true = 127 := by
      rw [hhalf, h]
      rfl
    simp [hsmall, doublings_of_upper_quarter]

/-- The decisions of a list of bits at probability 128. -/
def halfDecisions (bits : List Bool) : List (Bool × Nat) := bits.map fun bit => (bit, 128)

theorem halfDecisions_probability (bits : List Bool) : ∀ d ∈ halfDecisions bits, d.2 ≤ 255 := by
  intro d hd
  obtain ⟨bit, -, rfl⟩ := List.mem_map.1 hd
  exact (by decide : 128 ≤ 255)

theorem UnboundedCoder.shifts_halfDecisions : ∀ {bits : List Bool} {u : UnboundedCoder},
    128 ≤ u.range → u.range ≤ 254 →
    ((halfDecisions bits).foldl decide u).shifts = u.shifts + bits.length := by
  intro bits
  induction bits with
  | nil => exact fun _ _ => rfl
  | cons bit bits ih =>
    intro u h128 h254
    obtain ⟨hshifts, hlow, hhigh⟩ := decide_half h128 h254 bit
    have hrest := ih hlow hhigh
    rw [hshifts] at hrest
    rw [List.length_cons, Nat.add_comm bits.length, ← Nat.add_assoc]
    exact hrest

/-- R159 for the bits of a literal. -/
theorem UnboundedCoder.shifts_literal {u : UnboundedCoder} (h128 : 128 ≤ u.range)
    (h255 : u.range ≤ 255) (first : Bool) (rest : List Bool) :
    ((halfDecisions (first :: rest)).foldl decide u).shifts =
      u.shifts + literalShifts u.range first (rest.length + 1) := by
  change ((halfDecisions rest).foldl decide (u.decide (first, 128))).shifts = _
  rcases h255.eq_or_lt with hfresh | hlt
  · obtain ⟨hshifts, hlow, hhigh⟩ := decide_fresh hfresh first
    rw [shifts_halfDecisions hlow hhigh, hshifts]
    cases first with
    | false => simp [literalShifts, hfresh]
    | true =>
      simp only [literalShifts, Bool.true_eq_false, and_false, if_true, if_false]
      omega
  · obtain ⟨hshifts, hlow, hhigh⟩ := decide_half h128 (by omega) first
    have hnot : ¬(u.range = 255 ∧ first = false) := by omega
    rw [shifts_halfDecisions hlow hhigh, hshifts, literalShifts, if_neg hnot]
    omega

/-! ### Writing a literal (R151, R152, R156) -/

/-- The decisions that one command makes are those of as many ENC.BOOLs. -/
theorem execOk_encBools : ∀ {bits : List Bool} {s : State} {e : EncContext},
    s.enc.phase = .active → encodeAll s.cap (halfDecisions bits) s.enc = .ok e →
    ∃ t, execOk (bits.map fun bit => .encBool bit 128) s = some t ∧ t.enc = e := by
  intro bits
  induction bits with
  | nil => exact fun {s} _ _ h => ⟨s, rfl, Except.ok.inj h⟩
  | cons bit bits ih =>
    intro s e hactive h
    obtain ⟨e1, hfirst, hrest⟩ := bind_eq_ok.1 h
    have hexec : exec (.encBool bit 128) s = .next ((s.setEnc e1).respond .ok (u32 0)) := by
      rw [exec_encBool_of_active hactive (by decide) (by decide)]
      exact congrArg (fun r => complete s (r >>= fun e => .ok (s.setEnc e, 0))) hfirst
    obtain ⟨t, hrun, ht⟩ := ih (s := (s.setEnc e1).respond .ok (u32 0))
      ((encodeBool_frame hfirst).phase.trans hactive) hrest
    exact ⟨t, (execOk_cons_of_ok hexec).trans hrun, ht⟩

/-- R156, R159: a command that codes a literal of the bits `first :: rest` makes all its decisions, or,
when their bytes do not fit, none. -/
theorem exec_literal_effect {s : State} {i : Instr} {first : Bool} {rest : List Bool}
    (hinv : s.Inv) (hactive : s.enc.phase = .active)
    (hexec : exec i s = complete s (do
      let e ← encodeAll s.cap (halfDecisions (first :: rest)) s.enc
      .ok (s.setEnc e, 0))) :
    let k := literalShifts s.enc.range.toNat first (rest.length + 1)
    (s.enc.len + (s.enc.cnt.toNat + k) / 8 ≤ s.cap →
      ∃ e t, exec i s = .next { s with enc := e, responses := s.responses ++ [⟨.ok, 0⟩] } ∧
        e.shifts = s.enc.shifts + k ∧
        execOk ((first :: rest).map fun b => .encBool b 128) s = some t ∧ t.enc = e) ∧
    (s.cap < s.enc.len + (s.enc.cnt.toNat + k) / 8 →
      exec i s = .next { s with responses := s.responses ++ [⟨.err .overflow, 0⟩] }) := by
  intro k
  have hr : 128 ≤ s.enc.unbounded.range := hinv.enc.1
  have hr255 : s.enc.unbounded.range ≤ 255 := Nat.le_of_lt_succ s.enc.range.isLt
  have hholds := encodeAll_holds (hinv.enc.holds hactive) hr
    (halfDecisions_probability (first :: rest))
  have hshifts := UnboundedCoder.shifts_literal hr hr255 first rest
  have hwhole : (s.enc.shifts + k) / 8 = s.enc.len + (s.enc.cnt.toNat + k) / 8 := by
    rw [EncContext.shifts]
    omega
  have hrun : ∀ e, encodeAll s.cap (halfDecisions (first :: rest)) s.enc = .ok e →
      ∃ t, execOk ((first :: rest).map fun b => .encBool b 128) s = some t ∧ t.enc = e :=
    fun e he => execOk_encBools hactive he
  generalize (halfDecisions (first :: rest)).foldl UnboundedCoder.decide s.enc.unbounded = u
    at hholds hshifts
  have hshifts' : u.shifts = s.enc.shifts + k := hshifts
  rw [hexec]
  generalize encodeAll s.cap (halfDecisions (first :: rest)) s.enc = result at hholds hrun ⊢
  cases hholds with
  | @holds e h =>
    have hfits := h.whole_bytes_le
    obtain ⟨t, ht, htenc⟩ := hrun e rfl
    exact ⟨fun _ => ⟨e, t, rfl, h.shifts_eq.trans hshifts', ht, htenc⟩, fun _ => by omega⟩
  | overflows hfull => exact ⟨fun _ => by omega, fun _ => rfl⟩

theorem bitsDown_length (v n : Nat) : (bitsDown v n).length = n := by
  induction n with
  | zero => rfl
  | succ n ih => rw [bitsDown, List.length_cons, ih]

/-- Settles O41: the bits of the value are the literal. -/
theorem litPutuEffect : Obligations.LitPutuEffect := by
  refine ⟨fun nf imm => decode_pack (m := .litPutu) rfl rfl rfl,
    fun s n v hinv h1 h32 hactive => ?_⟩
  obtain ⟨m, hm⟩ : ∃ m, n.toNat = m + 1 := ⟨n.toNat - 1, by omega⟩
  have hexec : exec (.litPutu n v) s = complete s (do
      let e ← encodeAll s.cap (halfDecisions (v.testBit m :: bitsDown v m)) s.enc
      .ok (s.setEnc e, 0)) := by
    rw [exec_litPutu_eq, complete_of_width_inside s _ ⟨h1, h32⟩, checkActive_eq_ok.2 hactive,
      ok_bind, hm]
    rfl
  have heffect := exec_literal_effect hinv hactive hexec
  rw [bitsDown_length] at heffect
  rw [hm]
  exact heffect

/-- Settles O42: the sign and the bits of the magnitude are the literal. -/
theorem litPutsEffect : Obligations.LitPutsEffect := by
  refine ⟨fun nf imm => decode_pack (m := .litPuts) rfl rfl rfl,
    fun s n v hinv h1 h32 hactive => ?_⟩
  obtain ⟨m, hm⟩ : ∃ m, n.toNat = m + 1 := ⟨n.toNat - 1, by omega⟩
  have hexec : exec (.litPuts n v) s = complete s (do
      let e ← encodeAll s.cap (halfDecisions (decide (v < 0) :: bitsDown v.natAbs m)) s.enc
      .ok (s.setEnc e, 0)) := by
    rw [exec_litPuts_eq, complete_of_width_inside s _ ⟨h1, h32⟩, checkActive_eq_ok.2 hactive,
      ok_bind, hm]
    rfl
  have heffect := exec_literal_effect hinv hactive hexec
  rw [bitsDown_length] at heffect
  rw [hm]
  exact heffect

/-! ### Reading a literal (R153, R154) -/

theorem bitsDown_congr {v w : Nat} : ∀ {n : Nat}, (∀ i, i < n → v.testBit i = w.testBit i) →
    bitsDown v n = bitsDown w n := by
  intro n
  induction n with
  | zero => exact fun _ => rfl
  | succ n ih =>
    intro h
    rw [bitsDown, bitsDown, h n (by omega), ih fun i hi => h i (by omega)]

/-- The first bit read is the highest of the number. -/
theorem bitsDown_bitsRead_succ (d : DecContext) (n : Nat) :
    bitsDown (d.bitsRead (n + 1)) (n + 1) =
      d.nextBit 128 :: bitsDown ((d.decided 128).bitsRead n) n := by
  have hbits : ∀ i, (d.bitsRead (n + 1)).testBit i = if i < n then
      ((d.decided 128).bitsRead n).testBit i else (d.nextBit 128).toNat.testBit (i - n) := by
    intro i
    rw [DecContext.bitsRead, Nat.mul_comm,
      Nat.testBit_two_pow_mul_add _ (DecContext.bitsRead_lt n (d.decided 128))]
  have hfirst : (d.bitsRead (n + 1)).testBit n = d.nextBit 128 := by
    rw [hbits, if_neg (Nat.lt_irrefl n), Nat.sub_self]
    cases d.nextBit 128 <;> rfl
  rw [bitsDown, hfirst, bitsDown_congr fun i hi => (hbits i).trans (if_pos hi)]

/-- `n` times DEC.BOOL 128 answers the bits that a literal reads, and leaves the same context. -/
theorem execOk_decBools : ∀ {n : Nat} {s : State}, s.dec.Inv s.cap → s.dec.phase = .decoding →
    ∃ t, execOk (List.replicate n (.decBool 128)) s = some t ∧ t.dec = s.dec.afterBits n ∧
      t.responses = s.responses ++ (bitsDown (s.dec.bitsRead n) n).map bitResponse := by
  intro n
  induction n with
  | zero => exact fun {s} _ _ => ⟨s, rfl, rfl, (List.append_nil _).symm⟩
  | succ n ih =>
    intro s hinv hphase
    have hexec := exec_decBool_of_ok (p := 128) hphase (by omega) (hinv.decodeBool_eq (by omega))
    obtain ⟨t, hrun, hdec, hresponses⟩ := ih
      (s := (s.setDec (s.dec.decided 128)).respond .ok (u32 (s.dec.nextBit 128).toNat))
      (hinv.decided (by omega)) hphase
    refine ⟨t, (execOk_cons_of_ok hexec).trans hrun, hdec, ?_⟩
    rw [hresponses, bitsDown_bitsRead_succ, State.respond_responses, u32_bit, List.append_assoc]
    rfl

/-- Settles O43: the number read and the bits answered are those of the same decisions. -/
theorem litGetuEffect : Obligations.LitGetuEffect := by
  refine ⟨fun nf => decode_pack (m := .litGetu) rfl rfl rfl, fun s n hinv h1 h32 hphase => ?_⟩
  obtain ⟨t, hrun, hdec, hresponses⟩ := execOk_decBools (n := n.toNat) hinv.dec hphase
  refine ⟨_, s.dec.bitsRead n.toNat, t, ?_, DecContext.bitsRead_lt _ _, hrun, hdec, hresponses⟩
  rw [exec_litGetu_eq hinv.dec, complete_of_width_inside s _ ⟨h1, h32⟩,
    checkDecoding_eq_ok.2 hphase, ok_bind, complete_ok, u32_natCast]
  rfl

/-- Settles O44: the first of the decisions is the sign, and a zero has none. -/
theorem litGetsEffect : Obligations.LitGetsEffect := by
  refine ⟨fun nf => decode_pack (m := .litGets) rfl rfl rfl, fun s n hinv h1 h32 hphase => ?_⟩
  have hn : n.toNat - 1 + 1 = n.toNat := by omega
  obtain ⟨t, hrun, hdec, hresponses⟩ := execOk_decBools (n := n.toNat - 1 + 1) hinv.dec hphase
  rw [bitsDown_bitsRead_succ] at hresponses
  rw [hn] at hrun
  refine ⟨_, s.dec.nextBit 128, (s.dec.decided 128).bitsRead (n.toNat - 1), t, _, ?_,
    DecContext.bitsRead_lt _ _, rfl, fun hzero => ?_, hrun, hdec, hresponses⟩
  · rw [exec_litGets_eq hinv.dec, complete_of_width_inside s _ ⟨h1, h32⟩,
      checkDecoding_eq_ok.2 hphase, ok_bind, complete_ok]
    rfl
  · rw [hzero]
    cases s.dec.nextBit 128 <;> rfl

end Sys2Proof.Machine

/-! Decisions coded and decoded (R141), also from a buffer that holds more bytes than the stream, or
lacks zero bytes at its end (R119, R252). -/

namespace Sys2Proof.Machine

/-! ### Reading decisions back -/

/-- Where the stream lies in the interval that the decisions end with, one DEC.BOOL for each answers
its bit and stands where the coder stood. -/
theorem DecContext.Replays.decisions {stream : DecContext} : ∀ {ds : List (Bool × Nat)} {s : State}
    {u : UnboundedCoder}, s.dec.Replays s.cap stream u → (∀ d ∈ ds, d.2 ≤ 255) →
    (ds.foldl UnboundedCoder.decide u).Encloses stream →
    ∃ t, execOk (ds.map fun d => .decBool d.2) s = some t ∧
      t.responses = s.responses ++ (ds.map fun d => bitResponse d.1) ∧
      t.dec.Replays t.cap stream (ds.foldl UnboundedCoder.decide u) := by
  intro ds
  induction ds with
  | nil => exact fun {s} {_} h _ _ => ⟨s, rfl, (List.append_nil _).symm, h⟩
  | cons d ds ih =>
    intro s u h hp hin
    obtain ⟨hd, hds⟩ := List.forall_mem_cons.1 hp
    rw [List.foldl_cons] at hin ⊢
    have hr := UnboundedCoder.le_range_decide (bit := d.1) (le_trans (by omega) h.range) hd
    obtain ⟨d1, hbit, h1⟩ := h.decodeBool hd (hin.of_foldl hr hds)
    have hexec := exec_decBool_of_ok h.phase hd hbit
    obtain ⟨t, hrun, hanswers, ht⟩ := ih (s := (s.setDec d1).respond .ok (u32 d.1.toNat)) h1 hds hin
    refine ⟨t, (execOk_cons_of_ok hexec).trans hrun, ?_, ht⟩
    rw [hanswers, State.respond_responses, u32_bit, List.append_assoc]
    rfl

/-- Between two decisions the decoder's interval size is the coder's (R141). -/
theorem DecContext.Replays.range_eq {cap : Nat} {d stream : DecContext} {u : UnboundedCoder}
    (h : d.Replays cap stream u) : d.range.toNat = u.range := by
  obtain ⟨-, -, v, hfollows, htracks⟩ := h
  exact hfollows.range_eq.trans htracks.range_eq

/-! ### The mirror property (R141) -/

/-- Decisions as the items of a schema. -/
def decisionItems (ds : List (Bool × Nat)) : List Item := ds.map fun d => .decision d.1 d.2

theorem decisionItems_put (ds : List (Bool × Nat)) :
    (decisionItems ds).map Item.put = ds.map fun d => .encBool d.1 d.2 := List.map_map ..

theorem decisionItems_decisions (ds : List (Bool × Nat)) :
    (decisionItems ds).flatMap Item.decisions = ds := by
  rw [decisionItems, List.flatMap_map]
  exact List.flatMap_singleton' ds

theorem decisionItems_legal {ds : List (Bool × Nat)} (hp : ∀ d ∈ ds, d.2 ≤ 255) :
    ∀ x ∈ decisionItems ds, x.legal = true := by
  intro x hx
  obtain ⟨d, hd, rfl⟩ := List.mem_map.1 hx
  exact decide_eq_true (hp d hd)

/-- R112: ENC.INIT starts a coding session. -/
theorem State.Inv.coding_of_encInit {s t : State} {is : List Instr} (hinv : s.Inv)
    (hrun : execOk (.encInit :: is) s = some t) :
    ∃ s', s'.Recording UnboundedCoder.start ∧ execOk is s' = some t := by
  have ⟨_, _, _, _, hdec⟩ := hinv.dec
  have hexec : exec .encInit s = .next ((s.setEnc s.enc.fresh).respond .ok 0) := rfl
  exact ⟨(s.setEnc s.enc.fresh).respond .ok 0, ⟨hinv.coding_fresh.respond .ok 0, hdec⟩,
    (execOk_cons_of_ok hexec).symm.trans hrun⟩

/-- A coding session that is finished, copied and loaded leaves the decoder at the start of a stream
that lies in the coder's interval. -/
theorem mirror_start {s t : State} {ds : List (Bool × Nat)} (hinv : s.Inv)
    (hp : ∀ d ∈ ds, d.2 ≤ 255)
    (hrun : execOk ((.encInit :: ds.map fun d => .encBool d.1 d.2) ++
      [.encFinish, .decLdenc, .decInit]) s = some t) :
    ∃ stream, (ds.foldl UnboundedCoder.decide UnboundedCoder.start).Encloses stream ∧
      t.dec.Replays t.cap stream UnboundedCoder.start := by
  obtain ⟨s1, hfresh, hrest⟩ := hinv.coding_of_encInit hrun
  rw [← decisionItems_put] at hrest
  obtain ⟨s2, hcoded, hfinish⟩ := hfresh.puts (decisionItems_legal hp) hrest
  rw [decisionItems_decisions] at hcoded
  obtain ⟨stream, hin, hlen, hstart⟩ := hcoded.load_stream hfinish
  exact ⟨stream, hin, hstart ▸ DecContext.started_replays hlen (hin.of_foldl (by decide) hp)⟩

/-- Settles O39: the stream lies in every interval that the coder went through, so the decoder stands
beside the coder after the first `n` decisions. -/
theorem mirrorRoundTrip : Obligations.MirrorRoundTrip := by
  intro s t ds hinv hp hrun
  obtain ⟨stream, hin, hreplays⟩ := mirror_start hinv hp hrun
  obtain ⟨u, hback, hanswers, -⟩ := hreplays.decisions hp hin
  refine ⟨⟨u, hback, hanswers⟩, fun n _ a b ha hb => ?_⟩
  have hfirst : ∀ d ∈ ds.take n, d.2 ≤ 255 := fun d hd => hp d (List.mem_of_mem_take hd)
  have hlast : ∀ d ∈ ds.drop n, d.2 ≤ 255 := fun d hd => hp d (List.mem_of_mem_drop hd)
  rw [← List.take_append_drop n ds, List.foldl_append] at hin
  have hr := UnboundedCoder.le_range_foldl (u := UnboundedCoder.start) (by decide) hfirst
  obtain ⟨b', hb', -, hreplays'⟩ := hreplays.decisions hfirst (hin.of_foldl hr hlast)
  obtain rfl : b' = b := Option.some.inj (hb'.symm.trans hb)
  obtain ⟨s1, hfresh, hrest⟩ := hinv.coding_of_encInit ha
  have hcoding := hfresh.toCoding.decisions hfirst hrest
  exact BitVec.eq_of_toNat_eq (hreplays'.range_eq.trans hcoding.holds.range_eq.symm)

/-! ### Other buffers that read like the stream (R119, R252) -/

theorem DecContext.bitPrefix_congr {d d' : DecContext} : ∀ {j : Nat},
    (∀ i, i < j → d.byteAt (i / 8) = d'.byteAt (i / 8)) → d.bitPrefix j = d'.bitPrefix j := by
  intro j
  induction j with
  | zero => exact fun _ => rfl
  | succ j ih =>
    intro h
    rw [bitPrefix, bitPrefix, ih fun i hi => h i (by omega), streamBit_eq, streamBit_eq,
      h j (by omega)]

/-- The flush of a session, as the number that its bytes make (R119). -/
theorem State.Coding.encFinish_number {s t : State} {u : UnboundedCoder} (h : s.Coding u)
    (hrun : execOk [.encFinish] s = some t) :
    t.enc.len = u.streamLength ∧
      streamNumber t.enc.buf t.enc.len = u.low * 2 ^ ((8 - u.shifts % 8) % 8) := by
  obtain ⟨s1, v, hok, hrest⟩ := execOk_cons (exec_encFinish_of_active h.phase) hrun
  obtain ⟨e, he, hok⟩ := bind_eq_ok.1 hok
  obtain ⟨rfl, rfl⟩ := Prod.mk.inj (Except.ok.inj hok)
  obtain rfl := Option.some.inj hrest
  exact encFlush_stream h.holds he

/-- A buffer that reads like the finished stream at the stream's indexes lies in the coder's
interval: the coder's precision of `8 + K` bits does not reach past them. -/
theorem UnboundedCoder.encloses_of_reads_like {u : UnboundedCoder} {d stream : DecContext}
    (hr : 0 < u.range) (hlen : stream.len = u.streamLength)
    (hnumber : streamNumber stream.buf stream.len = u.low * 2 ^ ((8 - u.shifts % 8) % 8))
    (hreads : ∀ a, a < stream.len → d.byteAt a = stream.byteAt a) : u.Encloses d := by
  have hsame : d.bitPrefix (8 + u.shifts) = stream.bitPrefix (8 + u.shifts) := by
    refine DecContext.bitPrefix_congr fun i hi => hreads _ ?_
    rw [hlen, streamLength]
    omega
  rw [Encloses, hsame, DecContext.bitPrefix_of_finished hlen hnumber]
  omega

/-- Settles O40: what is decoded depends on the first `8 + K` bits alone. -/
theorem trailingBytesAreHarmless : Obligations.TrailingBytesAreHarmless := by
  intro s t u ds hinv huinv hp hrun hreads
  obtain ⟨s1, hfresh, hrest⟩ := hinv.coding_of_encInit hrun
  rw [← decisionItems_put] at hrest
  obtain ⟨s2, hcoded, hfinish⟩ := hfresh.puts (decisionItems_legal hp) hrest
  rw [decisionItems_decisions] at hcoded
  obtain ⟨hlen, hnumber⟩ := hcoded.toCoding.encFinish_number hfinish
  have hin : (ds.foldl UnboundedCoder.decide UnboundedCoder.start).Encloses u.dec :=
    UnboundedCoder.encloses_of_reads_like
      (stream := { u.dec with buf := t.enc.buf, len := t.enc.len })
      (lt_of_lt_of_le (by decide) hcoded.range) hlen hnumber
      fun a ha => (hreads a ha).trans (DecContext.byteAt_of_lt ha).symm
  have ⟨_, _, _, hcap, _⟩ := huinv.dec
  have hstart := DecContext.started_replays hcap (hin.of_foldl (by decide) hp)
  obtain ⟨w, hback, hanswers, -⟩ :=
    DecContext.Replays.decisions (s := (u.setDec u.dec.started).respond .ok 0) hstart hp hin
  refine ⟨w, (execOk_cons_of_ok (exec_decInit hcap)).trans hback, ?_⟩
  rw [hanswers, State.respond_responses, List.append_assoc]
  rfl

end Sys2Proof.Machine

/-! The transforms on exact integers (R175, R177): on a domain where no stored value wraps, a command
is its two passes over a 4x4 grid of integers. -/

namespace Sys2Proof.Machine

/-! ### Grids of integers -/

/-- A 4x4 grid of exact integers, as its rows. -/
abbrev Grid := Quad (Quad Int)

/-- Each of four integers lies in `[-n, n]`. -/
def Quad.Within (n : Int) (x : Quad Int) : Prop := ∀ i, -n ≤ x.get i ∧ x.get i ≤ n

/-- Each integer of a grid lies in `[-n, n]`. -/
def Grid.Within (n : Int) (g : Grid) : Prop := ∀ r, (g.get r).Within n

theorem Quad.get_of_all {α : Type} {P : α → Prop} {q : Quad α} (h0 : P q.x0) (h1 : P q.x1)
    (h2 : P q.x2) (h3 : P q.x3) (i : Nat) : P (q.get i) := by
  match i with
  | 0 => exact h0
  | 1 => exact h1
  | 2 => exact h2
  | _ + 3 => exact h3

theorem Quad.within_of_all {n : Int} {x : Quad Int} (h0 : -n ≤ x.x0 ∧ x.x0 ≤ n)
    (h1 : -n ≤ x.x1 ∧ x.x1 ≤ n) (h2 : -n ≤ x.x2 ∧ x.x2 ≤ n) (h3 : -n ≤ x.x3 ∧ x.x3 ≤ n) :
    x.Within n := get_of_all (P := fun v => -n ≤ v ∧ v ≤ n) h0 h1 h2 h3

theorem Quad.Within.members {n : Int} {x : Quad Int} (h : x.Within n) :
    (-n ≤ x.x0 ∧ x.x0 ≤ n) ∧ (-n ≤ x.x1 ∧ x.x1 ≤ n) ∧ (-n ≤ x.x2 ∧ x.x2 ≤ n) ∧
      (-n ≤ x.x3 ∧ x.x3 ≤ n) := ⟨h 0, h 1, h 2, h 3⟩

/-- Every index above 3 is the last. -/
theorem Quad.get_min {α : Type} (q : Quad α) (i : Nat) : q.get i = q.get (min i 3) := by
  match i with
  | 0 | 1 | 2 | _ + 3 => simp [get]

theorem Quad.ext_get {α : Type} {p q : Quad α} (h : ∀ i, p.get i = q.get i) : p = q := by
  have h0 : p.x0 = q.x0 := h 0
  have h1 : p.x1 = q.x1 := h 1
  have h2 : p.x2 = q.x2 := h 2
  have h3 : p.x3 = q.x3 := h 3
  cases p
  cases q
  simp_all

theorem Quad.get_get_transpose {α : Type} (g : Quad (Quad α)) (r c : Nat) :
    (g.transpose.get c).get r = (g.get r).get c := by
  rw [get_transpose, get_map]

theorem Grid.Within.transpose {n : Int} {g : Grid} (h : g.Within n) : Grid.Within n g.transpose := by
  intro c r
  rw [Quad.get_get_transpose]
  exact h r c

/-- A pass over the rows, and then one over the columns. -/
def Grid.twoPass (f1 f2 : Quad Int → Quad Int) (g : Grid) : Grid :=
  (((g.map f1).transpose).map f2).transpose

theorem Grid.get_twoPass (f1 f2 : Quad Int → Quad Int) (g : Grid) (r c : Nat) :
    ((g.twoPass f1 f2).get r).get c = (f2 ((g.map f1).transpose.get c)).get r := by
  rw [Grid.twoPass, Quad.get_get_transpose, Quad.get_map]

/-! ### Blocks as grids -/

/-- The elements of a block as integers. -/
def Block.ints (b : Block) : Grid := Quad.map (Quad.map BitVec.toInt) b

theorem Block.get_ints (b : Block) (r c : Nat) :
    (b.ints.get r).get c = ((Quad.get b r).get c).toInt := by
  rw [ints, Quad.get_map, Quad.get_map]

theorem Block.toInt_get (b : Block) (i : Nat) :
    (b.get i).toInt = (b.ints.get (i / 4)).get (i % 4) := (b.get_ints _ _).symm

theorem Block.Within.ints {b : Block} {n : Int} (h : b.Within n) : b.ints.Within n := by
  intro r c
  rw [Quad.get_min b.ints, Quad.get_min _ c, get_ints, ← Block.get_row b _ (by omega)]
  exact h _ (by omega)

/-- Four stored integers read back. -/
theorem Quad.toInt_wrap32 {n : Int} (hn : n < 2 ^ 31) {x : Quad Int} (h : x.Within n) :
    (x.map wrap32).map BitVec.toInt = x := by
  refine Quad.ext_get fun i => ?_
  obtain ⟨hlo, hhi⟩ := h i
  rw [get_map, get_map]
  exact wrap32_toInt_of_fits (by omega) (by omega)

/-- R175: where nothing wraps, the two passes over a block are the two passes over its integers. -/
theorem columnPass_rowPass_ints {f1 f2 : Quad Int → Quad Int} {q : Int → Int} {b : Block}
    {n n1 n2 : Int} (hb : b.ints.Within n) (hn1 : n1 < 2 ^ 31) (hn2 : n2 < 2 ^ 31)
    (h1 : ∀ x : Quad Int, x.Within n → (f1 x).Within n1)
    (h2 : ∀ x : Quad Int, x.Within n1 → ((f2 x).map q).Within n2) :
    Block.ints (columnPass f2 q (rowPass f1 b)) =
        Grid.twoPass f1 (fun x => (f2 x).map q) b.ints ∧
      Grid.Within n2 (Block.ints (columnPass f2 q (rowPass f1 b))) := by
  have hrows : (rowPass f1 b).ints = b.ints.map f1 := by
    refine Quad.ext_get fun r => ?_
    rw [Block.ints, Quad.get_map, rowPass_row, Quad.get_map, Block.ints, Quad.get_map]
    refine Quad.toInt_wrap32 hn1 (h1 _ ?_)
    rw [← Quad.get_map (Quad.map BitVec.toInt)]
    exact hb r
  have hmiddle : Grid.Within n1 (b.ints.map f1) := by
    intro r
    rw [Quad.get_map]
    exact h1 _ (hb r)
  have hcolumn : ∀ c, ((Quad.transpose (rowPass f1 b)).get c).map BitVec.toInt =
      (b.ints.map f1).transpose.get c := by
    intro c
    rw [← hrows, ← Quad.get_map (Quad.map BitVec.toInt)]
    rfl
  have hwithin : ∀ c, ((f2 ((b.ints.map f1).transpose.get c)).map q).Within n2 :=
    fun c => h2 _ (hmiddle.transpose c)
  have hints : Block.ints (columnPass f2 q (rowPass f1 b)) =
      Grid.twoPass f1 (fun x => (f2 x).map q) b.ints := by
    refine Quad.ext_get fun r => Quad.ext_get fun c => ?_
    have hstored := columnPass_column f2 q (rowPass f1 b) c
    rw [hcolumn] at hstored
    have hread := congrArg (Quad.map BitVec.toInt) hstored
    have hfits := Quad.toInt_wrap32 hn2 (hwithin c)
    rw [Grid.get_twoPass, Block.get_ints, ← Quad.get_get_transpose, ← Quad.get_map BitVec.toInt,
      hread]
    exact congrArg (Quad.get · r) hfits
  refine ⟨hints, fun r c => ?_⟩
  rw [hints, Grid.get_twoPass]
  exact hwithin c r

/-! ### The Walsh-Hadamard pair (R185) -/

theorem had4_within {n : Int} {x : Quad Int} (h : x.Within n) : (had4 x).Within (4 * n) := by
  obtain ⟨h0, h1, h2, h3⟩ := h.members
  rw [had4_eq]
  refine Quad.within_of_all ?_ ?_ ?_ ?_ <;> simp only [Quad.stages] <;> omega

/-- The scaling of XFM.WHT (R178). -/
def halve (t : Int) : Int := asr (t + 1) 1

/-- The scaling of XFM.IWHT (R179). -/
def eighth (t : Int) : Int := asr (t + 4) 3

theorem halve_eq (t : Int) : halve t = (t + 1) / 2 := rfl

theorem eighth_eq (t : Int) : eighth t = (t + 4) / 8 := rfl

/-! ### Linear combinations of four -/

/-- The sum of the products of like members. -/
def Quad.dot (l x : Quad Int) : Int := l.x0 * x.x0 + l.x1 * x.x1 + l.x2 * x.x2 + l.x3 * x.x3

/-- Combining the columns and then the rows is combining the rows and then the columns. -/
theorem Quad.dot_map_transpose (l f : Quad Int) (g : Grid) :
    l.dot (g.transpose.map f.dot) = f.dot (g.map l.dot) := by
  simp only [dot, Quad.map, Quad.transpose]
  ring

/-- Twice some numbers that are doubled up to a common rest. -/
theorem Quad.two_mul_dot (l : Quad Int) {y v : Quad Int} {s : Int}
    (h : ∀ k, 2 * y.get k = v.get k + s) : 2 * l.dot y = l.dot v + s * l.sum := by
  have h0 : 2 * y.x0 = v.x0 + s := h 0
  have h1 : 2 * y.x1 = v.x1 + s := h 1
  have h2 : 2 * y.x2 = v.x2 + s := h 2
  have h3 : 2 * y.x3 = v.x3 + s := h 3
  simp only [dot, sum]
  linear_combination l.x0 * h0 + l.x1 * h1 + l.x2 * h2 + l.x3 * h3

/-- The signs of `Had4` (R176). -/
def hadMatrix : Grid := ⟨⟨1, 1, 1, 1⟩, ⟨1, 1, -1, -1⟩, ⟨1, -1, -1, 1⟩, ⟨1, -1, 1, -1⟩⟩

theorem had4_get (x : Quad Int) (i : Nat) : (had4 x).get i = (hadMatrix.get i).dot x := by
  rw [had4_eq]
  match i with
  | 0 | 1 | 2 | _ + 3 =>
    simp only [Quad.get, Quad.stages, hadMatrix, Quad.dot]
    ring

theorem hadMatrix_sum (i : Nat) : (hadMatrix.get i).sum = if i = 0 then 4 else 0 := by
  match i with
  | 0 | 1 | 2 | _ + 3 => rfl

/-- `Had4` twice is four times the identity; a constant comes back in the first member alone. -/
theorem had4_shifted_had4 (x : Quad Int) (c : Int) (i : Nat) :
    (had4 ((had4 x).map (· + c))).get i = 4 * x.get i + c * (hadMatrix.get i).sum := by
  simp only [had4_eq]
  match i with
  | 0 | 1 | 2 | _ + 3 =>
    simp only [Quad.get, Quad.stages, Quad.map, hadMatrix, Quad.sum]
    ring

theorem had4_map_mul (x : Quad Int) (k : Int) (i : Nat) :
    (had4 (x.map (k * ·))).get i = k * (had4 x).get i := by
  simp only [had4_eq]
  match i with
  | 0 | 1 | 2 | _ + 3 =>
    simp only [Quad.get, Quad.stages, Quad.map]
    ring

/-! ### The Walsh-Hadamard round trip (R185) -/

/-- The sum of the 16 integers of a grid. -/
def Grid.total (g : Grid) : Int := (g.map Quad.sum).sum

theorem Block.total_ints (b : Block) : b.ints.total = elementSum b := blockSum_eq b

/-- Changing signs keeps the parity. -/
theorem had4_parity (x : Quad Int) (i : Nat) : (had4 x).get i % 2 = x.sum % 2 := by
  rw [had4_eq]
  match i with
  | 0 => rfl
  | 1 | 2 | _ + 3 =>
    simp only [Quad.get, Quad.stages, Quad.sum]
    omega

theorem column_parity (g : Grid) (c : Nat) :
    ((g.map had4).transpose.get c).sum % 2 = g.total % 2 := by
  have h0 := had4_parity g.x0 c
  have h1 := had4_parity g.x1 c
  have h2 := had4_parity g.x2 c
  have h3 := had4_parity g.x3 c
  rw [Quad.get_transpose]
  simp only [Grid.total, Quad.map, Quad.sum] at h0 h1 h2 h3 ⊢
  omega

/-- Every coefficient is the sum of the 16 elements with some signs changed, so all of them are rounded
up by the same half, or none is. -/
theorem whtGrid_doubled (g : Grid) (i k : Nat) :
    2 * ((g.twoPass had4 fun x => (had4 x).map halve).get i).get k =
      (hadMatrix.get i).dot ((g.map had4).transpose.get k) + g.total % 2 := by
  have hparity := had4_parity ((g.map had4).transpose.get k) i
  rw [column_parity] at hparity
  rw [Grid.get_twoPass, Quad.get_map, ← had4_get, halve_eq]
  omega

/-- A column of the inverse's first pass: the coefficients of a column of the grid, and a share of the
rounding that only column 0 has. -/
theorem iwhtGrid_column (g : Grid) (j : Nat) :
    ((((g.twoPass had4 fun x => (had4 x).map halve).map had4).transpose.get j).map (2 * ·)) =
      (had4 ((g.transpose.get j).map (4 * ·))).map
        (· + g.total % 2 * (hadMatrix.get j).sum) := by
  refine Quad.ext_get fun i => ?_
  have hrow : (g.map had4).map (hadMatrix.get j).dot = (g.transpose.get j).map (4 * ·) := by
    refine Quad.ext_get fun m => ?_
    have htwice := had4_shifted_had4 (g.get m) 0 j
    rw [Quad.get_map, Quad.get_map, Quad.get_map, Quad.get_get_transpose, ← had4_get]
    simpa [Quad.map] using htwice
  have hdoubled := Quad.two_mul_dot (hadMatrix.get j)
    (v := (g.map had4).transpose.map (hadMatrix.get i).dot)
    fun k => (whtGrid_doubled g i k).trans (by rw [Quad.get_map])
  rw [Quad.dot_map_transpose, hrow, ← had4_get, ← had4_get] at hdoubled
  rw [Quad.get_map, Quad.get_get_transpose, Quad.get_map, Quad.get_map]
  exact hdoubled

/-- R185: the round trip over exact integers. -/
theorem whtGrid_round_trip (g : Grid) (r c : Nat) :
    (((g.twoPass had4 fun x => (had4 x).map halve).twoPass had4 fun x => (had4 x).map eighth).get
      r).get c = (g.get r).get c + if r = 0 ∧ c = 0 then g.total % 2 else 0 := by
  have hcolumn := congrArg (fun x => (had4 x).get r) (iwhtGrid_column g c)
  simp only [had4_map_mul, had4_shifted_had4, Quad.get_map, Quad.get_get_transpose,
    hadMatrix_sum] at hcolumn
  rw [Grid.get_twoPass, Quad.get_map, eighth_eq]
  generalize (had4 (((g.twoPass had4 fun x => (had4 x).map halve).map had4).transpose.get c)).get r
    = t at hcolumn ⊢
  split_ifs at hcolumn ⊢ <;> omega

theorem exec_xfmWht_blk {s t : State} (h : exec .xfmWht s = .next t) :
    t.blk = columnPass had4 halve (rowPass had4 s.blk) := by
  obtain rfl := Host.Outcome.next.inj h
  rfl

theorem exec_xfmIwht_blk {s t : State} (h : exec .xfmIwht s = .next t) :
    t.blk = columnPass had4 eighth (rowPass had4 s.blk) := by
  obtain rfl := Host.Outcome.next.inj h
  rfl

theorem halve_had4_within {n : Int} {x : Quad Int} (h : x.Within n) :
    ((had4 x).map halve).Within (2 * n + 1) := by
  intro i
  obtain ⟨hlo, hhi⟩ := had4_within h i
  rw [Quad.get_map, halve_eq]
  omega

theorem eighth_had4_within {n : Int} {x : Quad Int} (hn : 0 ≤ n) (h : x.Within n) :
    ((had4 x).map eighth).Within (n + 1) := by
  intro i
  obtain ⟨hlo, hhi⟩ := had4_within h i
  rw [Quad.get_map, eighth_eq]
  omega

/-- Settles O52: nothing wraps, and the one rounding of the coefficients comes back in position 0. -/
theorem whtRoundTripExact : Obligations.WhtRoundTripExact := by
  intro s t u hs hwht hiwht
  obtain ⟨hthere, hmiddle⟩ := columnPass_rowPass_ints (f1 := had4) (f2 := had4) (q := halve)
    hs.ints (n1 := 2 ^ 22) (n2 := 2 ^ 23 + 1) (by decide) (by decide)
    (fun x h => had4_within h) (fun x h => halve_had4_within h)
  obtain ⟨hback, -⟩ := columnPass_rowPass_ints (f1 := had4) (f2 := had4) (q := eighth)
    hmiddle (n1 := 2 ^ 25 + 4) (n2 := 2 ^ 25 + 5) (by decide) (by decide)
    (fun x h => had4_within h) (fun x h => eighth_had4_within (by decide) h)
  have hu : ∀ i, (u.blk.get i).toInt = (s.blk.get i).toInt +
      if i / 4 = 0 ∧ i % 4 = 0 then elementSum s.blk % 2 else 0 := by
    intro i
    rw [Block.toInt_get, Block.toInt_get, exec_xfmIwht_blk hiwht, exec_xfmWht_blk hwht, hback,
      hthere, whtGrid_round_trip, Block.total_ints]
  refine ⟨fun i h1 h16 => BitVec.eq_of_toInt_eq ?_, hu 0⟩
  rw [hu, if_neg (by omega), add_zero]

end Sys2Proof.Machine

/-! The round trip of the cosine pair (R185): each stage is a matrix up to a rounding, the two matrices
nearly undo each other, and the errors of the stages add up to less than 20 eighths. -/

namespace Sys2Proof.Machine

/-- `a` differs from `b` by at most `e`. -/
def Near (e a b : Int) : Prop := b - e ≤ a ∧ a ≤ b + e

/-- The sum of the absolute values of four coefficients. -/
def Quad.weight (l : Quad Int) : Int := |l.x0| + |l.x1| + |l.x2| + |l.x3|

theorem Near.abs_mul_le {e a b : Int} (h : Near e a b) (l : Int) : |l * (a - b)| ≤ |l| * e := by
  obtain ⟨hlo, hhi⟩ := h
  rw [abs_mul]
  exact mul_le_mul_of_nonneg_left (abs_le.2 ⟨by omega, by omega⟩) (abs_nonneg l)

/-- A linear combination of four errors. -/
theorem Quad.near_dot (l : Quad Int) {k e : Int} {y v : Quad Int}
    (h : ∀ i, Near e (k * y.get i) (v.get i)) : Near (l.weight * e) (k * l.dot y) (l.dot v) := by
  have h0 := abs_le.1 ((h 0).abs_mul_le l.x0)
  have h1 := abs_le.1 ((h 1).abs_mul_le l.x1)
  have h2 := abs_le.1 ((h 2).abs_mul_le l.x2)
  have h3 := abs_le.1 ((h 3).abs_mul_le l.x3)
  simp only [get] at h0 h1 h2 h3
  simp only [Near, dot, weight]
  constructor <;> linarith

/-! ### The stages as matrices (R180, R182) -/

/-- Both forward stages before their rounding: `2^13` times FdctRow and `2^20` times FdctCol. -/
def fdctMatrix : Grid :=
  ⟨⟨65536, 65536, 65536, 65536⟩, ⟨85632, 35472, -35472, -85632⟩,
   ⟨65536, -65536, -65536, 65536⟩, ⟨35472, -85632, 85632, -35472⟩⟩

/-- The inverse stage before its floors: `2^16` times `Idct4`. -/
def idctMatrix : Grid :=
  ⟨⟨65536, 85627, 65536, 35468⟩, ⟨65536, 35468, -65536, -85627⟩,
   ⟨65536, -35468, -65536, 85627⟩, ⟨65536, -85627, 65536, -35468⟩⟩

/-- The middle of the range in which the two floors of an output of `Idct4` put it. -/
def idctBias : Quad Int := ⟨-65535, 0, 0, 65535⟩

theorem fdctRow_near (x : Quad Int) (i : Nat) :
    Near 4096 (8192 * (fdctRow x).get i) ((fdctMatrix.get i).dot x) := by
  rw [fdctRow_eq]
  match i with
  | 0 | 1 | 2 | _ + 3 =>
    simp only [Quad.get, Quad.stages, fdctMatrix, Quad.dot, Near]
    omega

theorem fdctCol_near (x : Quad Int) (i : Nat) :
    Near 524288 (1048576 * (fdctCol x).get i) ((fdctMatrix.get i).dot x) := by
  rw [fdctCol_eq]
  match i with
  | 0 | 1 | 2 | _ + 3 =>
    simp only [Quad.get, Quad.stages, fdctMatrix, Quad.dot, Near]
    omega

theorem idct4_near (y : Quad Int) (i : Nat) :
    Near 65535 (65536 * (idct4 y).get i) ((idctMatrix.get i).dot y + idctBias.get i) := by
  rw [idct4_eq]
  match i with
  | 0 | 1 | 2 | _ + 3 =>
    simp only [Quad.get, Quad.stages, idctOdd1, idctOdd2, idctMatrix, idctBias, Quad.dot, Near]
    omega

theorem idctMatrix_weight (j : Nat) : (idctMatrix.get j).weight = 252167 := by
  match j with
  | 0 | 1 | 2 | _ + 3 => rfl

theorem idctBias_bounds (j : Nat) : -65535 ≤ idctBias.get j ∧ idctBias.get j ≤ 65535 := by
  match j with
  | 0 | 1 | 2 | _ + 3 => simp [Quad.get, idctBias]

/-- The two matrices on a row: `2^21` times the identity, up to a rounding and to the difference between
the constants of R180 and those of R182. -/
theorem idctMatrix_fdctRow_near {x : Quad Int} (h : x.Within 1000) (j : Nat) :
    Near 247000 ((idctMatrix.get j).dot (fdctRow x)) (2097152 * x.get j) := by
  obtain ⟨⟨hxl0, hxh0⟩, ⟨hxl1, hxh1⟩, ⟨hxl2, hxh2⟩, hxl3, hxh3⟩ := h.members
  obtain ⟨hl1, hh1⟩ := fdctRow_near x 1
  obtain ⟨hl3, hh3⟩ := fdctRow_near x 3
  have h0 : (fdctRow x).x0 = 8 * (x.x0 + x.x1 + x.x2 + x.x3) := by rw [fdctRow_eq]; rfl
  have h2 : (fdctRow x).x2 = 8 * (x.x0 - x.x1 - x.x2 + x.x3) := by rw [fdctRow_eq]; rfl
  match j with
  | 0 | 1 | 2 | _ + 3 =>
    simp only [Quad.get, fdctMatrix, idctMatrix, Quad.dot, Near] at *
    constructor <;> linarith

/-- The inverse's second pass on a column. The numbers are `2^36`, the error `2^19 * 252167` of a row of
rounded coefficients with `2^20 * 65535` for the floors of the first pass, and `2^20 * 65535` again for
the bias `m` that those floors have in this column. -/
theorem idct4_column_near {x u z : Quad Int} {m : Int} (hx : x.Within 1000)
    (hu : ∀ i, Near 247000 (u.get i) (2097152 * x.get i))
    (hm : -68718428160 ≤ m ∧ m ≤ 68718428160)
    (hz : ∀ i, Near 200926560256 (68719476736 * z.get i) ((fdctMatrix.get i).dot u + m)) (r : Nat) :
    Near 19 ((idct4 z).get r) (8 * x.get r) := by
  obtain ⟨⟨hxl0, hxh0⟩, ⟨hxl1, hxh1⟩, ⟨hxl2, hxh2⟩, hxl3, hxh3⟩ := hx.members
  obtain ⟨hul0, huh0⟩ := hu 0
  obtain ⟨hul1, huh1⟩ := hu 1
  obtain ⟨hul2, huh2⟩ := hu 2
  obtain ⟨hul3, huh3⟩ := hu 3
  obtain ⟨hzl0, hzh0⟩ := hz 0
  obtain ⟨hzl1, hzh1⟩ := hz 1
  obtain ⟨hzl2, hzh2⟩ := hz 2
  obtain ⟨hzl3, hzh3⟩ := hz 3
  obtain ⟨hml, hmh⟩ := hm
  obtain ⟨htl, hth⟩ := idct4_near z r
  generalize (idct4 z).get r = t at htl hth ⊢
  match r with
  | 0 | 1 | 2 | _ + 3 =>
    simp only [Quad.get, fdctMatrix, idctMatrix, idctBias, Quad.dot, Near] at *
    constructor <;> linarith

/-! ### The round trip over exact integers -/

/-- The forward transform of exact integers. -/
def Grid.dct (g : Grid) : Grid := g.twoPass fdctRow fun x => (fdctCol x).map fun t => t

/-- The inverse transform of exact integers. -/
def Grid.idct (g : Grid) : Grid := g.twoPass idct4 fun x => (idct4 x).map eighth

theorem Grid.dct_near (g : Grid) (i k : Nat) :
    Near 524288 (1048576 * (g.dct.get i).get k)
      ((fdctMatrix.get i).dot ((g.map fdctRow).transpose.get k)) := by
  rw [dct, get_twoPass, Quad.get_map]
  exact fdctCol_near _ i

/-- The first pass of the inverse on row `i` of the coefficients: row `i` of the forward matrix,
applied to what the row stages alone make of the grid's rows. -/
theorem Grid.idct4_dct_near (g : Grid) (i j : Nat) :
    Near 200926560256 (68719476736 * (idct4 (g.dct.get i)).get j)
      ((fdctMatrix.get i).dot ((g.map fdctRow).map (idctMatrix.get j).dot) +
        1048576 * idctBias.get j) := by
  have hcolumns := Quad.near_dot (idctMatrix.get j) (y := g.dct.get i)
    (v := (g.map fdctRow).transpose.map (fdctMatrix.get i).dot)
    fun k => by rw [Quad.get_map]; exact g.dct_near i k
  rw [Quad.dot_map_transpose, idctMatrix_weight] at hcolumns
  obtain ⟨hlo, hhi⟩ := hcolumns
  obtain ⟨hlo', hhi'⟩ := idct4_near (g.dct.get i) j
  constructor <;> linarith

/-- R185 for the column `c` of a grid. -/
theorem Grid.idct_dct_near {g : Grid} (h : g.Within 1000) (r c : Nat) :
    Near 2 ((g.dct.idct.get r).get c) ((g.get r).get c) := by
  have hbias := idctBias_bounds c
  have hcolumn := idct4_column_near (x := g.transpose.get c)
    (u := (g.map fdctRow).map (idctMatrix.get c).dot) (z := (g.dct.map idct4).transpose.get c)
    (m := 1048576 * idctBias.get c) (h.transpose c)
    (fun i => by
      rw [Quad.get_map, Quad.get_map, Quad.get_get_transpose]
      exact idctMatrix_fdctRow_near (h i) c)
    (by omega)
    (fun i => by
      rw [Quad.get_get_transpose, Quad.get_map]
      exact g.idct4_dct_near i c)
    r
  rw [Quad.get_get_transpose] at hcolumn
  rw [idct, get_twoPass, Quad.get_map, eighth_eq]
  obtain ⟨hlo, hhi⟩ := hcolumn
  constructor <;> omega

/-! ### No stored value wraps (R175) -/

section Within

variable {n : Int} {x : Quad Int}

theorem fdctRow_within (h : x.Within n) : (fdctRow x).Within (32 * n + 1) := by
  obtain ⟨h0, h1, h2, h3⟩ := h.members
  rw [fdctRow_eq]
  refine Quad.within_of_all ?_ ?_ ?_ ?_ <;> simp only [Quad.stages] <;> omega

theorem fdctCol_within (h : x.Within n) : ((fdctCol x).map fun t => t).Within (n + 1) := by
  obtain ⟨h0, h1, h2, h3⟩ := h.members
  rw [fdctCol_eq]
  refine Quad.within_of_all ?_ ?_ ?_ ?_ <;> simp only [Quad.stages, Quad.map] <;> omega

theorem idct4_within (h : x.Within n) : (idct4 x).Within (4 * n + 2) := by
  obtain ⟨h0, h1, h2, h3⟩ := h.members
  rw [idct4_eq]
  refine Quad.within_of_all ?_ ?_ ?_ ?_ <;>
    simp only [Quad.stages, idctOdd1, idctOdd2] <;> omega

theorem eighth_idct4_within (h : x.Within n) : ((idct4 x).map eighth).Within (n + 1) := by
  intro i
  have hn : 0 ≤ n := by
    have := h 0
    omega
  obtain ⟨hlo, hhi⟩ := idct4_within h i
  rw [Quad.get_map, eighth_eq]
  omega

end Within

theorem exec_xfmDct_blk {s t : State} (h : exec .xfmDct s = .next t) :
    t.blk = columnPass fdctCol (fun t => t) (rowPass fdctRow s.blk) := by
  obtain rfl := Host.Outcome.next.inj h
  rfl

theorem exec_xfmIdct_blk {s t : State} (h : exec .xfmIdct s = .next t) :
    t.blk = columnPass idct4 eighth (rowPass idct4 s.blk) := by
  obtain rfl := Host.Outcome.next.inj h
  rfl

/-- Settles O53: nothing wraps for elements up to 1000, and then the exact round trip bounds the
difference. -/
theorem dctRoundTripWithinTwo : Obligations.DctRoundTripWithinTwo := by
  intro s t u hs hdct hidct i _
  obtain ⟨hthere, hmiddle⟩ := columnPass_rowPass_ints (f1 := fdctRow) (f2 := fdctCol)
    (q := fun t => t) hs.ints (n1 := 32001) (n2 := 32002) (by decide) (by decide)
    (fun x h => fdctRow_within h) (fun x h => fdctCol_within h)
  obtain ⟨hback, -⟩ := columnPass_rowPass_ints (f1 := idct4) (f2 := idct4) (q := eighth)
    hmiddle (n1 := 128010) (n2 := 128011) (by decide) (by decide)
    (fun x h => idct4_within h) (fun x h => eighth_idct4_within h)
  have hround := Grid.idct_dct_near hs.ints (i / 4) (i % 4)
  rw [Grid.idct, Grid.dct, ← hthere, ← hback, ← exec_xfmDct_blk hdct, ← exec_xfmIdct_blk hidct,
    ← Block.toInt_get, ← Block.toInt_get] at hround
  obtain ⟨hlo, hhi⟩ := hround
  constructor <;> omega

end Sys2Proof.Machine
